-- ==== Sys2Proof/Word.lean ====
section
/-!
DEFINITION. The words of the hardware and the closed sets of names the spec gives: line levels, the kinds of a
transmission, the nineteen command codes as names, pixels. 00_scope.md R10, R11; 30_encoding.md R97, R103.
-/

namespace Sys2Proof

/-- An unsigned 8-bit value (00_scope.md R10). -/
abbrev Byte := BitVec 8

/-- An unsigned 16-bit value (00_scope.md R10). -/
abbrev Word16 := BitVec 16

/-- The level of a digital line (00_scope.md R16). -/
inductive Level where
  | low
  | high
deriving DecidableEq, Repr

/-- The other level, the spec's `not l`. -/
def Level.not : Level → Level
  | .low => .high
  | .high => .low

/-- The two kinds of a transmission (30_encoding.md R94). -/
inductive Kind where
  | command
  | data
deriving DecidableEq, Repr

/-- The four control lines (30_encoding.md R90). -/
inductive Line where
  | csx
  | dcx
  | resx
  | bl
deriving DecidableEq, Repr

/-- One stored pixel: three Bytes, red, green, blue (10_state.md R31). -/
structure Pixel where
  r : Byte
  g : Byte
  b : Byte
deriving DecidableEq, Repr

/-- The thirteen panel-configuration codes (00_scope.md R2). -/
inductive CfgCode where
  | xF7 | xC0 | xC1 | xC5 | xB1 | xB4 | xB6 | xB7 | xBE | xE9 | x3A | xE0 | xE1
deriving DecidableEq, Repr

/-- The nineteen command codes, by name (30_encoding.md R103). -/
inductive Opcode where
  | slpout
  | dispon
  | caset
  | paset
  | ramwr
  | madctl
  | cfg (k : CfgCode)
deriving DecidableEq, Repr

/-- The five command formats (30_encoding.md R97). -/
inductive Format where
  | f0 | f1 | f4 | fs | fv
deriving DecidableEq, Repr

end Sys2Proof
end

