-- ==== Sys2Proof/Config.lean ====
section
/-!
DEFINITION. What is fixed for a run: the numbers the source fixes (00_scope.md R8) and the record of the parameters it
leaves open. The record is a field of the machine's state that no step writes, so a claim about every state is a claim
about every choice of the parameters (log entry 2).
-/

namespace Sys2Proof

/-- `PANEL_W` (00_scope.md R8): logical width in orientation 0. -/
def panelW : Nat := 320

/-- `PANEL_H` (00_scope.md R8): logical height in orientation 0. -/
def panelH : Nat := 480

/-- `BYTES_PER_PIXEL` (00_scope.md R8). -/
def bytesPerPixel : Nat := 3

/-- `T_RESET_LOW` in ms (00_scope.md R8). -/
def tResetLow : Nat := 100

/-- `T_RESET_RECOVER` in ms (00_scope.md R8). -/
def tResetRecover : Nat := 50

/-- `T_SLEEP_OUT` in ms (00_scope.md R8). -/
def tSleepOut : Nat := 120

/-- One value for each of the thirteen configuration codes (10_state.md R23). -/
structure CfgMap (α : Type) where
  xF7 : α
  xC0 : α
  xC1 : α
  xC5 : α
  xB1 : α
  xB4 : α
  xB6 : α
  xB7 : α
  xBE : α
  xE9 : α
  x3A : α
  xE0 : α
  xE1 : α
deriving DecidableEq, Repr

/-- The same value for every code. -/
def CfgMap.const {α : Type} (a : α) : CfgMap α :=
  { xF7 := a, xC0 := a, xC1 := a, xC5 := a, xB1 := a, xB4 := a, xB6 := a, xB7 := a, xBE := a, xE9 := a, x3A := a,
    xE0 := a, xE1 := a }

/-- The open parameters of 00_scope.md R8. `initData` holds the data bytes of `INIT_TABLE`, whose codes and order are
fixed (44_host_driver.md R186); `spiHz` is read by no rule (30_encoding.md R91). -/
structure Params where
  offsetX   : Nat
  offsetY   : Nat
  memW0     : Nat
  memH0     : Nat
  rot0      : Byte
  rot1      : Byte
  rot23     : Byte
  bgrMask   : Byte
  exchMask  : Byte
  initData  : CfgMap (List Byte)
  pixfmt24  : List Byte
  csActive  : Level
  dcCommand : Level
  spiHz     : Nat
deriving DecidableEq, Repr

/-- The stand-in parameters of `State.reset`. DESIGN CHOICE (log entry 2): the spec suggests offsets, memory extent,
masks and line levels (92_eei_decisions.md D2, D3, D32; 00_scope.md R8) and gives no bytes; the bytes here satisfy
00_scope.md R9 and are otherwise arbitrary. No claim rests on them. -/
def Params.standIn : Params :=
  { offsetX := 0, offsetY := 0, memW0 := 320, memH0 := 480,
    rot0 := 0x08, rot1 := 0x28, rot23 := 0x68, bgrMask := 0x08, exchMask := 0x20,
    initData := CfgMap.const [0x00], pixfmt24 := [0x00],
    csActive := .low, dcCommand := .low, spiHz := 0 }

end Sys2Proof
end

