-- ==== Sys2Proof/Syntax.lean ====
section
/-!
DEFINITION. The instructions: one constructor for each row of spec/opcode_table.json, in the table's order. An
instruction is a command with its data bytes (30_encoding.md R97).
-/

namespace Sys2Proof

/-- A command of the device with its operands, the data bytes that belong to it (00_scope.md R2; 30_encoding.md R97
to R103). -/
inductive Instr where
  /-- 0x11, format F0 (41_power_display.md R140). -/
  | slpout
  /-- 0x29, format F0 (41_power_display.md R141). -/
  | dispon
  /-- 0x2A, format F4: start and end column, both inclusive (42_address_window.md R150). -/
  | caset (startCol endCol : Word16)
  /-- 0x2B, format F4: start and end row, both inclusive (42_address_window.md R151). -/
  | paset (startRow endRow : Word16)
  /-- 0x2C, format FS: the bytes of the pixel stream, R, G, B of each pixel in turn (42_address_window.md R152, R153). -/
  | ramwr (stream : List Byte)
  /-- 0x36, format F1: the new value, taken whole (43_access_control.md R170). -/
  | madctl (m : Byte)
  /-- 0xF7, format FV (40_panel_config.md R121). -/
  | cfgF7 (data : List Byte)
  /-- 0xC0, format FV (40_panel_config.md R122). -/
  | cfgC0 (data : List Byte)
  /-- 0xC1, format FV (40_panel_config.md R123). -/
  | cfgC1 (data : List Byte)
  /-- 0xC5, format FV (40_panel_config.md R124). -/
  | cfgC5 (data : List Byte)
  /-- 0xB1, format FV (40_panel_config.md R125). -/
  | cfgB1 (data : List Byte)
  /-- 0xB4, format FV (40_panel_config.md R126). -/
  | cfgB4 (data : List Byte)
  /-- 0xB6, format FV (40_panel_config.md R127). -/
  | cfgB6 (data : List Byte)
  /-- 0xB7, format FV (40_panel_config.md R128). -/
  | cfgB7 (data : List Byte)
  /-- 0xBE, format FV (40_panel_config.md R129). -/
  | cfgBE (data : List Byte)
  /-- 0xE9, format FV (40_panel_config.md R130). -/
  | cfgE9 (data : List Byte)
  /-- 0x3A, format FV: the interface pixel format (40_panel_config.md R131). -/
  | pixfmt (data : List Byte)
  /-- 0xE0, format FV (40_panel_config.md R132). -/
  | cfgE0 (data : List Byte)
  /-- 0xE1, format FV (40_panel_config.md R133). -/
  | cfgE1 (data : List Byte)
deriving DecidableEq, Repr

end Sys2Proof
end

