-- ==== Sys2Proof/WellFormed.lean ====
section
/-!
DEFINITION. Which instructions have the form 30_encoding.md R97 gives. The types of the operands carry the fixed counts
of formats F0, F1 and F4; format FV takes any number of bytes; format FS takes whole pixels.
-/

namespace Sys2Proof

/-- A stream of whole pixels, "3 per pixel, any number of pixels" (30_encoding.md R97, R100). A stream that stops inside
a pixel is no complete command; its bytes still have their meaning one by one (42_address_window.md R153, R159). -/
def wholePixels (stream : List Byte) : Bool := stream.length % bytesPerPixel == 0

/-- The form of the instruction is one of 30_encoding.md R97. -/
def Instr.wellFormed : Instr → Bool
  | .slpout | .dispon => true
  | .caset _ _ | .paset _ _ => true
  | .ramwr stream => wholePixels stream
  | .madctl _ => true
  | .cfgF7 _ | .cfgC0 _ | .cfgC1 _ | .cfgC5 _ | .cfgB1 _ | .cfgB4 _ | .cfgB6 _ | .cfgB7 _ | .cfgBE _ | .cfgE9 _
  | .pixfmt _ | .cfgE0 _ | .cfgE1 _ => true

end Sys2Proof
end

