-- ==== Sys2Proof/Decode.lean ====
section
/-!
DEFINITION. The encoding of commands (30_encoding.md R97 to R106): byte order, the opcode map, the decoder from the bytes
of one command (code first, then its data bytes) and the encoder back.
-/

namespace Sys2Proof

/-! ## Byte order -/

/-- `hi8(w) = w[15:8]` (00_scope.md R11). -/
def hi8 (w : Word16) : Byte := w.extractLsb' 8 8

/-- `lo8(w) = w[7:0]` (00_scope.md R11). -/
def lo8 (w : Word16) : Byte := w.extractLsb' 0 8

/-- `be16(h, l) = h * 256 + l` (00_scope.md R11). -/
def be16 (h l : Byte) : Word16 := h ++ l

/-- `enc(v)`: high byte first (44_host_driver.md R189). -/
def enc (v : Word16) : List Byte := [hi8 v, lo8 v]

/-- `encpair(a, b) = enc(a) ++ enc(b)` (44_host_driver.md R189; 20_memory.md R63). -/
def encPair (a b : Word16) : List Byte := enc a ++ enc b

/-! ## The opcode map -/

/-- The code of a configuration command (30_encoding.md R103). -/
def CfgCode.code : CfgCode → Byte
  | .xF7 => 0xF7 | .xC0 => 0xC0 | .xC1 => 0xC1 | .xC5 => 0xC5 | .xB1 => 0xB1 | .xB4 => 0xB4 | .xB6 => 0xB6
  | .xB7 => 0xB7 | .xBE => 0xBE | .xE9 => 0xE9 | .x3A => 0x3A | .xE0 => 0xE0 | .xE1 => 0xE1

/-- The thirteen codes in the order of `INIT_TABLE` (44_host_driver.md R186). -/
def CfgCode.all : List CfgCode :=
  [.xF7, .xC0, .xC1, .xC5, .xB1, .xB4, .xB6, .xB7, .xBE, .xE9, .x3A, .xE0, .xE1]

/-- The command code of an opcode (30_encoding.md R103). -/
def Opcode.code : Opcode → Byte
  | .slpout => 0x11
  | .dispon => 0x29
  | .caset => 0x2A
  | .paset => 0x2B
  | .ramwr => 0x2C
  | .madctl => 0x36
  | .cfg k => k.code

/-- The nineteen opcodes (30_encoding.md R103). -/
def Opcode.all : List Opcode :=
  [.slpout, .dispon, .caset, .paset, .ramwr, .madctl] ++ CfgCode.all.map .cfg

/-- The format of a command (30_encoding.md R97). -/
def Opcode.format : Opcode → Format
  | .slpout | .dispon => .f0
  | .madctl => .f1
  | .caset | .paset => .f4
  | .ramwr => .fs
  | .cfg _ => .fv

/-- The number of data bytes the code alone fixes; the open formats need none (30_encoding.md R97, R104). -/
def Format.leastData : Format → Nat
  | .f0 => 0
  | .f1 => 1
  | .f4 => 4
  | .fs => 0
  | .fv => 0

/-- The opcode a command byte selects, by the exact value of all eight bits (30_encoding.md R103, R106). -/
def Opcode.ofByte (b : Byte) : Option Opcode := Opcode.all.find? (fun o => o.code == b)

/-! ## Decoder -/

/-- Why the bytes of a command are no instruction. -/
inductive DecodeError where
  /-- There is no command byte. -/
  | empty
  /-- The first byte is none of the nineteen codes (30_encoding.md R106). -/
  | unknownCode (b : Byte)
  /-- The number of data bytes is not the one the format fixes (30_encoding.md R97). -/
  | wrongCount (op : Opcode) (given : Nat)
  /-- The stream stops inside a pixel (30_encoding.md R97, R100). -/
  | raggedStream (given : Nat)
deriving DecidableEq, Repr

/-- The configuration instruction of a code. -/
def Instr.ofCfg : CfgCode → List Byte → Instr
  | .xF7, d => .cfgF7 d
  | .xC0, d => .cfgC0 d
  | .xC1, d => .cfgC1 d
  | .xC5, d => .cfgC5 d
  | .xB1, d => .cfgB1 d
  | .xB4, d => .cfgB4 d
  | .xB6, d => .cfgB6 d
  | .xB7, d => .cfgB7 d
  | .xBE, d => .cfgBE d
  | .xE9, d => .cfgE9 d
  | .x3A, d => .pixfmt d
  | .xE0, d => .cfgE0 d
  | .xE1, d => .cfgE1 d

/-- The operands of a command from its data bytes, field by field (30_encoding.md R98 to R101). -/
def decodeOperands (op : Opcode) (data : List Byte) : Except DecodeError Instr :=
  match op with
  | .slpout =>
    match data with
    | [] => .ok .slpout
    | _ :: _ => .error (.wrongCount op data.length)
  | .dispon =>
    match data with
    | [] => .ok .dispon
    | _ :: _ => .error (.wrongCount op data.length)
  | .caset =>
    match data with
    | [d1, d2, d3, d4] => .ok (.caset (be16 d1 d2) (be16 d3 d4))
    | _ => .error (.wrongCount op data.length)
  | .paset =>
    match data with
    | [d1, d2, d3, d4] => .ok (.paset (be16 d1 d2) (be16 d3 d4))
    | _ => .error (.wrongCount op data.length)
  | .ramwr => if wholePixels data then .ok (.ramwr data) else .error (.raggedStream data.length)
  | .madctl =>
    match data with
    | [m] => .ok (.madctl m)
    | _ => .error (.wrongCount op data.length)
  | .cfg k => .ok (Instr.ofCfg k data)

/-- The instruction that the bytes of one command spell, the code first, or the reason there is none. -/
def decode : List Byte → Except DecodeError Instr
  | [] => .error .empty
  | b :: data =>
    match Opcode.ofByte b with
    | none => .error (.unknownCode b)
    | some op => decodeOperands op data

/-! ## Encoder -/

/-- The opcode of an instruction. -/
def Instr.opcode : Instr → Opcode
  | .slpout => .slpout
  | .dispon => .dispon
  | .caset _ _ => .caset
  | .paset _ _ => .paset
  | .ramwr _ => .ramwr
  | .madctl _ => .madctl
  | .cfgF7 _ => .cfg .xF7
  | .cfgC0 _ => .cfg .xC0
  | .cfgC1 _ => .cfg .xC1
  | .cfgC5 _ => .cfg .xC5
  | .cfgB1 _ => .cfg .xB1
  | .cfgB4 _ => .cfg .xB4
  | .cfgB6 _ => .cfg .xB6
  | .cfgB7 _ => .cfg .xB7
  | .cfgBE _ => .cfg .xBE
  | .cfgE9 _ => .cfg .xE9
  | .pixfmt _ => .cfg .x3A
  | .cfgE0 _ => .cfg .xE0
  | .cfgE1 _ => .cfg .xE1

/-- The data bytes of an instruction in order of transmission (30_encoding.md R98 to R101). -/
def Instr.data : Instr → List Byte
  | .slpout | .dispon => []
  | .caset s e | .paset s e => encPair s e
  | .ramwr stream => stream
  | .madctl m => [m]
  | .cfgF7 d | .cfgC0 d | .cfgC1 d | .cfgC5 d | .cfgB1 d | .cfgB4 d | .cfgB6 d | .cfgB7 d | .cfgBE d | .cfgE9 d
  | .pixfmt d | .cfgE0 d | .cfgE1 d => d

/-- The bytes of an instruction: its code, then its data bytes (30_encoding.md R97). -/
def encode (i : Instr) : List Byte := i.opcode.code :: i.data

/-! ## The host's numbering of an instruction's bits -/

/-- The first `n` bytes of a number, the least significant first. -/
def wordBytes : Nat → Nat → List Byte
  | 0, _ => []
  | n + 1, w => BitVec.ofNat 8 w :: wordBytes n (w / 256)

/-- The bytes of a table word, filled up with zeros to the length its code fixes. -/
def tableBytes (nbits w : Nat) : List Byte :=
  let given := wordBytes (nbits / 8) w
  match given with
  | [] => []
  | b :: data =>
    match Opcode.ofByte b with
    | none => given
    | some op => given ++ List.replicate (op.format.leastData - data.length) 0

/-- The instruction the decoder reads from a word of the opcode table. -/
def decodeTableWord (nbits w : Nat) : Option Instr :=
  match decode (tableBytes nbits w) with
  | .ok i => some i
  | .error _ => none

end Sys2Proof
end

