-- ==== Sys2Proof/Machine/State.lean ====
section
/-!
DEFINITION. The state of the hardware as plain data (10_state.md): the device's registers, latches, frame memory, timers
and fault register; the host driver's size and its canvases; the events and operations still to come; the reasons a step
can stop; and the state a run starts from.
-/

namespace Sys2Proof.Machine

/-! ## Device -/

/-- How much of the order "columns, then rows, then write" has just been seen (10_state.md R30). -/
inductive WSeq where
  | idle
  | colSet
  | rowSet
deriving DecidableEq, Repr

/-- The reset phase; `resetHeld t` has been low for `t` ms (10_state.md R32). -/
inductive Phase where
  | powerOn
  | resetHeld (t : Nat)
  | ready
deriving DecidableEq, Repr

/-- The four address registers `x[0]` to `x[3]` (10_state.md R21). -/
inductive WinReg where
  | sc
  | ec
  | sp
  | ep
deriving DecidableEq, Repr

/-- What `WindowInvalid` records (42_address_window.md R156). -/
inductive WindowInfo where
  /-- One of the four address registers is `none`. -/
  | unset
  /-- `MADCTL` is `none`. -/
  | noMadctl
  /-- The four registers of an inverted window or one beyond the extent. -/
  | regs (sc ec sp ep : Word16)
deriving DecidableEq, Repr

/-- What the fault register records: the thirteen faults of 60_exceptions.md R231 with their information. They are the
spec's record that a run has left what is documented; the machine goes on (R230, R233, R235). -/
inductive DeviceFault where
  /-- Fault 1: a byte reaches the selected device in phase `PowerOn`. -/
  | notReset
  /-- Fault 2: the reset line is released too early; the ms it was low. -/
  | resetPulseTooShort (t : Nat)
  /-- Fault 3: a byte reaches the selected device inside a quiet time; the remaining ms. -/
  | earlyAccess (remaining : Nat)
  /-- Fault 4: a byte under a line that was never driven. -/
  | lineUndriven (line : Line)
  /-- Fault 5: a command byte that is none of the nineteen codes. -/
  | unknownCommand (b : Byte)
  /-- Fault 6: a command byte before the data bytes of the one before it were complete. -/
  | incompleteParams (op : Opcode) (pidx : Nat)
  /-- Fault 7: more data bytes than the command takes. -/
  | excessParams (op : Opcode)
  /-- Fault 8: a data byte no command asks for. -/
  | unexpectedData (cmd : Option Opcode)
  /-- Fault 9: memory write not directly after complete columns and rows. -/
  | windowSequence (wseq : WSeq)
  /-- Fault 10: memory write while the pixel format is not the 24-bit one. -/
  | pixelFormatUnset
  /-- Fault 11: memory write with no valid window. -/
  | windowInvalid (info : WindowInfo)
  /-- Fault 12: a pixel byte after the last address of the window. -/
  | writeOverrun
  /-- Fault 13: a command byte inside a pixel; the pending bytes. -/
  | partialPixel (n : Nat)
deriving DecidableEq, Repr

/-- Frame memory: the stored pixels by address, addresses strictly rising; an address that is not listed holds `none`,
that is unspecified content (10_state.md R31; 20_memory.md R61; log entry 1). -/
abbrev FrameMem := List (Nat × Pixel)

/-- The device (10_state.md R21 to R35). Registers that hold `none` were not written since reset, as the spec has it;
a line level `none` is the spec's `unspecified`. `cmd` names the code it holds (log entry 7). -/
structure DevState where
  /-- Start column (R21). -/
  sc        : Option Word16
  /-- End column, inclusive (R21). -/
  ec        : Option Word16
  /-- Start row (R21). -/
  sp        : Option Word16
  /-- End row, inclusive (R21). -/
  ep        : Option Word16
  /-- Memory access control (R22). -/
  madctl    : Option Byte
  /-- The thirteen configuration registers, the pixel format among them (R23, R24). -/
  cfg       : CfgMap (Option (List Byte))
  /-- The panel is asleep (R25). -/
  sleep     : Bool
  /-- The display is on (R25). -/
  displayOn : Bool
  /-- Command latch (R26). -/
  cmd       : Option Opcode
  /-- Data bytes since the command was latched (R27). -/
  pidx      : Nat
  /-- Data bytes of a 4-parameter command (R27). -/
  pbuf      : List Byte
  /-- Write pointer, column then row (R28). -/
  wp        : Option (Word16 × Word16)
  /-- Pixel assembler (R29). -/
  pix       : List Byte
  /-- The last address of the window was stored (R29). -/
  wdone     : Bool
  /-- Window-sequence tracker (R30). -/
  wseq      : WSeq
  /-- Frame memory (R31). -/
  fm        : FrameMem
  /-- Reset phase (R32). -/
  phase     : Phase
  /-- Quiet timer in ms (R33). -/
  quiet     : Nat
  /-- Fault register (R34). -/
  fault     : Option DeviceFault
  /-- Chip-select (R35). -/
  csx       : Option Level
  /-- Command/data select (R35). -/
  dcx       : Option Level
  /-- Reset line (R35). -/
  resx      : Option Level
  /-- Backlight line, recorded and read by no rule (R35). -/
  bl        : Option Level
deriving DecidableEq, Repr

/-- The power-on state of the device (70_reset_and_hazards.md R260). -/
def DevState.powerOn : DevState :=
  { sc := none, ec := none, sp := none, ep := none, madctl := none, cfg := CfgMap.const none,
    sleep := true, displayOn := false, cmd := none, pidx := 0, pbuf := [], wp := none, pix := [], wdone := false,
    wseq := .idle, fm := [], phase := .powerOn, quiet := 0, fault := none,
    csx := none, dcx := none, resx := none, bl := none }

/-! ## Events between host and device -/

/-- What passes between host and device, one after the other (00_scope.md R16). -/
inductive Event where
  | cs (l : Level)
  | dc (l : Level)
  | res (l : Level)
  | bl (l : Level)
  | byte (b : Byte)
  | wait (t : Nat)
deriving DecidableEq, Repr

/-! ## Host -/

/-- The host driver's fields (10_state.md R36): current logical width and height. The address offsets are the
parameters of that name. -/
structure HostState where
  w : Option Nat
  h : Option Nat
deriving DecidableEq, Repr

/-- A colour of a caller: straight channels and an alpha, 255 fully opaque (45_host_canvas.md R214). -/
structure Color where
  r : Byte
  g : Byte
  b : Byte
  a : Byte
deriving DecidableEq, Repr

/-- A canvas: its bound rectangle, inclusive, and its buffer (10_state.md R37; 45_host_canvas.md R210). -/
structure Canvas where
  x0  : Nat
  y0  : Nat
  x1  : Nat
  y1  : Nat
  buf : List Byte
deriving DecidableEq, Repr

/-- A picture to draw: its top-left point and its rows of colours, top to bottom, left to right
(45_host_canvas.md R217; log entry 15). -/
structure Image where
  sx0  : Int
  sy0  : Int
  rows : List (List Color)
deriving DecidableEq, Repr

/-- The operations of the host driver and of its canvases (44_host_driver.md R180; 45_host_canvas.md). A canvas is named
by its place in the list of canvases made. The waits above the minimum are arguments (log entry 14). -/
inductive HostOp where
  /-- A raw event on the lines (30_encoding.md R109). -/
  | emit (e : Event)
  /-- R181. -/
  | exchangeData (kind : Kind) (payload : List Byte)
  /-- R182. -/
  | command (b : Byte)
  /-- R183. -/
  | sendData (bytes : List Byte)
  /-- R188. -/
  | writeReg (b : Byte) (bytes : List Byte)
  /-- R185: ms above the two minima. -/
  | hardReset (over1 over2 : Nat)
  /-- R184: construction, which runs `begin`; ms above the three minima. -/
  | construct (over1 over2 over3 : Nat)
  /-- R187: ms above the three minima. -/
  | begin (over1 over2 over3 : Nat)
  /-- R190. -/
  | setWindow (x0 y0 x1 y1 : Nat)
  /-- R191. -/
  | flushBitBuffer (x0 y0 x1 y1 : Nat) (buf : List Byte)
  /-- R194. -/
  | lcdDirection (s : Nat)
  /-- R195. -/
  | clear (r g b : Byte)
  /-- R196. -/
  | size
  /-- R197. -/
  | getFullScreenCanvas
  /-- R198. -/
  | getCanvas (x0 y0 x1 y1 : Nat)
  /-- R212. -/
  | setRGB (c x y : Nat) (r g b : Byte)
  /-- R213. -/
  | getRGB (c x y : Nat)
  /-- R214. -/
  | setColor (c x y : Nat) (col : Color)
  /-- R216. -/
  | getColor (c x y : Nat)
  /-- R217. -/
  | drawImage (c : Nat) (img : Image)
  /-- R218. -/
  | canvasClear (c : Nat)
  /-- R219. -/
  | flush (c : Nat)
  /-- R220. -/
  | flushDirectly (c : Nat) (buf : List Byte)
deriving DecidableEq, Repr

/-- What the last host operation returned (44_host_driver.md R196 to R198; 45_host_canvas.md R213, R216; log entry 11). -/
inductive HostReply where
  | nothing
  | size (w h : Option Nat)
  | rgb (p : Pixel)
  | color (c : Color)
  | canvas (id : Nat)
deriving DecidableEq, Repr

/-! ## How a step can stop -/

/-- A machine-level fault. There is none: "The hardware raises no exception and signals no error"
(60_exceptions.md R230); the faults of R231 are recorded in the device's fault register and the machine goes on
(log entry 6). Safe: a type without a constructor stops nothing. -/
inductive Fault
deriving DecidableEq, Repr

/-- Why a host operation has no meaning for its arguments (00_scope.md R14), or an instruction none yet. -/
inductive Refusal where
  /-- Raised by exec for an instruction that is not modelled yet. Safe. -/
  | notModelled (mnemonic : String)
  /-- Raised by the window operations when an address does not fit 16 bits (44_host_driver.md R189, R190). Safe. -/
  | coordinateOverflow
  /-- Raised by the canvas factories for an inverted rectangle (44_host_driver.md R198). Safe. -/
  | emptyRectangle
  /-- Raised by the pixel accessors for coordinates outside the canvas (45_host_canvas.md R221). Safe. -/
  | canvasOutOfRange
  /-- Raised by a canvas operation on a canvas that was never made (log entry 10). Safe. -/
  | noSuchCanvas
  /-- Raised by the full-screen operations before a size is set (44_host_driver.md R195; log entry 13). Safe. -/
  | sizeUnset
deriving DecidableEq, Repr

/-! ## The whole machine -/

/-- The state of the machine (10_state.md R20) with the parameters it runs under, the events the host has emitted and the
device has not processed, the host operations still to be called, and what the last one returned (log entries 2, 9, 11). -/
structure State where
  params   : Params
  dev      : DevState
  host     : HostState
  canvases : List Canvas
  reply    : HostReply
  bus      : List Event
  ops      : List HostOp
deriving DecidableEq, Repr

/-- The state a run starts from: the device in its power-on state (70_reset_and_hazards.md R260), the host before `begin`
(10_state.md R39), no canvas made, nothing emitted, nothing to do. -/
def State.reset : State :=
  { params := Params.standIn, dev := DevState.powerOn, host := { w := none, h := none }, canvases := [],
    reply := .nothing, bus := [], ops := [] }

/-- `OX = OFFSET_X` (10_state.md R36). -/
def State.ox (s : State) : Nat := s.params.offsetX

/-- `OY = OFFSET_Y` (10_state.md R36). -/
def State.oy (s : State) : Nat := s.params.offsetY

end Sys2Proof.Machine
end

