-- ==== Sys2Proof/Machine/Ops.lean ====
section
/-!
DEFINITION. The named operations over memory, registers, lines and time that every meaning uses, and the fault mechanism:
raising a fault, and the reset that is the only return from one.
-/

namespace Sys2Proof

/-! ## Configuration registers -/

/-- The entry of a code. -/
def CfgMap.get {α : Type} (m : CfgMap α) : CfgCode → α
  | .xF7 => m.xF7 | .xC0 => m.xC0 | .xC1 => m.xC1 | .xC5 => m.xC5 | .xB1 => m.xB1 | .xB4 => m.xB4 | .xB6 => m.xB6
  | .xB7 => m.xB7 | .xBE => m.xBE | .xE9 => m.xE9 | .x3A => m.x3A | .xE0 => m.xE0 | .xE1 => m.xE1

/-- The map with one entry replaced. -/
def CfgMap.set {α : Type} (m : CfgMap α) (k : CfgCode) (a : α) : CfgMap α :=
  match k with
  | .xF7 => { m with xF7 := a }
  | .xC0 => { m with xC0 := a }
  | .xC1 => { m with xC1 := a }
  | .xC5 => { m with xC5 := a }
  | .xB1 => { m with xB1 := a }
  | .xB4 => { m with xB4 := a }
  | .xB6 => { m with xB6 := a }
  | .xB7 => { m with xB7 := a }
  | .xBE => { m with xBE := a }
  | .xE9 => { m with xE9 := a }
  | .x3A => { m with x3A := a }
  | .xE0 => { m with xE0 := a }
  | .xE1 => { m with xE1 := a }

namespace Machine

/-! ## Frame memory -/

/-- The key of a column and row address in the list that holds frame memory: row-major, one key for each pair. -/
def fmKey (c r : Word16) : Nat := r.toNat * 0x10000 + c.toNat

/-- The pixel stored at a key. -/
def FrameMem.find : FrameMem → Nat → Option Pixel
  | [], _ => none
  | (a, p) :: m, k => if a = k then some p else FrameMem.find m k

/-- `MemRead((c, r), 3)`: the pixel stored at an address, `none` where the content is unspecified (00_scope.md R13). -/
def FrameMem.read (m : FrameMem) (c r : Word16) : Option Pixel := m.find (fmKey c r)

/-- The list with a pixel put at a key, keys kept strictly rising. -/
def FrameMem.put : FrameMem → Nat → Pixel → FrameMem
  | [], k, p => [(k, p)]
  | (a, q) :: m, k, p =>
    if a < k then (a, q) :: FrameMem.put m k p
    else if a = k then (k, p) :: m
    else (k, p) :: (a, q) :: m

/-- `MemWrite((c, r), 3, p)`: one whole pixel stored (00_scope.md R13; 20_memory.md R69). -/
def FrameMem.write (m : FrameMem) (c r : Word16) (p : Pixel) : FrameMem := m.put (fmKey c r) p

/-- Every key in the list is above `lo`, and the keys rise strictly. -/
def FrameMem.risingFrom : Nat → FrameMem → Bool
  | _, [] => true
  | lo, (a, _) :: m => decide (lo ≤ a) && FrameMem.risingFrom (a + 1) m

/-- The canonical form: keys strictly rising, each the key of an address pair. A listed address always holds a pixel, so
no entry equals what an unlisted address reads as. -/
def Memory.wf (m : FrameMem) : Bool :=
  FrameMem.risingFrom 0 m && m.all (fun cell => decide (cell.1 < 0x100000000))

/-! ## Address registers -/

/-- `x[i]` (00_scope.md R12). -/
def DevState.x (d : DevState) : WinReg → Option Word16
  | .sc => d.sc
  | .ec => d.ec
  | .sp => d.sp
  | .ep => d.ep

/-- `x[i] <- v` (00_scope.md R12). -/
def DevState.setX (d : DevState) (i : WinReg) (v : Word16) : DevState :=
  match i with
  | .sc => { d with sc := some v }
  | .ec => { d with ec := some v }
  | .sp => { d with sp := some v }
  | .ep => { d with ep := some v }

/-! ## Faults -/

/-- `raise F(info)`: the first fault is kept, nothing else changes (60_exceptions.md R233). -/
def DevState.raise (d : DevState) (f : DeviceFault) : DevState :=
  match d.fault with
  | none => { d with fault := some f }
  | some _ => d

/-- The outcome of processing a byte: all of it, or the fault and nothing else (60_exceptions.md R233). -/
def DevState.settle (d : DevState) : Except DeviceFault DevState → DevState
  | .ok d' => d'
  | .error f => d.raise f

/-- The number of a fault (60_exceptions.md R231). -/
def DeviceFault.code : DeviceFault → Nat
  | .notReset => 1
  | .resetPulseTooShort _ => 2
  | .earlyAccess _ => 3
  | .lineUndriven _ => 4
  | .unknownCommand _ => 5
  | .incompleteParams _ _ => 6
  | .excessParams _ => 7
  | .unexpectedData _ => 8
  | .windowSequence _ => 9
  | .pixelFormatUnset => 10
  | .windowInvalid _ => 11
  | .writeOverrun => 12
  | .partialPixel _ => 13

/-- What `RES(low)` leaves: the reset column of 10_state.md R39 with the count started; chip-select, command/data select
and backlight keep their levels (70_reset_and_hazards.md R261). It clears the fault register (60_exceptions.md R237). -/
def DevState.resetValues (d : DevState) : DevState :=
  { DevState.powerOn with
    phase := .resetHeld 0, resx := some .low, csx := d.csx, dcx := d.dcx, bl := d.bl }

/-- `RES(low)`: no effect when the line is low already (70_reset_and_hazards.md R261). -/
def DevState.resetLow (d : DevState) : DevState :=
  if d.resx = some .low then d else d.resetValues

/-- `RES(high)` (70_reset_and_hazards.md R262). -/
def DevState.resetHigh (d : DevState) : DevState :=
  match d.phase with
  | .resetHeld t =>
    if tResetLow ≤ t then { d with resx := some .high, phase := .ready, quiet := tResetRecover }
    else DevState.raise { d with resx := some .high, phase := .powerOn } (.resetPulseTooShort t)
  | .powerOn => { d with resx := some .high }
  | .ready => { d with resx := some .high }

/-! ## Time and lines -/

/-- The phase after `t` ms (70_reset_and_hazards.md R280). -/
def Phase.elapse (t : Nat) : Phase → Phase
  | .resetHeld u => .resetHeld (u + t)
  | .powerOn => .powerOn
  | .ready => .ready

/-- `WAIT(t)` (70_reset_and_hazards.md R272, R280). -/
def DevState.wait (d : DevState) (t : Nat) : DevState :=
  { d with phase := d.phase.elapse t, quiet := d.quiet - min d.quiet t }

/-- `CS(l)`: only the level (10_state.md R40; 30_encoding.md R96). -/
def DevState.driveCs (d : DevState) (l : Level) : DevState := { d with csx := some l }

/-- `DC(l)`: only the level (10_state.md R40; 30_encoding.md R96). -/
def DevState.driveDc (d : DevState) (l : Level) : DevState := { d with dcx := some l }

/-- `BL(l)`: only the level (60_exceptions.md R241). -/
def DevState.driveBl (d : DevState) (l : Level) : DevState := { d with bl := some l }

end Machine

end Sys2Proof
end

