-- ==== Sys2Proof/Machine/Operands.lean ====
section
/-!
DEFINITION. The operands of the commands as the device assembles them: the parameter latch of the 4-byte commands, the
pixel assembler, and the extent of frame memory that the access-control register selects.
-/

namespace Sys2Proof.Machine

/-! ## Extent of frame memory -/

/-- `EXCH(M) = (M AND EXCH_MASK) != 0` (20_memory.md R62; 10_state.md R22). -/
def exch (p : Params) (m : Byte) : Bool := m &&& p.exchMask != 0

/-- `COLS(M)` (20_memory.md R62). -/
def cols (p : Params) (m : Byte) : Nat := if exch p m then p.memH0 else p.memW0

/-- `ROWS(M)` (20_memory.md R62). -/
def rows (p : Params) (m : Byte) : Nat := if exch p m then p.memW0 else p.memH0

/-! ## Parameter latch -/

/-- A data byte into the latch of a 4-byte command (30_encoding.md R107). -/
def DevState.pushParam (d : DevState) (b : Byte) : DevState :=
  { d with pbuf := d.pbuf ++ [b], pidx := d.pidx + 1 }

/-- Start and end from four latched bytes, high byte first (30_encoding.md R98). -/
def startEnd : List Byte → Option (Word16 × Word16)
  | [d1, d2, d3, d4] => some (be16 d1 d2, be16 d3 d4)
  | _ => none

/-! ## Pixel assembler -/

/-- A pixel from three bytes, red first (30_encoding.md R100; 20_memory.md R64). -/
def pixelOf : List Byte → Option Pixel
  | [r, g, b] => some { r := r, g := g, b := b }
  | _ => none

end Sys2Proof.Machine
end

