-- ==== Sys2Proof/Machine/Flags.lean ====
section
/-!
DEFINITION. The flags and trackers: the window-sequence tracker, the two panel flags' predicate `Visible`, and
`WindowComplete`.
-/

namespace Sys2Proof.Machine

/-- The tracker a command byte leaves: kept by a row-address command right after complete columns, else `Idle`
(30_encoding.md R105 step 3; 42_address_window.md R155). -/
def WSeq.atCommand (op : Opcode) (w : WSeq) : WSeq :=
  match op, w with
  | .paset, .colSet => .colSet
  | _, _ => .idle

/-- The tracker the fourth data byte of a row-address command leaves (42_address_window.md R151). -/
def WSeq.atRows : WSeq → WSeq
  | .colSet => .rowSet
  | .idle => .idle
  | .rowSet => .idle

/-- `Visible(dev)` (41_power_display.md R142). -/
def DevState.visible (d : DevState) : Bool :=
  decide (d.phase = .ready) && d.fault.isNone && !d.sleep && d.displayOn

/-- `WindowComplete(dev)` (42_address_window.md R157). -/
def DevState.windowComplete (d : DevState) : Bool :=
  decide (d.cmd = some .ramwr) && d.wdone && decide (d.pix = [])

end Sys2Proof.Machine
end

