-- ==== Sys2Proof/Machine/Effects.lean ====
section
/-!
DEFINITION. What each command does to the device at its command byte and at each of its data bytes: 40_panel_config.md
R120, 41_power_display.md R140 and R141, 42_address_window.md R150 to R156, 43_access_control.md R170 to R172. The taking
of the byte and the latching of the command are in Device.lean.
-/

namespace Sys2Proof.Machine

/-! ## Panel configuration -/

/-- At the command byte: `CFG[k] <- some []` (40_panel_config.md R120). -/
def cfgAtCommand (k : CfgCode) (d : DevState) : DevState := { d with cfg := d.cfg.set k (some []) }

/-- At each data byte: appended (40_panel_config.md R120). That `CFG[k]` holds `none` here happens in no run; the byte is
then one nobody asked for (log entry 4). -/
def cfgAtData (k : CfgCode) (b : Byte) (d : DevState) : Except DeviceFault DevState :=
  match d.cfg.get k with
  | some old => .ok { d with cfg := d.cfg.set k (some (old ++ [b])), pidx := d.pidx + 1 }
  | none => .error (.unexpectedData (some (.cfg k)))

/-! ## Power and display -/

/-- Sleep out (41_power_display.md R140). -/
def slpoutAtCommand (d : DevState) : DevState := { d with sleep := false, quiet := max d.quiet tSleepOut }

/-- Display on (41_power_display.md R141). -/
def disponAtCommand (d : DevState) : DevState := { d with displayOn := true }

/-! ## Column and row address -/

/-- The fourth data byte of the column-address command (42_address_window.md R150). -/
def loadColumns (d : DevState) : DevState :=
  match startEnd d.pbuf with
  | some (s, e) => { (d.setX .sc s).setX .ec e with wseq := .colSet }
  | none => d

/-- The fourth data byte of the row-address command (42_address_window.md R151). -/
def loadRows (d : DevState) : DevState :=
  match startEnd d.pbuf with
  | some (s, e) => { (d.setX .sp s).setX .ep e with wseq := d.wseq.atRows }
  | none => d

/-- A data byte of a 4-byte command: latched, and at the fourth the registers are loaded; a fifth is one too many
(30_encoding.md R107). -/
def windowAtData (op : Opcode) (load : DevState → DevState) (b : Byte) (d : DevState) : Except DeviceFault DevState :=
  if d.pidx < 4 then
    if d.pidx + 1 = 4 then .ok (load (d.pushParam b)) else .ok (d.pushParam b)
  else .error (.excessParams op)

/-- A data byte after 0x2A (42_address_window.md R150). -/
def casetAtData (b : Byte) (d : DevState) : Except DeviceFault DevState := windowAtData .caset loadColumns b d

/-- A data byte after 0x2B (42_address_window.md R151). -/
def pasetAtData (b : Byte) (d : DevState) : Except DeviceFault DevState := windowAtData .paset loadRows b d

/-! ## Memory write -/

/-- The validity check at 0x2C, in its order (42_address_window.md R156): the fault, or the start of the window. -/
def checkWindow (p : Params) (d : DevState) : Except DeviceFault (Word16 × Word16) :=
  if d.cfg.x3A ≠ some p.pixfmt24 then .error .pixelFormatUnset
  else
    match d.sc, d.ec, d.sp, d.ep with
    | some sc, some ec, some sp, some ep =>
      match d.madctl with
      | none => .error (.windowInvalid .noMadctl)
      | some m =>
        if ec < sc ∨ ep < sp ∨ cols p m ≤ ec.toNat ∨ rows p m ≤ ep.toNat then
          .error (.windowInvalid (.regs sc ec sp ep))
        else .ok (sc, sp)
    | _, _, _, _ => .error (.windowInvalid .unset)

/-- At the command byte: the check, then the write pointer loaded and the stream opened (42_address_window.md R152). -/
def ramwrAtCommand (p : Params) (d : DevState) : Except DeviceFault DevState :=
  match checkWindow p d with
  | .error f => .error f
  | .ok start => .ok { d with wp := some start, pix := [], wdone := false }

/-- The write pointer and stream-done flag after a store at `(c, r)` (42_address_window.md R154). -/
def advance (sc ec ep c r : Word16) : (Word16 × Word16) × Bool :=
  if c < ec then ((c + 1, r), false)
  else if r < ep then ((sc, r + 1), false)
  else ((c, r), true)

/-- The third byte of a pixel: the pixel stored whole, the assembler emptied, the pointer advanced
(42_address_window.md R153, R154), the byte counted (10_state.md R27; log entry 16). That the pointer or a register holds `none` here happens in no run; the registers are
then unset (log entry 4). -/
def storePixel (px : Pixel) (d : DevState) : Except DeviceFault DevState :=
  match d.wp, d.sc, d.ec, d.ep with
  | some (c, r), some sc, some ec, some ep =>
    .ok { d with
      fm := d.fm.write c r px, pix := [], wp := some (advance sc ec ep c r).1, wdone := (advance sc ec ep c r).2,
      pidx := d.pidx + 1 }
  | _, _, _, _ => .error (.windowInvalid .unset)

/-- A data byte of the stream (42_address_window.md R153), counted like every data byte (10_state.md R27; log entry 16). -/
def ramwrAtData (b : Byte) (d : DevState) : Except DeviceFault DevState :=
  if d.wdone then .error .writeOverrun
  else
    match pixelOf (d.pix ++ [b]) with
    | some px => storePixel px d
    | none => .ok { d with pix := d.pix ++ [b], pidx := d.pidx + 1 }

/-! ## Memory access control -/

/-- Frame memory after the access-control register takes the value `m`: forgotten unless it held `m` already
(43_access_control.md R170, R172). -/
def fmAfterMadctl (m : Byte) (d : DevState) : FrameMem := if d.madctl = some m then d.fm else []

/-- A data byte after 0x36 (43_access_control.md R170; 30_encoding.md R107). -/
def madctlAtData (b : Byte) (d : DevState) : Except DeviceFault DevState :=
  if d.pidx = 0 then .ok { d with fm := fmAfterMadctl b d, madctl := some b, pidx := 1 }
  else .error (.excessParams .madctl)

end Sys2Proof.Machine
end

