-- ==== Sys2Proof/Machine/Device.lean ====
section
/-!
DEFINITION. The device: accepting a command byte (30_encoding.md R105), routing a data byte (R107), taking a byte (R95),
and the step of one event (00_scope.md R17).
-/

namespace Sys2Proof.Machine

/-- Step 1 of accepting a command byte: what the command before it left unfinished (30_encoding.md R105). -/
def unfinished (d : DevState) : Option DeviceFault :=
  match d.cmd with
  | none => none
  | some .slpout => none
  | some .dispon => none
  | some .caset => if d.pidx < 4 then some (.incompleteParams .caset d.pidx) else none
  | some .paset => if d.pidx < 4 then some (.incompleteParams .paset d.pidx) else none
  | some .madctl => if d.pidx < 1 then some (.incompleteParams .madctl d.pidx) else none
  | some .ramwr => if d.pix = [] then none else some (.partialPixel d.pix.length)
  | some (.cfg _) => none

/-- The order check of step 3 (30_encoding.md R105; 42_address_window.md R155). -/
def outOfOrder (op : Opcode) (d : DevState) : Option DeviceFault :=
  if op = .ramwr ∧ d.wseq ≠ .rowSet then some (.windowSequence d.wseq) else none

/-- Step 4: the effect at the command byte; 0x2A, 0x2B and 0x36 have none (30_encoding.md R105). -/
def atCommand (p : Params) (op : Opcode) (d : DevState) : Except DeviceFault DevState :=
  match op with
  | .slpout => .ok (slpoutAtCommand d)
  | .dispon => .ok (disponAtCommand d)
  | .caset => .ok d
  | .paset => .ok d
  | .ramwr => ramwrAtCommand p d
  | .madctl => .ok d
  | .cfg k => .ok (cfgAtCommand k d)

/-- Step 5: the command is latched (30_encoding.md R105). -/
def DevState.latch (d : DevState) (op : Opcode) (w : WSeq) : DevState :=
  { d with cmd := some op, pidx := 0, pbuf := [], wseq := w }

/-- Accepting the command byte of a known code: steps 1, 3, 4 and 5 (30_encoding.md R105). -/
def acceptOpcode (p : Params) (op : Opcode) (d : DevState) : Except DeviceFault DevState :=
  match outOfOrder op d with
  | some f => .error f
  | none =>
    match atCommand p op d with
    | .error f => .error f
    | .ok d' => .ok (d'.latch op (d.wseq.atCommand op))

/-- Accepting a command byte, steps 1 to 5 in their order (30_encoding.md R105). -/
def acceptCommand (p : Params) (b : Byte) (d : DevState) : Except DeviceFault DevState :=
  match unfinished d with
  | some f => .error f
  | none =>
    match Opcode.ofByte b with
    | none => .error (.unknownCommand b)
    | some op => acceptOpcode p op d

/-- Routing a data byte by the latched command: the gate (30_encoding.md R107). -/
def routeData (b : Byte) (d : DevState) : Except DeviceFault DevState :=
  match d.cmd with
  | none => .error (.unexpectedData none)
  | some .slpout => .error (.unexpectedData (some .slpout))
  | some .dispon => .error (.unexpectedData (some .dispon))
  | some .caset => casetAtData b d
  | some .paset => pasetAtData b d
  | some .ramwr => ramwrAtData b d
  | some .madctl => madctlAtData b d
  | some (.cfg k) => cfgAtData k b d

/-- What R95 does with a byte. -/
inductive Taking where
  /-- Steps 1, 2 and 4: no effect. -/
  | ignored
  /-- Steps 3, 5, 6 and 7: a fault. -/
  | faults (f : DeviceFault)
  /-- Step 8: a command byte. -/
  | command
  /-- Step 9: a data byte. -/
  | data
deriving DecidableEq, Repr

/-- How the device takes a byte: the first step of 30_encoding.md R95 that applies. -/
def DevState.taking (p : Params) (d : DevState) : Taking :=
  match d.phase with
  | .resetHeld _ => .ignored
  | phase =>
    if d.fault ≠ none then .ignored
    else
      match d.csx with
      | none => .faults (.lineUndriven .csx)
      | some cs =>
        if cs ≠ p.csActive then .ignored
        else
          match d.dcx with
          | none => .faults (.lineUndriven .dcx)
          | some dc =>
            if phase = .powerOn then .faults .notReset
            else if 0 < d.quiet then .faults (.earlyAccess d.quiet)
            else if dc = p.dcCommand then .command
            else .data

/-- `BYTE(b)` (30_encoding.md R95). -/
def DevState.takeByte (p : Params) (d : DevState) (b : Byte) : DevState :=
  match d.taking p with
  | .ignored => d
  | .faults f => d.raise f
  | .command => d.settle (acceptCommand p b d)
  | .data => d.settle (routeData b d)

/-- `DevStep(state, event)` (00_scope.md R17). -/
def devStep (p : Params) (d : DevState) : Event → DevState
  | .cs l => d.driveCs l
  | .dc l => d.driveDc l
  | .res .low => d.resetLow
  | .res .high => d.resetHigh
  | .bl l => d.driveBl l
  | .byte b => d.takeByte p b
  | .wait t => d.wait t

/-- The fold of `DevStep` over a trace (00_scope.md R17). -/
def devRun (p : Params) (d : DevState) (trace : List Event) : DevState := trace.foldl (devStep p) d

end Sys2Proof.Machine
end

