-- ==== Sys2Proof/Machine/Bus.lean ====
section
/-!
DEFINITION. The framing between host and device (30_encoding.md R93, R94, R97): transactions as events, a whole command as
events, and reading a command back from the events the host has emitted.
-/

namespace Sys2Proof.Machine

/-! ## Transactions -/

/-- The select level of a kind of transmission (30_encoding.md R94). -/
def kindLevel (p : Params) : Kind → Level
  | .command => p.dcCommand
  | .data => p.dcCommand.not

/-- One transmission, `ExchangeData(kind, payload)` (30_encoding.md R93; 44_host_driver.md R181). -/
def exchange (p : Params) (kind : Kind) (payload : List Byte) : List Event :=
  .cs p.csActive :: .dc (kindLevel p kind) :: (payload.map .byte ++ [.cs p.csActive.not])

/-- `CMD(b)` (00_scope.md R16; 44_host_driver.md R182). -/
def commandTx (p : Params) (b : Byte) : List Event := exchange p .command [b]

/-- `SendData(bytes)`: nothing for no bytes, else `DAT(bytes)` (44_host_driver.md R183). -/
def dataTx (p : Params) : List Byte → List Event
  | [] => []
  | b :: bs => exchange p .data (b :: bs)

/-- `WriteReg(b, bytes)` (44_host_driver.md R188). -/
def writeReg (p : Params) (b : Byte) (bytes : List Byte) : List Event := commandTx p b ++ dataTx p bytes

/-- The events of an instruction: its command transaction and its data transaction (30_encoding.md R94, R97). -/
def instrEvents (p : Params) (i : Instr) : List Event := writeReg p i.opcode.code i.data

/-! ## Reading a command from the pending events -/

/-- The bytes at the head of the pending events. -/
def takeBytes : List Event → List Byte × List Event
  | .byte b :: es => (b :: (takeBytes es).1, (takeBytes es).2)
  | es => ([], es)

/-- A transmission of one kind, with at least one byte, at the head of the pending events. -/
def takeTx (p : Params) (kind : Kind) : List Event → Option (Byte × List Byte × List Event)
  | .cs a :: .dc l :: .byte b :: es =>
    if a = p.csActive ∧ l = kindLevel p kind then
      match (takeBytes es).2 with
      | .cs i :: rest => if i = p.csActive.not then some (b, (takeBytes es).1, rest) else none
      | _ => none
    else none
  | _ => none

/-- The instruction a command byte spells with the data transaction after it; where that is none, the one it spells
alone (log entry 5). -/
def fetchWith (p : Params) (b : Byte) (rest : List Event) : Option (Instr × List Event) :=
  let alone := match decode [b] with
    | .ok i => some (i, rest)
    | .error _ => none
  match takeTx p .data rest with
  | none => alone
  | some (d, ds, rest') =>
    match decode (b :: d :: ds) with
    | .ok i => some (i, rest')
    | .error _ => alone

/-- The instruction at the head of the pending events: a command transaction, which carries one byte
(30_encoding.md R94), with its data (log entry 5). -/
def fetch (p : Params) (bus : List Event) : Option (Instr × List Event) :=
  match takeTx p .command bus with
  | some (b, [], rest) => fetchWith p b rest
  | _ => none

/-! ## Executing a command -/

/-- The command of an opcode transmitted with its data bytes, each byte taken, accepted or routed as the rules say
(30_encoding.md R94, R95, R105, R107): the shared operation of every meaning. -/
def State.runCommand (s : State) (op : Opcode) (data : List Byte) : State :=
  { s with dev := devRun s.params s.dev (writeReg s.params op.code data) }

end Sys2Proof.Machine
end

