-- ==== Sys2Proof/Machine/AccessControl.lean ====
section
/-!
DEFINITION. The memory-access-control command as an instruction (43_access_control.md).
-/

namespace Sys2Proof.Machine

/-- MADCTL: the new value, taken whole (43_access_control.md R170; 30_encoding.md R99). -/
def execMadctl (m : Byte) (s : State) : Host.Outcome State Fault Refusal := .next (s.runCommand .madctl [m])

end Sys2Proof.Machine
end

