-- ==== Sys2Proof/Machine/AddressWindow.lean ====
section
/-!
DEFINITION. The address-window commands and the pixel stream as instructions (42_address_window.md).
-/

namespace Sys2Proof.Machine

/-- CASET: start and end column, high bytes first (42_address_window.md R150; 20_memory.md R63). -/
def execCaset (startCol endCol : Word16) (s : State) : Host.Outcome State Fault Refusal :=
  .next (s.runCommand .caset (encPair startCol endCol))

/-- PASET: start and end row, high bytes first (42_address_window.md R151; 20_memory.md R63). -/
def execPaset (startRow endRow : Word16) (s : State) : Host.Outcome State Fault Refusal :=
  .next (s.runCommand .paset (encPair startRow endRow))

/-- RAMWR: the command byte and the bytes of the stream (42_address_window.md R152, R153). -/
def execRamwr (stream : List Byte) (s : State) : Host.Outcome State Fault Refusal :=
  .next (s.runCommand .ramwr stream)

end Sys2Proof.Machine
end

