-- ==== Sys2Proof/Machine/PanelConfig.lean ====
section
/-!
DEFINITION. The thirteen panel-configuration commands as instructions (40_panel_config.md): opaque register writes, any
number of data bytes (R120).
-/

namespace Sys2Proof.Machine

/-- CFG_F7, code 0xF7 (40_panel_config.md R121, R120). -/
def execCfgF7 (data : List Byte) (s : State) : Host.Outcome State Fault Refusal :=
  .next (s.runCommand (.cfg .xF7) data)

/-- CFG_C0, code 0xC0 (40_panel_config.md R122, R120). -/
def execCfgC0 (data : List Byte) (s : State) : Host.Outcome State Fault Refusal :=
  .next (s.runCommand (.cfg .xC0) data)

/-- CFG_C1, code 0xC1 (40_panel_config.md R123, R120). -/
def execCfgC1 (data : List Byte) (s : State) : Host.Outcome State Fault Refusal :=
  .next (s.runCommand (.cfg .xC1) data)

/-- CFG_C5, code 0xC5 (40_panel_config.md R124, R120). -/
def execCfgC5 (data : List Byte) (s : State) : Host.Outcome State Fault Refusal :=
  .next (s.runCommand (.cfg .xC5) data)

/-- CFG_B1, code 0xB1 (40_panel_config.md R125, R120). -/
def execCfgB1 (data : List Byte) (s : State) : Host.Outcome State Fault Refusal :=
  .next (s.runCommand (.cfg .xB1) data)

/-- CFG_B4, code 0xB4 (40_panel_config.md R126, R120). -/
def execCfgB4 (data : List Byte) (s : State) : Host.Outcome State Fault Refusal :=
  .next (s.runCommand (.cfg .xB4) data)

/-- CFG_B6, code 0xB6 (40_panel_config.md R127, R120). -/
def execCfgB6 (data : List Byte) (s : State) : Host.Outcome State Fault Refusal :=
  .next (s.runCommand (.cfg .xB6) data)

/-- CFG_B7, code 0xB7 (40_panel_config.md R128, R120). -/
def execCfgB7 (data : List Byte) (s : State) : Host.Outcome State Fault Refusal :=
  .next (s.runCommand (.cfg .xB7) data)

/-- CFG_BE, code 0xBE (40_panel_config.md R129, R120). -/
def execCfgBE (data : List Byte) (s : State) : Host.Outcome State Fault Refusal :=
  .next (s.runCommand (.cfg .xBE) data)

/-- CFG_E9, code 0xE9 (40_panel_config.md R130, R120). -/
def execCfgE9 (data : List Byte) (s : State) : Host.Outcome State Fault Refusal :=
  .next (s.runCommand (.cfg .xE9) data)

/-- PIXFMT, code 0x3A (40_panel_config.md R131, R120). -/
def execPixfmt (data : List Byte) (s : State) : Host.Outcome State Fault Refusal :=
  .next (s.runCommand (.cfg .x3A) data)

/-- CFG_E0, code 0xE0 (40_panel_config.md R132, R120). -/
def execCfgE0 (data : List Byte) (s : State) : Host.Outcome State Fault Refusal :=
  .next (s.runCommand (.cfg .xE0) data)

/-- CFG_E1, code 0xE1 (40_panel_config.md R133, R120). -/
def execCfgE1 (data : List Byte) (s : State) : Host.Outcome State Fault Refusal :=
  .next (s.runCommand (.cfg .xE1) data)

end Sys2Proof.Machine
end

