-- ==== Sys2Proof/Machine/PowerDisplay.lean ====
section
/-!
DEFINITION. The power and display commands as instructions (41_power_display.md).
-/

namespace Sys2Proof.Machine

/-- SLPOUT (41_power_display.md R140). -/
def execSlpout (s : State) : Host.Outcome State Fault Refusal := .next (s.runCommand .slpout [])

/-- DISPON (41_power_display.md R141). -/
def execDispon (s : State) : Host.Outcome State Fault Refusal := .next (s.runCommand .dispon [])

end Sys2Proof.Machine
end

