-- ==== Sys2Proof/Machine/Dispatch.lean ====
section
/-!
DEFINITION. Which meaning each instruction has: one arm for each row of spec/opcode_table.json, in the table's order.
-/

namespace Sys2Proof.Machine

def exec (i : Instr) (s : State) : Host.Outcome State Fault Refusal :=
  match i with
  | .slpout => Sys2Proof.Machine.execSlpout s
  | .dispon => Sys2Proof.Machine.execDispon s
  | .caset startCol endCol => Sys2Proof.Machine.execCaset startCol endCol s
  | .paset startRow endRow => Sys2Proof.Machine.execPaset startRow endRow s
  | .ramwr stream => Sys2Proof.Machine.execRamwr stream s
  | .madctl m => Sys2Proof.Machine.execMadctl m s
  | .cfgF7 data => Sys2Proof.Machine.execCfgF7 data s
  | .cfgC0 data => Sys2Proof.Machine.execCfgC0 data s
  | .cfgC1 data => Sys2Proof.Machine.execCfgC1 data s
  | .cfgC5 data => Sys2Proof.Machine.execCfgC5 data s
  | .cfgB1 data => Sys2Proof.Machine.execCfgB1 data s
  | .cfgB4 data => Sys2Proof.Machine.execCfgB4 data s
  | .cfgB6 data => Sys2Proof.Machine.execCfgB6 data s
  | .cfgB7 data => Sys2Proof.Machine.execCfgB7 data s
  | .cfgBE data => Sys2Proof.Machine.execCfgBE data s
  | .cfgE9 data => Sys2Proof.Machine.execCfgE9 data s
  | .pixfmt data => Sys2Proof.Machine.execPixfmt data s
  | .cfgE0 data => Sys2Proof.Machine.execCfgE0 data s
  | .cfgE1 data => Sys2Proof.Machine.execCfgE1 data s

end Sys2Proof.Machine
end

