-- ==== Sys2Proof/Machine/Canvas.lean ====
section
/-!
DEFINITION. The operations of a canvas on its buffer (45_host_canvas.md R210 to R218, R221).
-/

namespace Sys2Proof.Machine

/-- `cw = x1 - x0 + 1` (45_host_canvas.md R210). -/
def Canvas.cw (c : Canvas) : Nat := c.x1 - c.x0 + 1

/-- `ch = y1 - y0 + 1` (45_host_canvas.md R210). -/
def Canvas.ch (c : Canvas) : Nat := c.y1 - c.y0 + 1

/-- The buffer has one byte for each channel of each pixel, and the rectangle is not inverted (45_host_canvas.md R210;
44_host_driver.md R198). -/
def Canvas.wf (c : Canvas) : Bool :=
  decide (c.x0 ≤ c.x1) && decide (c.y0 ≤ c.y1) && decide (c.buf.length = c.cw * c.ch * bytesPerPixel)

/-- A new canvas, all black (44_host_driver.md R198). -/
def Canvas.new (x0 y0 x1 y1 : Nat) : Canvas :=
  { x0 := x0, y0 := y0, x1 := x1, y1 := y1,
    buf := List.replicate ((x1 - x0 + 1) * (y1 - y0 + 1) * bytesPerPixel) 0 }

/-- The coordinates are inside the canvas (45_host_canvas.md R210, R221). -/
def Canvas.inside (c : Canvas) (x y : Nat) : Bool := decide (x < c.cw) && decide (y < c.ch)

/-- `idx(x, y) = (y * cw + x) * 3` (45_host_canvas.md R211). -/
def Canvas.idx (c : Canvas) (x y : Nat) : Nat := (y * c.cw + x) * bytesPerPixel

/-- `SetRGB` (45_host_canvas.md R212); `none` where it is refused (R221). -/
def Canvas.setRGB (c : Canvas) (x y : Nat) (px : Pixel) : Option Canvas :=
  if c.inside x y then
    some { c with
      buf := ((c.buf.set (c.idx x y) px.r).set (c.idx x y + 1) px.g).set (c.idx x y + 2) px.b }
  else none

/-- `GetRGB` (45_host_canvas.md R213); `none` where it is refused (R221). -/
def Canvas.getRGB (c : Canvas) (x y : Nat) : Option Pixel :=
  if c.inside x y then
    match c.buf[c.idx x y]?, c.buf[c.idx x y + 1]?, c.buf[c.idx x y + 2]? with
    | some r, some g, some b => some { r := r, g := g, b := b }
    | _, _, _ => none
  else none

/-- `blend(f, b, a) = (f * a + b * (255 - a)) div 255`, computed without loss (45_host_canvas.md R215). -/
def blend (f b a : Byte) : Byte := BitVec.ofNat 8 ((f.toNat * a.toNat + b.toNat * (255 - a.toNat)) / 255)

/-- A colour over a background, channel by channel (45_host_canvas.md R214). -/
def Color.over (col : Color) (bg : Pixel) : Pixel :=
  { r := blend col.r bg.r col.a, g := blend col.g bg.g col.a, b := blend col.b bg.b col.a }

/-- `SetColor` (45_host_canvas.md R214); `none` where it is refused (R221). -/
def Canvas.setColor (c : Canvas) (x y : Nat) (col : Color) : Option Canvas :=
  match c.getRGB x y with
  | none => none
  | some bg => c.setRGB x y (col.over bg)

/-- `GetColor`: the pixel, fully opaque (45_host_canvas.md R216); `none` where it is refused (R221). -/
def Canvas.getColor (c : Canvas) (x y : Nat) : Option Color :=
  match c.getRGB x y with
  | none => none
  | some px => some { r := px.r, g := px.g, b := px.b, a := 255 }

/-- One point of a drawn picture: composed if it lies in the canvas, else skipped (45_host_canvas.md R217). -/
def Canvas.drawPoint (c : Canvas) (x y : Int) (col : Color) : Canvas :=
  if 0 ≤ x ∧ x < c.cw ∧ 0 ≤ y ∧ y < c.ch then (c.setColor x.toNat y.toNat col).getD c else c

/-- One row of a drawn picture, from column `x` on. -/
def Canvas.drawRow (c : Canvas) (x y : Int) : List Color → Canvas
  | [] => c
  | col :: cols => Canvas.drawRow (c.drawPoint x y col) (x + 1) y cols

/-- The rows of a drawn picture, from row `y` on. -/
def Canvas.drawRows (c : Canvas) (x y : Int) : List (List Color) → Canvas
  | [] => c
  | row :: rows => Canvas.drawRows (c.drawRow x y row) x (y + 1) rows

/-- `DrawImage` (45_host_canvas.md R217). -/
def Canvas.drawImage (c : Canvas) (img : Image) : Canvas := c.drawRows img.sx0 img.sy0 img.rows

/-- Canvas `Clear`: every byte 0 (45_host_canvas.md R218). -/
def Canvas.clear (c : Canvas) : Canvas := { c with buf := c.buf.map (fun _ => 0) }

end Sys2Proof.Machine
end

