-- ==== Sys2Proof/Machine/Driver.lean ====
section
/-!
DEFINITION. The host driver's operations (44_host_driver.md) and the calls of the canvas operations (45_host_canvas.md):
each a function of the host state and its arguments that gives a new host state and the trace it emits (00_scope.md R17),
or a refusal (R14).
-/

namespace Sys2Proof.Machine

/-! ## Traces -/

/-- `HardReset()`, the waits given as ms above the minima (44_host_driver.md R185). -/
def hardResetTrace (over1 over2 : Nat) : List Event :=
  [.res .low, .wait (tResetLow + over1), .res .high, .wait (tResetRecover + over2)]

/-- The fixed configuration sequence: `INIT_TABLE` by `WriteReg`, in its order (44_host_driver.md R186). -/
def initTrace (p : Params) : List Event := CfgCode.all.flatMap (fun k => writeReg p k.code (p.initData.get k))

/-- The byte `LcdDirection` sends for a selector, reduced modulo 4 (44_host_driver.md R193, R194). -/
def rotByte (p : Params) (s : Nat) : Byte :=
  match s % 4 with
  | 0 => p.rot0
  | 1 => p.rot1
  | _ => p.rot23

/-- The size `LcdDirection` sets for a selector (44_host_driver.md R194). -/
def rotSize (s : Nat) : Nat × Nat := if s % 4 = 0 then (panelW, panelH) else (panelH, panelW)

/-- The trace of `LcdDirection` (44_host_driver.md R194). -/
def lcdDirectionTrace (p : Params) (s : Nat) : List Event := writeReg p Opcode.madctl.code [rotByte p s]

/-- The trace of `begin` (44_host_driver.md R187). -/
def beginTrace (p : Params) (over1 over2 over3 : Nat) : List Event :=
  hardResetTrace over1 over2 ++ initTrace p ++ commandTx p Opcode.slpout.code ++ [.wait (tSleepOut + over3)]
    ++ commandTx p Opcode.dispon.code ++ lcdDirectionTrace p 0

/-- The trace of `SetWindow` on a rectangle whose addresses fit 16 bits; `none` where it is refused
(44_host_driver.md R189, R190). -/
def setWindowTrace (p : Params) (x0 y0 x1 y1 : Nat) : Option (List Event) :=
  if x0 + p.offsetX ≤ 0xFFFF ∧ x1 + p.offsetX ≤ 0xFFFF ∧ y0 + p.offsetY ≤ 0xFFFF ∧ y1 + p.offsetY ≤ 0xFFFF then
    some (writeReg p Opcode.caset.code
        (encPair (BitVec.ofNat 16 (x0 + p.offsetX)) (BitVec.ofNat 16 (x1 + p.offsetX)))
      ++ writeReg p Opcode.paset.code
        (encPair (BitVec.ofNat 16 (y0 + p.offsetY)) (BitVec.ofNat 16 (y1 + p.offsetY)))
      ++ commandTx p Opcode.ramwr.code)
  else none

/-- The trace of `FlushBitBuffer`: the window, then the whole buffer as one data transmission; `none` where it is refused
(44_host_driver.md R191). -/
def flushTrace (p : Params) (x0 y0 x1 y1 : Nat) (buf : List Byte) : Option (List Event) :=
  match setWindowTrace p x0 y0 x1 y1 with
  | none => none
  | some t => some (t ++ dataTx p buf)

/-- `n` pixels of one colour, as bytes (44_host_driver.md R195). -/
def solid : Nat → Pixel → List Byte
  | 0, _ => []
  | n + 1, px => px.r :: px.g :: px.b :: solid n px

/-! ## Operations -/

/-- An operation that emits a trace and returns nothing. -/
def State.emits (s : State) (trace : List Event) : Host.Outcome State Fault Refusal :=
  .next { s with bus := trace, reply := .nothing }

/-- An operation that emits a trace, if its addresses fit 16 bits (44_host_driver.md R190). -/
def State.emitsWindow (s : State) : Option (List Event) → Host.Outcome State Fault Refusal
  | some trace => s.emits trace
  | none => .refused .coordinateOverflow

/-- An operation that only returns a value. -/
def State.returns (s : State) (r : HostReply) : Host.Outcome State Fault Refusal := .next { s with reply := r }

/-- `begin` and construction: the size set for orientation 0, the boot trace emitted (44_host_driver.md R184, R187). -/
def State.boots (s : State) (over1 over2 over3 : Nat) : Host.Outcome State Fault Refusal :=
  State.emits { s with host := { w := some panelW, h := some panelH } } (beginTrace s.params over1 over2 over3)

/-- `GetCanvas` (44_host_driver.md R198). -/
def State.makesCanvas (s : State) (x0 y0 x1 y1 : Nat) : Host.Outcome State Fault Refusal :=
  if x0 ≤ x1 ∧ y0 ≤ y1 then
    .next { s with canvases := s.canvases ++ [Canvas.new x0 y0 x1 y1], reply := .canvas s.canvases.length }
  else .refused .emptyRectangle

/-- The current size, where it is set and not empty (44_host_driver.md R195, R197; log entries 4, 13). -/
def State.fullSize (s : State) : Option (Nat × Nat) :=
  match s.host.w, s.host.h with
  | some w, some h => if 0 < w ∧ 0 < h then some (w, h) else none
  | _, _ => none

/-- An operation that replaces a canvas, or is refused for coordinates outside it (45_host_canvas.md R221). -/
def State.changesCanvas (s : State) (k : Nat) (f : Canvas → Option Canvas) : Host.Outcome State Fault Refusal :=
  match s.canvases[k]? with
  | none => .refused .noSuchCanvas
  | some c =>
    match f c with
    | none => .refused .canvasOutOfRange
    | some c' => .next { s with canvases := s.canvases.set k c', reply := .nothing }

/-- An operation that returns a value from a canvas, or is refused for coordinates outside it (45_host_canvas.md R221). -/
def State.readsCanvas (s : State) (k : Nat) (f : Canvas → Option HostReply) : Host.Outcome State Fault Refusal :=
  match s.canvases[k]? with
  | none => .refused .noSuchCanvas
  | some c =>
    match f c with
    | none => .refused .canvasOutOfRange
    | some r => s.returns r

/-- `FlushBitBuffer` over the bound rectangle of a canvas (45_host_canvas.md R219, R220). -/
def State.flushesCanvas (s : State) (k : Nat) (payload : Canvas → List Byte) : Host.Outcome State Fault Refusal :=
  match s.canvases[k]? with
  | none => .refused .noSuchCanvas
  | some c => s.emitsWindow (flushTrace s.params c.x0 c.y0 c.x1 c.y1 (payload c))

/-- Driver `Clear` (44_host_driver.md R195). -/
def State.clears (s : State) (px : Pixel) : Host.Outcome State Fault Refusal :=
  match s.fullSize with
  | none => .refused .sizeUnset
  | some (w, h) => s.emitsWindow (flushTrace s.params 0 0 (w - 1) (h - 1) (solid (w * h) px))

/-- `GetFullScreenCanvas` (44_host_driver.md R197). -/
def State.makesFullScreen (s : State) : Host.Outcome State Fault Refusal :=
  match s.fullSize with
  | none => .refused .sizeUnset
  | some (w, h) => s.makesCanvas 0 0 (w - 1) (h - 1)

/-- `LcdDirection` (44_host_driver.md R194). -/
def State.turns (s : State) (sel : Nat) : Host.Outcome State Fault Refusal :=
  State.emits { s with host := { w := some (rotSize sel).1, h := some (rotSize sel).2 } }
    (lcdDirectionTrace s.params sel)

/-- One host operation. Its trace becomes the pending events, which are empty when an operation is called: every
transmission is complete before the operation returns (20_memory.md R74). -/
def perform (op : HostOp) (s : State) : Host.Outcome State Fault Refusal :=
  match op with
  | .emit e => s.emits [e]
  | .exchangeData kind payload => s.emits (exchange s.params kind payload)
  | .command b => s.emits (commandTx s.params b)
  | .sendData bytes => s.emits (dataTx s.params bytes)
  | .writeReg b bytes => s.emits (writeReg s.params b bytes)
  | .hardReset over1 over2 => s.emits (hardResetTrace over1 over2)
  | .construct over1 over2 over3 => s.boots over1 over2 over3
  | .begin over1 over2 over3 => s.boots over1 over2 over3
  | .setWindow x0 y0 x1 y1 => s.emitsWindow (setWindowTrace s.params x0 y0 x1 y1)
  | .flushBitBuffer x0 y0 x1 y1 buf => s.emitsWindow (flushTrace s.params x0 y0 x1 y1 buf)
  | .lcdDirection sel => s.turns sel
  | .clear r g b => s.clears { r := r, g := g, b := b }
  | .size => s.returns (.size s.host.w s.host.h)
  | .getFullScreenCanvas => s.makesFullScreen
  | .getCanvas x0 y0 x1 y1 => s.makesCanvas x0 y0 x1 y1
  | .setRGB k x y r g b => s.changesCanvas k (fun c => c.setRGB x y { r := r, g := g, b := b })
  | .getRGB k x y => s.readsCanvas k (fun c => (c.getRGB x y).map .rgb)
  | .setColor k x y col => s.changesCanvas k (fun c => c.setColor x y col)
  | .getColor k x y => s.readsCanvas k (fun c => (c.getColor x y).map .color)
  | .drawImage k img => s.changesCanvas k (fun c => some (c.drawImage img))
  | .canvasClear k => s.changesCanvas k (fun c => some c.clear)
  | .flush k => s.flushesCanvas k Canvas.buf
  | .flushDirectly k buf => s.flushesCanvas k (fun _ => buf)

end Sys2Proof.Machine
end

