-- ==== Sys2Proof/Machine/Step.lean ====
section
/-!
DEFINITION. One step of the machine: the next instruction or event the host has emitted, or else the next host operation.
-/

namespace Sys2Proof.Machine

/-- One step. While events are pending, a whole command at their head is executed as one instruction, and any other event
is given to the device (log entry 5); when none is pending the next host operation is called; when there is none of
these, nothing happens, since the device has no step of its own (00_scope.md R3; 60_exceptions.md R236). -/
def step (s : State) : Host.Outcome State Fault Refusal :=
  match s.bus with
  | e :: es =>
    match fetch s.params (e :: es) with
    | some (i, rest) => exec i { s with bus := rest }
    | none => .next { s with dev := devStep s.params s.dev e, bus := es }
  | [] =>
    match s.ops with
    | op :: ops => perform op { s with ops := ops }
    | [] => .next s

/-- The events that carry the bytes of a word of the opcode table, the first as a command, the rest as its data. -/
def wordEvents (p : Params) : List Byte → List Event
  | [] => []
  | b :: data => writeReg p b data

/-- The state with an instruction word as the pending events and the device ready to take bytes: phase `Ready`, no quiet
time, no fault (30_encoding.md R95 steps 1, 2, 6, 7; log entry 9). -/
def State.withFetchWord (s : State) (nbits w : Nat) : State :=
  { s with
    dev := { s.dev with phase := .ready, quiet := 0, fault := none }
    bus := wordEvents s.params (tableBytes nbits w) }

end Sys2Proof.Machine
end

