-- ==== Sys2Proof/Safety.lean ====
section
/-!
DEFINITION. What claims are stated in: when a run has gone wrong (60_exceptions.md R236), when the device accepts a
command, when the parameters are consistent (00_scope.md R9), and the invariants of the device, the host and the canvases.
-/

namespace Sys2Proof.Machine

/-! ## Runs -/

/-- The run has not gone wrong on the device: no fault is recorded (60_exceptions.md R235, R236). -/
def State.safe (s : State) : Bool := s.dev.fault.isNone

/-- The device can be sent a byte: reset done, no fault, no quiet time owed (30_encoding.md R95). -/
abbrev DevState.receptive (d : DevState) : Prop := d.phase = .ready ∧ d.fault = none ∧ d.quiet = 0

/-- The device can be sent a command byte and the command before it is complete (30_encoding.md R95, R105 step 1). -/
abbrev DevState.accepting (d : DevState) : Prop := d.receptive ∧ unfinished d = none

/-- The lines after a whole command was transmitted with these data bytes: chip-select released, the select line at the
level of the last transaction (30_encoding.md R93, R94). -/
def DevState.afterFrame (d : DevState) (p : Params) (data : List Byte) : DevState :=
  { d with csx := some p.csActive.not, dcx := some (if data = [] then p.dcCommand else p.dcCommand.not) }

/-! ## The window -/

/-- The number of pixels of a window, both bounds inclusive (20_memory.md R80). -/
def windowPixels (sc ec sp ep : Word16) : Nat := (ec.toNat - sc.toNat + 1) * (ep.toNat - sp.toNat + 1)

/-- The address of the k-th pixel of a window, row-major from its top-left corner (20_memory.md R80). -/
def windowAddr (sc ec sp : Word16) (k : Nat) : Word16 × Word16 :=
  (sc + BitVec.ofNat 16 (k % (ec.toNat - sc.toNat + 1)), sp + BitVec.ofNat 16 (k / (ec.toNat - sc.toNat + 1)))

/-- The device holds a valid window (42_address_window.md R156): the pixel format is the 24-bit one, the four registers and
the access-control register are set, the window is not inverted and lies inside the extent. -/
abbrev DevState.validWindow (d : DevState) (p : Params) (sc ec sp ep : Word16) (m : Byte) : Prop :=
  d.cfg.x3A = some p.pixfmt24 ∧ d.sc = some sc ∧ d.ec = some ec ∧ d.sp = some sp ∧ d.ep = some ep ∧
    d.madctl = some m ∧ sc ≤ ec ∧ sp ≤ ep ∧ ec.toNat < cols p m ∧ ep.toNat < rows p m

/-! ## Parameters -/

/-- A choice of parameters is consistent (00_scope.md R9). -/
def paramsConsistent (p : Params) : Bool :=
  decide (p.rot0 &&& p.bgrMask = p.bgrMask) && decide (p.rot1 &&& p.bgrMask = p.bgrMask)
    && decide (p.rot23 &&& p.bgrMask = p.bgrMask)
    && decide (p.offsetX + panelW ≤ cols p p.rot0) && decide (p.offsetY + panelH ≤ rows p p.rot0)
    && decide (p.offsetX + panelH ≤ cols p p.rot1) && decide (p.offsetY + panelW ≤ rows p p.rot1)
    && decide (p.offsetX + panelH ≤ cols p p.rot23) && decide (p.offsetY + panelW ≤ rows p p.rot23)
    && decide (p.offsetX + 479 ≤ 0xFFFF) && decide (p.offsetY + 479 ≤ 0xFFFF)
    && decide (p.initData.x3A = p.pixfmt24)

/-! ## Invariants -/

/-- Every stored pixel lies inside the extent the access-control register selects (20_memory.md R61, R62), and nothing is
stored while that register is unset. -/
def DevState.fmInExtent (p : Params) (d : DevState) : Prop :=
  ∀ c r : Word16, d.fm.read c r ≠ none → ∃ m, d.madctl = some m ∧ c.toNat < cols p m ∧ r.toNat < rows p m

/-- What holds while the stream is open (10_state.md R28, R29; 42_address_window.md R153, R154): the window is valid, the
write pointer is inside it, and a done stream has its pointer at the last address and no byte pending. -/
def DevState.streamOk (p : Params) (d : DevState) : Prop :=
  d.cmd = some .ramwr →
    ∃ sc ec sp ep m c r, d.sc = some sc ∧ d.ec = some ec ∧ d.sp = some sp ∧ d.ep = some ep ∧ d.madctl = some m ∧
      d.wp = some (c, r) ∧ sc ≤ c ∧ c ≤ ec ∧ sp ≤ r ∧ r ≤ ep ∧ ec.toNat < cols p m ∧ ep.toNat < rows p m ∧
      (d.wdone = true → c = ec ∧ r = ep ∧ d.pix = [])

/-- What the window-sequence tracker records (10_state.md R30; 42_address_window.md R155). -/
def DevState.seqOk (d : DevState) : Prop :=
  (d.wseq = .colSet → (d.cmd = some .caset ∧ d.pidx = 4 ∨ d.cmd = some .paset ∧ d.pidx < 4) ∧ d.sc ≠ none ∧ d.ec ≠ none) ∧
  (d.wseq = .rowSet → d.cmd = some .paset ∧ d.pidx = 4 ∧ d.sc ≠ none ∧ d.ec ≠ none ∧ d.sp ≠ none ∧ d.ep ≠ none)

/-- What the latches hold (10_state.md R23, R27, R29): as many latched parameters as the index says, at most four; at most
two pending pixel bytes; a latched configuration command has its register. -/
def DevState.latchOk (d : DevState) : Prop :=
  d.pbuf.length ≤ 4 ∧ d.pix.length ≤ 2 ∧
  (d.cmd = some .caset ∨ d.cmd = some .paset → d.pbuf.length = d.pidx) ∧
  (d.cmd = some .madctl → d.pidx = 1 → d.madctl ≠ none) ∧
  (∀ k, d.cmd = some (.cfg k) → ∃ bytes, d.cfg.get k = some bytes ∧ bytes.length = d.pidx)

/-- What the parameter index counts (10_state.md R27; 20_memory.md R67): nothing after a command without data, at most one
byte of access control, and in a stream the bytes of whole pixels and those pending (log entry 16). -/
def DevState.countOk (d : DevState) : Prop :=
  (d.cmd = none ∨ d.cmd = some .slpout ∨ d.cmd = some .dispon → d.pidx = 0) ∧ (d.cmd = some .madctl → d.pidx ≤ 1) ∧
  (d.cmd = some .ramwr → d.pidx % 3 = d.pix.length)

/-- The reset line, the phase and the timer agree (70_reset_and_hazards.md R261, R262, R272): the line is low exactly while
the phase says so, a device held in reset has the reset values, and only a device that was reset owes quiet time or has a
command latched. -/
def DevState.resetOk (d : DevState) : Prop :=
  (d.resx = some .low ↔ ∃ t, d.phase = .resetHeld t) ∧
  (∀ t, d.phase = .resetHeld t → d = { d.resetValues with phase := .resetHeld t }) ∧
  (d.phase ≠ .ready → d.quiet = 0 ∧ d.cmd = none) ∧ d.quiet ≤ tSleepOut

/-- The invariant of the device. -/
def DevState.ok (p : Params) (d : DevState) : Prop :=
  Memory.wf d.fm = true ∧ d.fmInExtent p ∧ d.streamOk p ∧ d.seqOk ∧ d.latchOk ∧ d.countOk ∧ d.resetOk

/-- The size the host holds: unset, or the one of an orientation (10_state.md R36). -/
def HostState.ok (h : HostState) : Prop :=
  (h.w = none ∧ h.h = none) ∨ (h.w = some panelW ∧ h.h = some panelH) ∨ (h.w = some panelH ∧ h.h = some panelW)

/-- Every canvas has a rectangle and a buffer of its size (10_state.md R37; 45_host_canvas.md R210). -/
def State.canvasesOk (s : State) : Prop := ∀ c ∈ s.canvases, c.wf = true

end Sys2Proof.Machine
end

