-- ==== Sys2Proof/Certificates/Slice0/Obligations.lean ====
section
/-!
DEFINITION. The statements about the machine, from the numbered rules of the spec. Each docstring names the rules. D<n> is
the entry of 92_eei_decisions.md a rule names: there the statement rests on the spec's own decision, not on its source;
"derived" marks a rule that the spec itself derives from others.
-/

open Sys2Proof Sys2Proof.Machine

/-! ## Reset -/

/-- The state a run of the device starts from (70_reset_and_hazards.md R260; D9, D10). That a run of the model starts there
is log entry 12. -/
def Obligations.ResetIsPowerOnState : Prop :=
  let d := State.reset.dev
  d.phase = .powerOn ∧ d.fault = none ∧ d.quiet = 0 ∧ (∀ i, d.x i = none) ∧ d.madctl = none ∧
    (∀ k, d.cfg.get k = none) ∧ d.wp = none ∧ (∀ c r, d.fm.read c r = none) ∧ d.sleep = true ∧ d.displayOn = false ∧
    d.cmd = none ∧ d.pidx = 0 ∧ d.pbuf = [] ∧ d.pix = [] ∧ d.wdone = false ∧ d.wseq = .idle ∧
    d.csx = none ∧ d.dcx = none ∧ d.resx = none ∧ d.bl = none

/-- The invariants hold in the state a run starts from; its parameters are consistent (00_scope.md R9) by the model's choice
of stand-in parameters (log entry 2). What the invariants say is read from 10_state.md and 20_memory.md. -/
def Obligations.ResetMeetsInvariants : Prop :=
  State.reset.dev.ok State.reset.params ∧ State.reset.host.ok ∧ State.reset.canvasesOk ∧
    paramsConsistent State.reset.params = true

/-! ## Encoding -/

/-- Nineteen words, one of each command, written out from the encodings of 30_encoding.md R98 to R103, decode to what they
stand for (R101: D16). -/
def Obligations.WordsDecodeAsListed : Prop :=
  decode [0x11] = .ok .slpout ∧ decode [0x29] = .ok .dispon ∧
    decode [0x2A, 0x00, 0x0A, 0x01, 0x3F] = .ok (.caset 0x000A 0x013F) ∧
    decode [0x2B, 0x00, 0x14, 0x01, 0xDF] = .ok (.paset 0x0014 0x01DF) ∧
    decode [0x2C, 0xFF, 0x00, 0x80] = .ok (.ramwr [0xFF, 0x00, 0x80]) ∧ decode [0x36, 0x28] = .ok (.madctl 0x28) ∧
    decode [0x3A, 0x66] = .ok (.pixfmt [0x66]) ∧ decode [0xB1, 0x01] = .ok (.cfgB1 [0x01]) ∧
    decode [0xB4, 0x02] = .ok (.cfgB4 [0x02]) ∧ decode [0xB6, 0x03] = .ok (.cfgB6 [0x03]) ∧
    decode [0xB7, 0x04] = .ok (.cfgB7 [0x04]) ∧ decode [0xBE, 0x05] = .ok (.cfgBE [0x05]) ∧
    decode [0xC0, 0x06] = .ok (.cfgC0 [0x06]) ∧ decode [0xC1] = .ok (.cfgC1 []) ∧
    decode [0xC5, 0x01, 0x02, 0x03] = .ok (.cfgC5 [0x01, 0x02, 0x03]) ∧ decode [0xE0, 0x07] = .ok (.cfgE0 [0x07]) ∧
    decode [0xE1, 0x08] = .ok (.cfgE1 [0x08]) ∧ decode [0xE9, 0x09] = .ok (.cfgE9 [0x09]) ∧
    decode [0xF7, 0x0A, 0x0B] = .ok (.cfgF7 [0x0A, 0x0B])

/-- The operand fields: start and end of a window, unsigned, high byte first, of both codes, and the whole of the
access-control byte (30_encoding.md R98, R99). -/
def Obligations.OperandFields : Prop :=
  ∀ d1 d2 d3 d4 m : Byte,
    (∃ s e : Word16, s.toNat = d1.toNat * 256 + d2.toNat ∧ e.toNat = d3.toNat * 256 + d4.toNat ∧
      decode [0x2A, d1, d2, d3, d4] = .ok (.caset s e) ∧ decode [0x2B, d1, d2, d3, d4] = .ok (.paset s e)) ∧
    decode [0x36, m] = .ok (.madctl m)

/-- No bit of an encoding is dropped: the bytes of every well-formed instruction decode to it (30_encoding.md section 3). -/
def Obligations.DecodeOfEncode : Prop :=
  ∀ i : Instr, i.wellFormed = true → decode (encode i) = .ok i

/-- What decodes is the encoding of a well-formed instruction: no two spellings (30_encoding.md R103). -/
def Obligations.EncodeOfDecode : Prop :=
  ∀ (bytes : List Byte) (i : Instr), decode bytes = .ok i → encode i = bytes ∧ i.wellFormed = true

/-- Nineteen of the 256 codes are defined, by the exact value of all eight bits, and which command each one names
(20_memory.md R70; 30_encoding.md R103). -/
def Obligations.NineteenCodes : Prop :=
  ∀ (b : Byte) (op : Opcode), Opcode.ofByte b = some op ↔
    (b, op) ∈ ([(0x11, .slpout), (0x29, .dispon), (0x2A, .caset), (0x2B, .paset), (0x2C, .ramwr), (0x36, .madctl),
      (0x3A, .cfg .x3A), (0xB1, .cfg .xB1), (0xB4, .cfg .xB4), (0xB6, .cfg .xB6), (0xB7, .cfg .xB7), (0xBE, .cfg .xBE),
      (0xC0, .cfg .xC0), (0xC1, .cfg .xC1), (0xC5, .cfg .xC5), (0xE0, .cfg .xE0), (0xE1, .cfg .xE1), (0xE9, .cfg .xE9),
      (0xF7, .cfg .xF7)] : List (Byte × Opcode))

/-- Coordinates travel most significant byte first (20_memory.md R63). -/
def Obligations.CoordinatesHighByteFirst : Prop :=
  ∀ s e : Word16, (Instr.caset s e).data = [hi8 s, lo8 s, hi8 e, lo8 e] ∧
    (Instr.paset s e).data = [hi8 s, lo8 s, hi8 e, lo8 e] ∧
    (hi8 s).toNat = s.toNat / 256 ∧ (lo8 s).toNat = s.toNat % 256

/-! ## Taking, accepting and routing a byte -/

/-- How the device takes a byte: the first of the nine steps of 30_encoding.md R95 that applies. "steps 1 to 7 are the
spec's" (R95; D5, D6, D10, D11). -/
def Obligations.ByteTaking : Prop :=
  ∀ (p : Params) (d : DevState) (b : Byte),
    ((∃ t, d.phase = .resetHeld t) → devStep p d (.byte b) = d) ∧
    ((¬∃ t, d.phase = .resetHeld t) →
      (d.fault ≠ none → devStep p d (.byte b) = d) ∧
      (d.fault = none →
        (d.csx = none → devStep p d (.byte b) = { d with fault := some (.lineUndriven .csx) }) ∧
        (d.csx = some p.csActive.not → devStep p d (.byte b) = d) ∧
        (d.csx = some p.csActive →
          (d.dcx = none → devStep p d (.byte b) = { d with fault := some (.lineUndriven .dcx) }) ∧
          (∀ l, d.dcx = some l →
            (d.phase = .powerOn → devStep p d (.byte b) = { d with fault := some .notReset }) ∧
            (d.phase = .ready →
              (0 < d.quiet → devStep p d (.byte b) = { d with fault := some (.earlyAccess d.quiet) }) ∧
              (d.quiet = 0 →
                (l = p.dcCommand → devStep p d (.byte b) = d.settle (acceptCommand p b d)) ∧
                (l ≠ p.dcCommand → devStep p d (.byte b) = d.settle (routeData b d))))))))

/-- Accepting a command byte (30_encoding.md R105): an unfinished command before it, an unknown code and a memory write out
of order fault in this order; else the effect at the command byte happens and the command is latched. "steps 1 and 2 are the
spec's" (R105; D13, D14, D18, D22). -/
def Obligations.CommandAcceptance : Prop :=
  ∀ (p : Params) (d : DevState) (b : Byte),
    (d.cmd = some .caset → d.pidx < 4 → acceptCommand p b d = .error (.incompleteParams .caset d.pidx)) ∧
    (d.cmd = some .paset → d.pidx < 4 → acceptCommand p b d = .error (.incompleteParams .paset d.pidx)) ∧
    (d.cmd = some .madctl → d.pidx < 1 → acceptCommand p b d = .error (.incompleteParams .madctl d.pidx)) ∧
    (d.cmd = some .ramwr → d.pix ≠ [] → acceptCommand p b d = .error (.partialPixel d.pix.length)) ∧
    ((d.cmd = some .caset ∨ d.cmd = some .paset → 4 ≤ d.pidx) → (d.cmd = some .madctl → 1 ≤ d.pidx) →
      (d.cmd = some .ramwr → d.pix = []) →
      ((∀ op : Opcode, op.code ≠ b) → acceptCommand p b d = .error (.unknownCommand b)) ∧
      (b = 0x2C → d.wseq ≠ .rowSet → acceptCommand p b d = .error (.windowSequence d.wseq)) ∧
      (b = 0x2C → d.wseq = .rowSet →
        (∀ f, checkWindow p d = .error f → acceptCommand p b d = .error f) ∧
        (∀ start, checkWindow p d = .ok start → acceptCommand p b d =
          .ok { d with wp := some start, pix := [], wdone := false, cmd := some .ramwr, pidx := 0, pbuf := [],
                       wseq := .idle })) ∧
      (b = 0x11 → acceptCommand p b d =
        .ok { d with sleep := false, quiet := max d.quiet 120, cmd := some .slpout, pidx := 0, pbuf := [],
                     wseq := .idle }) ∧
      (b = 0x29 → acceptCommand p b d =
        .ok { d with displayOn := true, cmd := some .dispon, pidx := 0, pbuf := [], wseq := .idle }) ∧
      (b = 0x2A → acceptCommand p b d = .ok { d with cmd := some .caset, pidx := 0, pbuf := [], wseq := .idle }) ∧
      (b = 0x2B → acceptCommand p b d =
        .ok { d with cmd := some .paset, pidx := 0, pbuf := [],
                     wseq := if d.wseq = .colSet then .colSet else .idle }) ∧
      (b = 0x36 → acceptCommand p b d = .ok { d with cmd := some .madctl, pidx := 0, pbuf := [], wseq := .idle }) ∧
      (∀ k : CfgCode, b = k.code → acceptCommand p b d =
        .ok { d with cfg := d.cfg.set k (some []), cmd := some (.cfg k), pidx := 0, pbuf := [], wseq := .idle }))

/-- Routing a data byte by the latched command, the gate of the block (30_encoding.md R107; the stream by
42_address_window.md R153; D14, D15, D16, D21). That a byte of the stream is counted is the model's reading of 10_state.md
R27 against R153 (log entry 16, DEDUCED). The latches agree with the index as `latchOk` says, an invariant stated on its own.
-/
def Obligations.DataRouting : Prop :=
  ∀ (d : DevState) (b : Byte), d.latchOk →
    (d.cmd = none → routeData b d = .error (.unexpectedData none)) ∧
    (d.cmd = some .slpout ∨ d.cmd = some .dispon → routeData b d = .error (.unexpectedData d.cmd)) ∧
    (∀ op, d.cmd = some op → op = .caset ∨ op = .paset →
      (d.pidx < 3 → routeData b d = .ok { d with pbuf := d.pbuf ++ [b], pidx := d.pidx + 1 }) ∧
      (4 ≤ d.pidx → routeData b d = .error (.excessParams op))) ∧
    (∀ d1 d2 d3, d.pidx = 3 → d.pbuf = [d1, d2, d3] →
      (d.cmd = some .caset → routeData b d =
        .ok { d with pbuf := [d1, d2, d3, b], pidx := 4, sc := some (be16 d1 d2), ec := some (be16 d3 b),
                     wseq := .colSet }) ∧
      (d.cmd = some .paset → routeData b d =
        .ok { d with pbuf := [d1, d2, d3, b], pidx := 4, sp := some (be16 d1 d2), ep := some (be16 d3 b),
                     wseq := if d.wseq = .colSet then .rowSet else .idle })) ∧
    (d.cmd = some .madctl →
      (d.pidx = 0 → routeData b d =
        .ok { d with fm := if d.madctl = some b then d.fm else [], madctl := some b, pidx := 1 }) ∧
      (d.pidx ≠ 0 → routeData b d = .error (.excessParams .madctl))) ∧
    (d.cmd = some .ramwr →
      (d.wdone = true → routeData b d = .error .writeOverrun) ∧
      (d.wdone = false → d.pix.length < 2 → routeData b d = .ok { d with pix := d.pix ++ [b], pidx := d.pidx + 1 }) ∧
      (∀ r g c w sc ec ep, d.wdone = false → d.pix = [r, g] → d.wp = some (c, w) → d.sc = some sc → d.ec = some ec →
        d.ep = some ep → routeData b d =
          .ok { d with fm := d.fm.write c w { r := r, g := g, b := b }, pix := [],
                       wp := some (advance sc ec ep c w).1, wdone := (advance sc ec ep c w).2,
                       pidx := d.pidx + 1 })) ∧
    (∀ k, d.cmd = some (.cfg k) → ∃ old, d.cfg.get k = some old ∧
      routeData b d = .ok { d with cfg := d.cfg.set k (some (old ++ [b])), pidx := d.pidx + 1 })

/-- A faulting byte writes the fault register of an unfaulted device and changes nothing else (60_exceptions.md R233; D28).
-/
def Obligations.FaultingByteChangesNothingElse : Prop :=
  ∀ (p : Params) (d : DevState) (b : Byte), (devStep p d (.byte b)).fault ≠ d.fault →
    d.fault = none ∧ ∃ f, devStep p d (.byte b) = { d with fault := some f }

/-- A faulted device: bytes have no effect, lines and timers still run, and until the reset line goes low no run changes the
fault, the registers, the latches or frame memory (60_exceptions.md R235; 10_state.md R34; D28). -/
def Obligations.FaultedDeviceFrozen : Prop :=
  ∀ (p : Params) (d : DevState) (trace : List Event), d.fault ≠ none → Event.res .low ∉ trace →
    devRun p d trace = { d with
      csx := (devRun p d trace).csx, dcx := (devRun p d trace).dcx, resx := (devRun p d trace).resx,
      bl := (devRun p d trace).bl, phase := (devRun p d trace).phase, quiet := (devRun p d trace).quiet }

/-- Data reaches frame memory only while memory write is latched; the one other byte that changes it is the data byte of
memory access control, which forgets it (30_encoding.md R107; 43_access_control.md R172; D14, D24). -/
def Obligations.FrameMemoryGate : Prop :=
  ∀ (p : Params) (d : DevState) (b : Byte), (devStep p d (.byte b)).fm ≠ d.fm →
    d.dcx = some p.dcCommand.not ∧
      (d.cmd = some .ramwr ∨ (d.cmd = some .madctl ∧ (devStep p d (.byte b)).fm = [] ∧ d.madctl ≠ some b))

/-! ## Lines, reset and time -/

/-- Line events set the level of their line and nothing else (30_encoding.md R96, derived; 60_exceptions.md R241, D33). -/
def Obligations.LineEventsSetLevels : Prop :=
  ∀ (p : Params) (d : DevState) (l : Level), devStep p d (.cs l) = { d with csx := some l } ∧
    devStep p d (.dc l) = { d with dcx := some l } ∧ devStep p d (.bl l) = { d with bl := some l }

/-- The reset line going low (70_reset_and_hazards.md R261; D12): every field but three line levels takes its reset value; no
effect when the line is low already; bytes have no effect while it is held. -/
def Obligations.ResetLineLow : Prop :=
  ∀ (p : Params) (d : DevState),
    (d.resx ≠ some .low → devStep p d (.res .low) =
      { sc := none, ec := none, sp := none, ep := none, madctl := none, cfg := CfgMap.const none, sleep := true,
        displayOn := false, cmd := none, pidx := 0, pbuf := [], wp := none, pix := [], wdone := false, wseq := .idle,
        fm := [], phase := .resetHeld 0, quiet := 0, fault := none, csx := d.csx, dcx := d.dcx, resx := some .low,
        bl := d.bl }) ∧
    (d.resx = some .low → devStep p d (.res .low) = d) ∧
    (∀ t b, d.phase = .resetHeld t → devStep p d (.byte b) = d)

/-- The reset line going high (70_reset_and_hazards.md R262; D11): a long enough pulse makes the device ready with the
recovery time owed, a shorter one sets the phase back and records the fault (log entry 18), keeping an earlier one (R233); in
any other phase only the level is set. -/
def Obligations.ResetLineHigh : Prop :=
  ∀ (p : Params) (d : DevState),
    (∀ t, d.phase = .resetHeld t → 100 ≤ t →
      devStep p d (.res .high) = { d with resx := some .high, phase := .ready, quiet := 50 }) ∧
    (∀ t, d.phase = .resetHeld t → t < 100 →
      devStep p d (.res .high) =
        { d with resx := some .high, phase := .powerOn, fault := some (d.fault.getD (.resetPulseTooShort t)) }) ∧
    ((¬∃ t, d.phase = .resetHeld t) → devStep p d (.res .high) = { d with resx := some .high })

/-- The passing of time (70_reset_and_hazards.md R280; D11, D35). -/
def Obligations.WaitRunsTimers : Prop :=
  ∀ (p : Params) (d : DevState) (t : Nat),
    (∀ u, d.phase = .resetHeld u →
      devStep p d (.wait t) = { d with phase := .resetHeld (u + t), quiet := d.quiet - min d.quiet t }) ∧
    ((¬∃ u, d.phase = .resetHeld u) → devStep p d (.wait t) = { d with quiet := d.quiet - min d.quiet t })

/-- Only the reset line puts the panel to sleep or turns the display off again (10_state.md R25; 60_exceptions.md R243). -/
def Obligations.OnlyResetSleepsOrBlanks : Prop :=
  ∀ (p : Params) (d : DevState) (e : Event), e ≠ .res .low →
    (d.sleep = false → (devStep p d e).sleep = false) ∧ (d.displayOn = true → (devStep p d e).displayOn = true)

/-- `Visible` (41_power_display.md R142; D27). -/
def Obligations.VisibleMeaning : Prop :=
  ∀ d : DevState, d.visible = true ↔ d.phase = .ready ∧ d.fault = none ∧ d.sleep = false ∧ d.displayOn = true

/-! ## Results of the instructions, with their frames and their completion -/

/-- SLPOUT on an accepting device (41_power_display.md R140; D11, D27): the whole next state. -/
def Obligations.SlpoutResult : Prop :=
  ∀ s : State, s.dev.accepting → exec .slpout s = .next { s with
    dev := { s.dev.afterFrame s.params [] with
      sleep := false, quiet := 120, cmd := some .slpout, pidx := 0, pbuf := [], wseq := .idle } }

/-- DISPON on an accepting device (41_power_display.md R141; D27): the whole next state. -/
def Obligations.DisponResult : Prop :=
  ∀ s : State, s.dev.accepting → exec .dispon s = .next { s with
    dev := { s.dev.afterFrame s.params [] with
      displayOn := true, cmd := some .dispon, pidx := 0, pbuf := [], wseq := .idle } }

/-- CASET on an accepting device (42_address_window.md R150; D14, D18): the whole next state, frame memory and the row
registers among what stays. -/
def Obligations.CasetResult : Prop :=
  ∀ (s : State) (a b : Word16), s.dev.accepting → exec (.caset a b) s = .next { s with
    dev := { s.dev.afterFrame s.params (encPair a b) with
      sc := some a, ec := some b, cmd := some .caset, pidx := 4, pbuf := encPair a b, wseq := .colSet } }

/-- PASET on an accepting device (42_address_window.md R151; D14, D18): the whole next state. -/
def Obligations.PasetResult : Prop :=
  ∀ (s : State) (a b : Word16), s.dev.accepting → exec (.paset a b) s = .next { s with
    dev := { s.dev.afterFrame s.params (encPair a b) with
      sp := some a, ep := some b, cmd := some .paset, pidx := 4, pbuf := encPair a b,
      wseq := if s.dev.wseq = .colSet then .rowSet else .idle } }

/-- MADCTL on an accepting device (43_access_control.md R170, R172; D14, D24): the whole next state; frame memory is
forgotten unless the register held the value already. -/
def Obligations.MadctlResult : Prop :=
  ∀ (s : State) (m : Byte), s.dev.accepting → exec (.madctl m) s = .next { s with
    dev := { s.dev.afterFrame s.params [m] with
      madctl := some m, fm := if s.dev.madctl = some m then s.dev.fm else [], cmd := some .madctl, pidx := 1,
      pbuf := [], wseq := .idle } }

/-- The thirteen configuration instructions CFG_F7, CFG_C0, CFG_C1, CFG_C5, CFG_B1, CFG_B4, CFG_B6, CFG_B7, CFG_BE, CFG_E9,
PIXFMT, CFG_E0, CFG_E1 on an accepting device (40_panel_config.md R120 to R133; D16): the register holds the data bytes, none
of the bytes is read, the whole next state. -/
def Obligations.ConfigResult : Prop :=
  ∀ (s : State) (bytes : List Byte), s.dev.accepting →
    ∀ ik ∈ ([(.cfgF7 bytes, .xF7), (.cfgC0 bytes, .xC0), (.cfgC1 bytes, .xC1), (.cfgC5 bytes, .xC5),
      (.cfgB1 bytes, .xB1), (.cfgB4 bytes, .xB4), (.cfgB6 bytes, .xB6), (.cfgB7 bytes, .xB7), (.cfgBE bytes, .xBE),
      (.cfgE9 bytes, .xE9), (.pixfmt bytes, .x3A), (.cfgE0 bytes, .xE0), (.cfgE1 bytes, .xE1)] :
        List (Instr × CfgCode)),
    exec ik.1 s = .next { s with
      dev := { s.dev.afterFrame s.params bytes with
        cfg := s.dev.cfg.set ik.2 (some bytes), cmd := some (.cfg ik.2), pidx := bytes.length, pbuf := [],
        wseq := .idle } }

/-- RAMWR with no data on an accepting device with a valid window after columns and rows (42_address_window.md R152; D18,
D20): the write pointer at the top-left corner, nothing stored; the whole next state. -/
def Obligations.RamwrOpensStream : Prop :=
  ∀ (s : State) (sc ec sp ep : Word16) (m : Byte), s.dev.accepting → s.dev.wseq = .rowSet →
    s.dev.validWindow s.params sc ec sp ep m → exec (.ramwr []) s = .next { s with
      dev := { s.dev.afterFrame s.params [] with
        wp := some (sc, sp), pix := [], wdone := false, cmd := some .ramwr, pidx := 0, pbuf := [], wseq := .idle } }

/-- RAMWR with a stream that fits the window (20_memory.md R80, derived; 42_address_window.md R153 to R159; D21, D23): the
k-th whole pixel is stored at the k-th address of the window, row-major; every other address reads as before; the bytes of an
unfinished pixel are pending; the stream is done exactly when the window is full; nothing else changes. That the index counts
the bytes of the stream is the model's reading of 10_state.md R27 against R153 (log entry 16, DEDUCED). -/
def Obligations.RamwrStoresStream : Prop :=
  ∀ (s : State) (stream : List Byte) (sc ec sp ep : Word16) (m : Byte), s.dev.accepting → s.dev.wseq = .rowSet →
    s.dev.validWindow s.params sc ec sp ep m → stream.length ≤ windowPixels sc ec sp ep * 3 →
    ∃ t, exec (.ramwr stream) s = .next { s with dev := t } ∧
      t = { s.dev.afterFrame s.params stream with
        cmd := some .ramwr, pidx := stream.length, pbuf := [], wseq := .idle, fm := t.fm, wp := t.wp,
        pix := stream.drop (stream.length / 3 * 3), wdone := decide (stream.length = windowPixels sc ec sp ep * 3) } ∧
      t.wp = some (if stream.length = windowPixels sc ec sp ep * 3 then (ec, ep)
        else windowAddr sc ec sp (stream.length / 3)) ∧
      (∀ k r g b, k < stream.length / 3 → stream[3 * k]? = some r → stream[3 * k + 1]? = some g →
        stream[3 * k + 2]? = some b →
        t.fm.read (windowAddr sc ec sp k).1 (windowAddr sc ec sp k).2 = some { r := r, g := g, b := b }) ∧
      (∀ c w, (∀ k, k < stream.length / 3 → windowAddr sc ec sp k ≠ (c, w)) → t.fm.read c w = s.dev.fm.read c w)

/-- RAMWR with more bytes than the window takes (42_address_window.md R153, D21; R159, derived): the window is stored as by
the bytes that fit, and the first surplus byte is the fault; nothing wraps. -/
def Obligations.RamwrOverrun : Prop :=
  ∀ (s : State) (fits surplus : List Byte) (sc ec sp ep : Word16) (m : Byte) (t : DevState), s.dev.accepting →
    s.dev.wseq = .rowSet → s.dev.validWindow s.params sc ec sp ep m →
    fits.length = windowPixels sc ec sp ep * 3 → surplus ≠ [] → exec (.ramwr fits) s = .next { s with dev := t } →
    exec (.ramwr (fits ++ surplus)) s = .next { s with dev := { t with fault := some .writeOverrun } }

/-- The validity check of RAMWR, in its order (42_address_window.md R156; 30_encoding.md R105 step 3; D17, D18, D19): out of
order, pixel format, unset register, no access control, bad window. The fault is recorded and, beside the lines, nothing
changes, whatever stream follows. -/
def Obligations.RamwrRefusesBadWindow : Prop :=
  ∀ (s : State) (stream : List Byte), s.dev.accepting →
    let faults := fun f => exec (.ramwr stream) s =
      .next { s with dev := { s.dev.afterFrame s.params stream with fault := some f } }
    (s.dev.wseq ≠ .rowSet → faults (.windowSequence s.dev.wseq)) ∧
    (s.dev.wseq = .rowSet →
      (s.dev.cfg.x3A ≠ some s.params.pixfmt24 → faults .pixelFormatUnset) ∧
      (s.dev.cfg.x3A = some s.params.pixfmt24 →
        (s.dev.sc = none ∨ s.dev.ec = none ∨ s.dev.sp = none ∨ s.dev.ep = none → faults (.windowInvalid .unset)) ∧
        (∀ sc ec sp ep, s.dev.sc = some sc → s.dev.ec = some ec → s.dev.sp = some sp → s.dev.ep = some ep →
          (s.dev.madctl = none → faults (.windowInvalid .noMadctl)) ∧
          (∀ m, s.dev.madctl = some m →
            ec < sc ∨ ep < sp ∨ cols s.params m ≤ ec.toNat ∨ rows s.params m ≤ ep.toNat →
            faults (.windowInvalid (.regs sc ec sp ep))))))

/-- Any instruction on a device that takes no command (30_encoding.md R95 steps 1, 2, 6, 7; D10, D11): held in reset or
faulted, only the lines change; before a reset `NotReset` is recorded, inside a quiet time `EarlyAccess`. -/
def Obligations.UntakenInstruction : Prop :=
  ∀ (i : Instr) (s : State),
    ((∃ t, s.dev.phase = .resetHeld t) ∨ s.dev.fault ≠ none →
      exec i s = .next { s with dev := s.dev.afterFrame s.params i.data }) ∧
    (s.dev.fault = none → s.dev.phase = .powerOn → exec i s =
      .next { s with dev := { s.dev.afterFrame s.params i.data with fault := some .notReset } }) ∧
    (s.dev.fault = none → s.dev.phase = .ready → 0 < s.dev.quiet → exec i s =
      .next { s with dev := { s.dev.afterFrame s.params i.data with fault := some (.earlyAccess s.dev.quiet) } })

/-- Any instruction while the command before it is unfinished (30_encoding.md R105 step 1; D14, D22): the fault is recorded
and, beside the lines, nothing changes. -/
def Obligations.InterruptedCommand : Prop :=
  ∀ (i : Instr) (s : State), s.dev.receptive →
    let faults := fun f => exec i s = .next { s with
      dev := { s.dev.afterFrame s.params i.data with fault := some f } }
    (∀ op, s.dev.cmd = some op → op = .caset ∨ op = .paset → s.dev.pidx < 4 →
      faults (.incompleteParams op s.dev.pidx)) ∧
    (s.dev.cmd = some .madctl → s.dev.pidx = 0 → faults (.incompleteParams .madctl 0)) ∧
    (s.dev.cmd = some .ramwr → s.dev.pix ≠ [] → faults (.partialPixel s.dev.pix.length))

/-- The frame of every instruction in every state, faulting or not: each register, flag, timer and address of frame memory is
written only by the instructions 10_state.md R40 (derived) names; the phase, the reset and backlight lines and everything of
the host are written by none. -/
def Obligations.InstructionFrame : Prop :=
  ∀ (i : Instr) (s t : State), exec i s = .next t →
    (i.opcode ≠ .caset → t.dev.sc = s.dev.sc ∧ t.dev.ec = s.dev.ec) ∧
    (i.opcode ≠ .paset → t.dev.sp = s.dev.sp ∧ t.dev.ep = s.dev.ep) ∧
    (i.opcode ≠ .madctl → t.dev.madctl = s.dev.madctl) ∧
    (∀ k, i.opcode ≠ .cfg k → t.dev.cfg.get k = s.dev.cfg.get k) ∧
    (i.opcode ≠ .slpout → t.dev.sleep = s.dev.sleep ∧ t.dev.quiet = s.dev.quiet) ∧
    (i.opcode ≠ .dispon → t.dev.displayOn = s.dev.displayOn) ∧
    (i.opcode ≠ .ramwr → t.dev.wp = s.dev.wp ∧ t.dev.pix = s.dev.pix ∧ t.dev.wdone = s.dev.wdone) ∧
    (i.opcode ≠ .ramwr → i.opcode ≠ .madctl → ∀ c r, t.dev.fm.read c r = s.dev.fm.read c r) ∧
    t.dev.phase = s.dev.phase ∧ t.dev.resx = s.dev.resx ∧ t.dev.bl = s.dev.bl ∧ t = { s with dev := t.dev }

/-! ## Streams and sequences -/

/-- A data transmission split in two has the result of one (42_address_window.md R158, D23; 30_encoding.md R96, derived), in
every state and for every command. -/
def Obligations.DataMayBeSplit : Prop :=
  ∀ (p : Params) (d : DevState) (xs ys : List Byte), xs ≠ [] → ys ≠ [] →
    devRun p d (dataTx p xs ++ dataTx p ys) = devRun p d (dataTx p (xs ++ ys))

/-- The advance of the write pointer (42_address_window.md R154; D21), on numbers: no addition overflows, the pointer stays
in the window. -/
def Obligations.WritePointerAdvance : Prop :=
  ∀ sc ec sp ep c r : Word16, sc ≤ c → c ≤ ec → sp ≤ r → r ≤ ep →
    (c < ec → advance sc ec ep c r = ((c + 1, r), false) ∧ (c + 1).toNat = c.toNat + 1) ∧
    (c = ec → r < ep → advance sc ec ep c r = ((sc, r + 1), false) ∧ (r + 1).toNat = r.toNat + 1) ∧
    (c = ec → r = ep → advance sc ec ep c r = ((ec, ep), true))

/-- The mandated order (42_address_window.md R155, D18; V19 to V21, V23): on an accepting device rows before columns, or any
instruction between the rows and the write, keeps the write out: it records `WindowSequence`, but for sleep out, whose quiet
time comes first (D11). Columns, rows, write with a valid window records nothing and starts the stream at the corner; a
second write after the whole pixels of a stream records `WindowSequence`. -/
def Obligations.WindowOrderEnforced : Prop :=
  ∀ (p : Params) (d : DevState) (sc ec sp ep : Word16), d.accepting →
    let between := fun (i : Instr) => (devRun p d (instrEvents p (.caset sc ec) ++ instrEvents p (.paset sp ep) ++
      instrEvents p i ++ instrEvents p (.ramwr []))).fault
    (devRun p d (instrEvents p (.paset sp ep) ++ instrEvents p (.caset sc ec) ++ instrEvents p (.ramwr []))).fault =
      some (.windowSequence .colSet) ∧
    (∀ i : Instr, i.opcode ≠ .slpout → i.opcode ≠ .caset → i.opcode ≠ .ramwr →
      between i = some (.windowSequence .idle)) ∧
    (∀ a b, between (.caset a b) = some (.windowSequence .colSet)) ∧
    between .slpout = some (.earlyAccess 120) ∧
    (∀ m, d.madctl = some m → d.cfg.x3A = some p.pixfmt24 → sc ≤ ec → sp ≤ ep → ec.toNat < cols p m →
      ep.toNat < rows p m →
      let t := devRun p d (instrEvents p (.caset sc ec) ++ instrEvents p (.paset sp ep) ++ instrEvents p (.ramwr []))
      t.fault = none ∧ t.cmd = some .ramwr ∧ t.wp = some (sc, sp) ∧ t.wseq = .idle ∧
      ∀ stream : List Byte, stream.length ≤ windowPixels sc ec sp ep * 3 → stream.length % 3 = 0 →
        between (.ramwr stream) = some (.windowSequence .idle))

/-- After sleep out every instruction sent before 120 ms of waiting records `EarlyAccess` with what is still owed, and
display on sent after them is carried out (70_reset_and_hazards.md R272, R273; D11). -/
def Obligations.SleepOutQuietTime : Prop :=
  ∀ (p : Params) (d : DevState), d.accepting →
    (∀ t i, t < 120 → (devRun p d (instrEvents p .slpout ++ [.wait t] ++ instrEvents p i)).fault =
      some (.earlyAccess (120 - t))) ∧
    (∀ t, 120 ≤ t → (devRun p d (instrEvents p .slpout ++ [.wait t] ++ instrEvents p .dispon)).visible = true)

/-- The trace of `begin` leaves the panel ready (70_reset_and_hazards.md R265, derived), from every state of the device in
which the reset line and the phase agree, whatever the waits above the minima and whatever the parameters: the whole state.
-/
def Obligations.BeginLeavesReadyPanel : Prop :=
  ∀ (p : Params) (d : DevState) (o1 o2 o3 : Nat), d.resetOk →
    devRun p d (beginTrace p o1 o2 o3) =
      { sc := none, ec := none, sp := none, ep := none, madctl := some p.rot0,
        cfg := { xF7 := some p.initData.xF7, xC0 := some p.initData.xC0, xC1 := some p.initData.xC1,
                 xC5 := some p.initData.xC5, xB1 := some p.initData.xB1, xB4 := some p.initData.xB4,
                 xB6 := some p.initData.xB6, xB7 := some p.initData.xB7, xBE := some p.initData.xBE,
                 xE9 := some p.initData.xE9, x3A := some p.initData.x3A, xE0 := some p.initData.xE0,
                 xE1 := some p.initData.xE1 },
        sleep := false, displayOn := true, cmd := some .madctl, pidx := 1, pbuf := [], wp := none, pix := [],
        wdone := false, wseq := .idle, fm := [], phase := .ready, quiet := 0, fault := none,
        csx := some p.csActive.not, dcx := some p.dcCommand.not, resx := some .high, bl := d.bl }

/-- The flush correspondence (20_memory.md R81, derived): on an accepting device with access control and pixel format set up,
the trace of `FlushBitBuffer` for a rectangle inside the extent and a buffer of its size leaves frame memory equal to the
buffer over the window and every other address as it was, the stream complete, no fault. -/
def Obligations.FlushStoresBuffer : Prop :=
  ∀ (p : Params) (d : DevState) (x0 y0 x1 y1 : Nat) (buf : List Byte) (m : Byte), d.accepting → d.madctl = some m →
    d.cfg.x3A = some p.pixfmt24 → x0 ≤ x1 → y0 ≤ y1 → x1 + p.offsetX ≤ 0xFFFF → y1 + p.offsetY ≤ 0xFFFF →
    x1 + p.offsetX < cols p m → y1 + p.offsetY < rows p m →
    buf.length = (x1 - x0 + 1) * (y1 - y0 + 1) * 3 →
    ∃ trace, flushTrace p x0 y0 x1 y1 buf = some trace ∧
      let t := devRun p d trace
      t.fault = none ∧ t.wdone = true ∧ t.pix = [] ∧ t.windowComplete = true ∧ t.madctl = some m ∧
      (∀ i j r g b, i < x1 - x0 + 1 → j < y1 - y0 + 1 → buf[(j * (x1 - x0 + 1) + i) * 3]? = some r →
        buf[(j * (x1 - x0 + 1) + i) * 3 + 1]? = some g → buf[(j * (x1 - x0 + 1) + i) * 3 + 2]? = some b →
        t.fm.read (BitVec.ofNat 16 (x0 + p.offsetX + i)) (BitVec.ofNat 16 (y0 + p.offsetY + j)) =
          some { r := r, g := g, b := b }) ∧
      (∀ c r : Word16, c.toNat < x0 + p.offsetX ∨ x1 + p.offsetX < c.toNat ∨ r.toNat < y0 + p.offsetY ∨
        y1 + p.offsetY < r.toNat → t.fm.read c r = d.fm.read c r)

/-! ## The machine -/

/-- A step runs the decoded instruction: the bytes of a command transaction and of the data transaction after it, where they
decode, else of the command transaction alone, where it decodes; any other pending event is given to the device. How a
command and its data are taken together is the model's choice (log entry 5); what they do is that of the events one by one.
-/
def Obligations.StepRunsDecodedInstruction : Prop :=
  ∀ (s : State) (b : Byte) (i : Instr) (rest : List Event),
    (∀ data, data ≠ [] → s.bus = commandTx s.params b ++ dataTx s.params data ++ rest → decode (b :: data) = .ok i →
      i.wellFormed = true ∧ step s = exec i { s with bus := rest }) ∧
    (s.bus = commandTx s.params b ++ rest → takeTx s.params .data rest = none → decode [b] = .ok i →
      i.wellFormed = true ∧ step s = exec i { s with bus := rest }) ∧
    (∀ data, data ≠ [] → s.bus = commandTx s.params b ++ dataTx s.params data ++ rest →
      (∀ j, decode (b :: data) ≠ .ok j) → decode [b] = .ok i →
      i.wellFormed = true ∧ step s = exec i { s with bus := dataTx s.params data ++ rest }) ∧
    (∀ e, s.bus = e :: rest → fetch s.params s.bus = none →
      step s = .next { s with bus := rest, dev := devStep s.params s.dev e })

/-- Steps are the spec's device: running the machine processes the pending events, in at most as many steps as there are
events, to exactly the fold of `DevStep` over them, and changes nothing else (00_scope.md R17, D36; 20_memory.md R74; log
entry 5). -/
def Obligations.StepsFoldDevStep : Prop :=
  ∀ s : State, ∃ n, n ≤ s.bus.length ∧
    core.run n s = .next { s with bus := [], dev := devRun s.params s.dev s.bus }

/-- Nothing happens when nothing is to be done: the device has no step of its own (00_scope.md R3). -/
def Obligations.IdleMachineStays : Prop :=
  ∀ s : State, s.bus = [] → s.ops = [] → step s = .next s

/-- Frame memory keeps its canonical form, the model's own (log entry 1), through every step. -/
def Obligations.StepKeepsMemoryForm : Prop :=
  ∀ s t : State, Memory.wf s.dev.fm = true → step s = .next t → Memory.wf t.dev.fm = true

/-- Every step keeps the invariant of the device: stored pixels inside the extent, an open stream inside a valid window, the
tracker, the latches, the reset phase and the timer as the spec says (10_state.md R27 to R33; 20_memory.md R61), and
the count of data bytes, which in a stream is the model's reading of R27 (log entry 16, DEDUCED). -/
def Obligations.StepKeepsDeviceInvariant : Prop :=
  ∀ s t : State, s.dev.ok s.params → step s = .next t → t.dev.ok t.params

/-- Every step keeps the parameters, the host's size one of an orientation and every canvas of its size (10_state.md R36,
R37). -/
def Obligations.StepKeepsHostInvariant : Prop :=
  ∀ s t : State, s.host.ok → s.canvasesOk → step s = .next t → t.host.ok ∧ t.canvasesOk ∧ t.params = s.params

/-! ## Host driver -/

/-- The framing of one transmission, the command call, and a register write: a command call, then a data call
(44_host_driver.md R181, R182, R188). -/
def Obligations.TransmissionFraming : Prop :=
  ∀ (s : State) (payload : List Byte) (b : Byte),
    perform (.exchangeData .command payload) s = .next { s with
      bus := [.cs s.params.csActive, .dc s.params.dcCommand] ++ payload.map .byte ++ [.cs s.params.csActive.not],
      reply := .nothing } ∧
    perform (.exchangeData .data payload) s = .next { s with
      bus := [.cs s.params.csActive, .dc s.params.dcCommand.not] ++ payload.map .byte ++ [.cs s.params.csActive.not],
      reply := .nothing } ∧
    perform (.command b) s = perform (.exchangeData .command [b]) s ∧
    (∀ s1 s2, perform (.command b) s = .next s1 → perform (.sendData payload) s = .next s2 →
      perform (.writeReg b payload) s = .next { s with bus := s1.bus ++ s2.bus, reply := .nothing })

/-- The data call: no bytes, no transaction (44_host_driver.md R183; the empty list is the spec's reading, D30). -/
def Obligations.SendDataFraming : Prop :=
  ∀ (s : State) (payload : List Byte), perform (.sendData payload) s =
    if payload = [] then .next { s with bus := [], reply := .nothing } else perform (.exchangeData .data payload) s

/-- The hardware reset the host emits: low, at least 100 ms, high, at least 50 ms (44_host_driver.md R185). -/
def Obligations.HardResetEmits : Prop :=
  ∀ (s : State) (t1 t2 : Nat), 100 ≤ t1 → 50 ≤ t2 → perform (.hardReset (t1 - 100) (t2 - 50)) s =
    .next { s with bus := [.res .low, .wait t1, .res .high, .wait t2], reply := .nothing }

/-- The boot sequence the host emits (44_host_driver.md R185 to R187): reset pulse with its waits, the thirteen configuration
commands in order (the order is the spec's decision D30), sleep out and its wait, display on, orientation 0; construction
does the same (R184; D33, D35). -/
def Obligations.BootSequence : Prop :=
  ∀ (s : State) (o1 o2 o3 : Nat),
    perform (.begin o1 o2 o3) s = .next { s with
      host := { w := some 320, h := some 480 }, reply := .nothing,
      bus := [.res .low, .wait (100 + o1), .res .high, .wait (50 + o2)] ++
        instrEvents s.params (.cfgF7 s.params.initData.xF7) ++ instrEvents s.params (.cfgC0 s.params.initData.xC0) ++
        instrEvents s.params (.cfgC1 s.params.initData.xC1) ++ instrEvents s.params (.cfgC5 s.params.initData.xC5) ++
        instrEvents s.params (.cfgB1 s.params.initData.xB1) ++ instrEvents s.params (.cfgB4 s.params.initData.xB4) ++
        instrEvents s.params (.cfgB6 s.params.initData.xB6) ++ instrEvents s.params (.cfgB7 s.params.initData.xB7) ++
        instrEvents s.params (.cfgBE s.params.initData.xBE) ++ instrEvents s.params (.cfgE9 s.params.initData.xE9) ++
        instrEvents s.params (.pixfmt s.params.initData.x3A) ++ instrEvents s.params (.cfgE0 s.params.initData.xE0) ++
        instrEvents s.params (.cfgE1 s.params.initData.xE1) ++ instrEvents s.params .slpout ++ [.wait (120 + o3)] ++
        instrEvents s.params .dispon ++ instrEvents s.params (.madctl s.params.rot0) } ∧
    perform (.construct o1 o2 o3) s = perform (.begin o1 o2 o3) s

/-- `SetWindow` and `FlushBitBuffer` (44_host_driver.md R190, R191): columns, rows, write, in this order, with the offsets
added and high bytes first, then the whole buffer; refused exactly when an address does not fit 16 bits. -/
def Obligations.WindowOperationsEmit : Prop :=
  ∀ (s : State) (x0 y0 x1 y1 : Nat) (buf : List Byte),
    let w := fun v => BitVec.ofNat 16 v
    let window := instrEvents s.params (.caset (w (x0 + s.ox)) (w (x1 + s.ox))) ++
      instrEvents s.params (.paset (w (y0 + s.oy)) (w (y1 + s.oy))) ++ instrEvents s.params (.ramwr [])
    (x0 + s.ox ≤ 0xFFFF ∧ x1 + s.ox ≤ 0xFFFF ∧ y0 + s.oy ≤ 0xFFFF ∧ y1 + s.oy ≤ 0xFFFF →
      perform (.setWindow x0 y0 x1 y1) s = .next { s with bus := window, reply := .nothing } ∧
      perform (.flushBitBuffer x0 y0 x1 y1 buf) s = .next { s with
        bus := window ++ dataTx s.params buf, reply := .nothing }) ∧
    (0xFFFF < x0 + s.ox ∨ 0xFFFF < x1 + s.ox ∨ 0xFFFF < y0 + s.oy ∨ 0xFFFF < y1 + s.oy →
      perform (.setWindow x0 y0 x1 y1) s = .refused .coordinateOverflow ∧
      perform (.flushBitBuffer x0 y0 x1 y1 buf) s = .refused .coordinateOverflow)

/-- `LcdDirection` (44_host_driver.md R194): the selector modulo 4, the byte sent and the size set; selectors 2 and 3 are not
distinguished. -/
def Obligations.LcdDirectionEmits : Prop :=
  ∀ (s : State) (sel : Nat),
    let turns := fun m w h => perform (.lcdDirection sel) s = .next { s with
      host := { w := some w, h := some h }, bus := instrEvents s.params (.madctl m), reply := .nothing }
    (sel % 4 = 0 → turns s.params.rot0 320 480) ∧ (sel % 4 = 1 → turns s.params.rot1 480 320) ∧
      (sel % 4 = 2 → turns s.params.rot23 480 320) ∧ (sel % 4 = 3 → turns s.params.rot23 480 320)

/-- The driver's `Clear`, `Size` and `GetFullScreenCanvas` (44_host_driver.md R195 to R197). -/
def Obligations.ScreenOperations : Prop :=
  ∀ (s : State) (w h : Nat) (r g b : Byte),
    perform .size s = .next { s with reply := .size s.host.w s.host.h } ∧
    (s.host.w = some w → s.host.h = some h → 0 < w → 0 < h →
      (∃ buf, perform (.clear r g b) s = perform (.flushBitBuffer 0 0 (w - 1) (h - 1) buf) s ∧
        buf.length = w * h * 3 ∧
        ∀ k, k < w * h → buf[3 * k]? = some r ∧ buf[3 * k + 1]? = some g ∧ buf[3 * k + 2]? = some b) ∧
      perform .getFullScreenCanvas s = perform (.getCanvas 0 0 (w - 1) (h - 1)) s)

/-- Making a canvas (44_host_driver.md R198): the rectangle, a buffer of its size, black by the spec's decision D39; an
inverted rectangle is refused. -/
def Obligations.CanvasCreation : Prop :=
  ∀ (s : State) (x0 y0 x1 y1 : Nat),
    (x0 ≤ x1 → y0 ≤ y1 → perform (.getCanvas x0 y0 x1 y1) s = .next { s with
      canvases := s.canvases ++ [⟨x0, y0, x1, y1, List.replicate ((x1 - x0 + 1) * (y1 - y0 + 1) * 3) 0⟩],
      reply := .canvas s.canvases.length }) ∧
    (x1 < x0 ∨ y1 < y0 → perform (.getCanvas x0 y0 x1 y1) s = .refused .emptyRectangle)

/-- The model's choice, log entries 10 and 13: a canvas operation on a canvas that was never made is refused, and so are the
full-screen operations before a size is set ("`W`, `H` are `some`", 44_host_driver.md R195). -/
def Obligations.MissingCanvasOrSizeRefused : Prop :=
  ∀ (s : State) (k x y : Nat) (r g b : Byte) (col : Color) (img : Image) (buf : List Byte),
    (s.host.w = none ∨ s.host.h = none →
      perform (.clear r g b) s = .refused .sizeUnset ∧ perform .getFullScreenCanvas s = .refused .sizeUnset) ∧
    (s.canvases.length ≤ k →
      ∀ op ∈ ([.setRGB k x y r g b, .getRGB k x y, .setColor k x y col, .getColor k x y, .drawImage k img, .canvasClear k,
        .flush k, .flushDirectly k buf] : List HostOp), perform op s = .refused .noSuchCanvas)

/-! ## Canvas -/

/-- Writing and reading a pixel (45_host_canvas.md R211 to R213): its three bytes at `(y * cw + x) * 3` are read and
written, every other byte and every other canvas stay, nothing is emitted, the pixel is read back and every other pixel reads
as before. -/
def Obligations.SetThenGetPixel : Prop :=
  ∀ (s : State) (k : Nat) (c : Canvas) (x y : Nat) (r g b : Byte), s.canvases[k]? = some c → c.wf = true → x < c.cw →
    y < c.ch →
    let i := (y * (c.x1 - c.x0 + 1) + x) * 3
    (∃ r0 g0 b0, c.buf[i]? = some r0 ∧ c.buf[i + 1]? = some g0 ∧ c.buf[i + 2]? = some b0 ∧
      perform (.getRGB k x y) s = .next { s with reply := .rgb { r := r0, g := g0, b := b0 } }) ∧
    ∃ c' : Canvas, c' = { c with buf := c'.buf } ∧ c'.buf.length = c.buf.length ∧
      c'.buf[i]? = some r ∧ c'.buf[i + 1]? = some g ∧ c'.buf[i + 2]? = some b ∧
      (∀ j, j < i ∨ i + 2 < j → c'.buf[j]? = c.buf[j]?) ∧
      perform (.setRGB k x y r g b) s = .next { s with canvases := s.canvases.set k c', reply := .nothing } ∧
      perform (.getRGB k x y) { s with canvases := s.canvases.set k c' } =
        .next { s with canvases := s.canvases.set k c', reply := .rgb { r := r, g := g, b := b } } ∧
      (∀ x' y', (x', y') ≠ (x, y) → c'.getRGB x' y' = c.getRGB x' y')

/-- Writing a colour (45_host_canvas.md R214): the colour blended, channel by channel, over what the buffer holds, written by
`SetRGB`. -/
def Obligations.SetColorComposes : Prop :=
  ∀ (s : State) (k x y : Nat) (c : Canvas) (col : Color) (bg : Pixel), s.canvases[k]? = some c →
    c.getRGB x y = some bg → perform (.setColor k x y col) s =
      perform (.setRGB k x y (blend col.r bg.r col.a) (blend col.g bg.g col.a) (blend col.b bg.b col.a)) s

/-- Coordinates outside the canvas are refused (45_host_canvas.md R221, R216; D37), and inside it a pixel is always read. -/
def Obligations.OutsideCanvasRefused : Prop :=
  ∀ (s : State) (k x y : Nat) (c : Canvas) (r g b : Byte) (col : Color), s.canvases[k]? = some c → c.wf = true →
    (c.cw ≤ x ∨ c.ch ≤ y →
      perform (.setRGB k x y r g b) s = .refused .canvasOutOfRange ∧
      perform (.getRGB k x y) s = .refused .canvasOutOfRange ∧
      perform (.setColor k x y col) s = .refused .canvasOutOfRange ∧
      perform (.getColor k x y) s = .refused .canvasOutOfRange) ∧
    (x < c.cw → y < c.ch → ∃ px, perform (.getRGB k x y) s = .next { s with reply := .rgb px } ∧
      perform (.getColor k x y) s = .next { s with reply := .color { r := px.r, g := px.g, b := px.b, a := 255 } })

/-- The blend (45_host_canvas.md R215): the formula on numbers, and its consequences at both ends, on equal channels and
between the channels, which R215 marks as derived from the formula. -/
def Obligations.BlendFormula : Prop :=
  ∀ f b a : Byte,
    (blend f b a).toNat = (f.toNat * a.toNat + b.toNat * (255 - a.toNat)) / 255 ∧
    blend f b 255 = f ∧ blend f b 0 = b ∧ blend f f a = f ∧
    min f.toNat b.toNat ≤ (blend f b a).toNat ∧ (blend f b a).toNat ≤ max f.toNat b.toNat

/-- A drawn picture changes exactly the pixels of the canvas it covers, each composed over what the canvas held; the rest is
clipped, nothing is emitted (45_host_canvas.md R217). The picture is the model's rows of colours (log entry 15). -/
def Obligations.DrawImageOverlap : Prop :=
  ∀ (s : State) (n : Nat) (c : Canvas) (img : Image) (x y : Nat), s.canvases[n]? = some c → c.wf = true → x < c.cw → y < c.ch →
    perform (.drawImage n img) s = .next { s with canvases := s.canvases.set n (c.drawImage img), reply := .nothing } ∧
    (c.drawImage img).wf = true ∧
    (∀ (j i : Nat) (row : List Color) (col : Color) (bg : Pixel), img.rows[j]? = some row → row[i]? = some col →
      (x : Int) = img.sx0 + i → (y : Int) = img.sy0 + j → c.getRGB x y = some bg →
      (c.drawImage img).getRGB x y = some (col.over bg)) ∧
    ((∀ (j i : Nat) (row : List Color), img.rows[j]? = some row → i < row.length →
        ¬((x : Int) = img.sx0 + i ∧ (y : Int) = img.sy0 + j)) →
      (c.drawImage img).getRGB x y = c.getRGB x y)

/-- Canvas `Clear` makes every pixel black and emits nothing (45_host_canvas.md R218); `Flush` sends the canvas's own buffer
over its rectangle and changes no buffer (R219), `FlushDirectly` the caller's (R220). -/
def Obligations.CanvasClearAndFlush : Prop :=
  ∀ (s : State) (k : Nat) (c : Canvas) (buf : List Byte), s.canvases[k]? = some c → c.wf = true →
    perform (.canvasClear k) s = .next { s with
      canvases := s.canvases.set k { c with buf := List.replicate c.buf.length 0 }, reply := .nothing } ∧
    (∀ x y, x < c.cw → y < c.ch → c.clear.getRGB x y = some { r := 0, g := 0, b := 0 }) ∧
    perform (.flush k) s = perform (.flushBitBuffer c.x0 c.y0 c.x1 c.y1 c.buf) s ∧
    perform (.flushDirectly k buf) s = perform (.flushBitBuffer c.x0 c.y0 c.x1 c.y1 buf) s
end

