-- ==== Sys2Proof/Laws/Decode.lean ====
section
/-!
SUPPORT. Laws of the byte order and of the opcode map.
-/

namespace Sys2Proof

/-- `be16(h, l) = h * 256 + l` as numbers (00_scope.md R11). -/
theorem toNat_be16 (h l : Byte) : (be16 h l).toNat = h.toNat * 256 + l.toNat := by
  have hl := l.isLt
  simp only [be16]
  rw [show (h ++ l : BitVec (8 + 8)).toNat = _ from BitVec.toNat_append h l, Nat.shiftLeft_eq,
    ← Nat.shiftLeft_eq, ← Nat.shiftLeft_add_eq_or_of_lt hl, Nat.shiftLeft_eq]

theorem toNat_hi8 (w : Word16) : (hi8 w).toNat = w.toNat / 256 := by
  have hw := w.isLt
  simp only [hi8, BitVec.extractLsb'_toNat, Nat.shiftRight_eq_div_pow]
  omega

theorem toNat_lo8 (w : Word16) : (lo8 w).toNat = w.toNat % 256 := by
  simp only [lo8, BitVec.extractLsb'_toNat, Nat.shiftRight_eq_div_pow]
  omega

@[simp] theorem hi8_be16 (h l : Byte) : hi8 (be16 h l) = h := by
  have hl := l.isLt
  apply BitVec.eq_of_toNat_eq
  rw [toNat_hi8, toNat_be16]; omega

@[simp] theorem lo8_be16 (h l : Byte) : lo8 (be16 h l) = l := by
  have hl := l.isLt
  apply BitVec.eq_of_toNat_eq
  rw [toNat_lo8, toNat_be16]; omega

@[simp] theorem be16_hi8_lo8 (w : Word16) : be16 (hi8 w) (lo8 w) = w := by
  apply BitVec.eq_of_toNat_eq
  rw [toNat_be16, toNat_hi8, toNat_lo8]; omega

@[simp] theorem encPair_eq (a b : Word16) : encPair a b = [hi8 a, lo8 a, hi8 b, lo8 b] := rfl

/-- A command byte selects the opcode whose code it is. -/
@[simp] theorem Opcode.ofByte_code (op : Opcode) : Opcode.ofByte op.code = some op := by
  cases op with
  | cfg k => cases k <;> decide
  | _ => decide

/-- It selects no other. -/
theorem Opcode.code_of_ofByte {b : Byte} {op : Opcode} (h : Opcode.ofByte b = some op) : op.code = b := by
  have := List.find?_some h
  simpa using this

theorem Opcode.ofByte_eq_some {b : Byte} {op : Opcode} : Opcode.ofByte b = some op ↔ op.code = b :=
  ⟨Opcode.code_of_ofByte, fun h => h ▸ Opcode.ofByte_code op⟩

@[simp] theorem Instr.opcode_ofCfg (k : CfgCode) (d : List Byte) : (Instr.ofCfg k d).opcode = .cfg k := by cases k <;> rfl

@[simp] theorem Instr.data_ofCfg (k : CfgCode) (d : List Byte) : (Instr.ofCfg k d).data = d := by cases k <;> rfl

@[simp] theorem Instr.wellFormed_ofCfg (k : CfgCode) (d : List Byte) : (Instr.ofCfg k d).wellFormed = true := by
  cases k <;> rfl

/-- The decoder reads the code, then the operands. -/
theorem decode_code (op : Opcode) (data : List Byte) : decode (op.code :: data) = decodeOperands op data := by
  simp [decode]

end Sys2Proof
end

