-- ==== Sys2Proof/Laws/Bus.lean ====
section
/-!
SUPPORT. Laws of the framing: a transmission is read back from the pending events, and what is read was there.
-/

namespace Sys2Proof

/-- Everything the operand decoder can answer: an instruction of the opcode with these data bytes. -/
theorem decodeOperands_ok {op : Opcode} {data : List Byte} {i : Instr} (h : decodeOperands op data = .ok i) :
    i.opcode = op ∧ i.data = data ∧ i.wellFormed = true := by
  cases op with
  | slpout =>
    cases data with
    | nil => simp only [decodeOperands, Except.ok.injEq] at h; subst h; exact ⟨rfl, rfl, rfl⟩
    | cons b bs => simp [decodeOperands] at h
  | dispon =>
    cases data with
    | nil => simp only [decodeOperands, Except.ok.injEq] at h; subst h; exact ⟨rfl, rfl, rfl⟩
    | cons b bs => simp [decodeOperands] at h
  | caset =>
    simp only [decodeOperands] at h
    split at h
    · simp only [Except.ok.injEq] at h; subst h; simp [Instr.opcode, Instr.data, Instr.wellFormed]
    · simp at h
  | paset =>
    simp only [decodeOperands] at h
    split at h
    · simp only [Except.ok.injEq] at h; subst h; simp [Instr.opcode, Instr.data, Instr.wellFormed]
    · simp at h
  | ramwr =>
    simp only [decodeOperands] at h
    split at h
    · rename_i hw; simp only [Except.ok.injEq] at h; subst h; exact ⟨rfl, rfl, hw⟩
    · simp at h
  | madctl =>
    simp only [decodeOperands] at h
    split at h
    · simp only [Except.ok.injEq] at h; subst h; exact ⟨rfl, rfl, rfl⟩
    · simp at h
  | cfg k => simp only [decodeOperands, Except.ok.injEq] at h; subst h; simp

namespace Machine

@[simp] theorem takeBytes_map (bs : List Byte) (l : Level) (rest : List Event) :
    takeBytes (bs.map .byte ++ .cs l :: rest) = (bs, .cs l :: rest) := by
  induction bs with
  | nil => rfl
  | cons b bs ih => simp [takeBytes, ih]

/-- What is read as bytes, put back before the rest, gives the events. -/
theorem takeBytes_append (es : List Event) : (takeBytes es).1.map .byte ++ (takeBytes es).2 = es := by
  induction es with
  | nil => rfl
  | cons e es ih => cases e <;> simp [takeBytes, ih]

/-- A transmission at the head of the events is read back. -/
theorem takeTx_exchange (p : Params) (kind : Kind) (b : Byte) (bs : List Byte) (rest : List Event) :
    takeTx p kind (exchange p kind (b :: bs) ++ rest) = some (b, bs, rest) := by
  simp [exchange, takeTx]

/-- What is read as a transmission stood at the head of the events. -/
theorem takeTx_some {p : Params} {kind : Kind} {es rest : List Event} {b : Byte} {bs : List Byte}
    (h : takeTx p kind es = some (b, bs, rest)) : es = exchange p kind (b :: bs) ++ rest := by
  unfold takeTx at h
  split at h
  · rename_i a l b' es'
    split at h
    · rename_i hal
      obtain ⟨rfl, rfl⟩ := hal
      split at h
      · rename_i i rest' hb
        split at h
        · rename_i hi
          simp only [Option.some.injEq, Prod.mk.injEq] at h
          obtain ⟨rfl, rfl, rfl⟩ := h
          have := takeBytes_append es'
          rw [hb, hi] at this
          simp [exchange, this]
        · simp at h
      · simp at h
    · simp at h
  · simp at h

/-- Everything a fetch can answer: a well-formed instruction whose events stood at the head of the pending ones. -/
theorem fetch_some {p : Params} {bus rest : List Event} {i : Instr} (h : fetch p bus = some (i, rest)) :
    bus = instrEvents p i ++ rest ∧ i.wellFormed = true := by
  have alone : ∀ {b : Byte} {r : List Event} {j : Instr}, decode [b] = .ok j →
      commandTx p b ++ r = instrEvents p j ++ r ∧ j.wellFormed = true := by
    intro b r j hd
    simp only [decode] at hd
    split at hd
    · simp at hd
    · rename_i op ho
      obtain ⟨h1, h2, h3⟩ := decodeOperands_ok hd
      exact ⟨by simp [instrEvents, writeReg, h1, h2, dataTx, Opcode.code_of_ofByte ho], h3⟩
  unfold fetch at h
  split at h
  · rename_i b r ht
    have hb := takeTx_some ht
    unfold fetchWith at h
    simp only at h
    split at h
    · rename_i hn
      split at h
      · rename_i j hj
        simp only [Option.some.injEq, Prod.mk.injEq] at h
        obtain ⟨rfl, rfl⟩ := h
        rw [hb]; exact alone hj
      · simp at h
    · rename_i d ds r' hd
      have hr := takeTx_some hd
      split at h
      · rename_i j hj
        simp only [Option.some.injEq, Prod.mk.injEq] at h
        obtain ⟨rfl, rfl⟩ := h
        simp only [decode] at hj
        split at hj
        · simp at hj
        · rename_i op ho
          obtain ⟨h1, h2, h3⟩ := decodeOperands_ok hj
          refine ⟨?_, h3⟩
          rw [hb, hr]
          simp [instrEvents, writeReg, h1, h2, dataTx, Opcode.code_of_ofByte ho, commandTx]
      · split at h
        · rename_i j hj
          simp only [Option.some.injEq, Prod.mk.injEq] at h
          obtain ⟨rfl, rfl⟩ := h
          rw [hb]; exact alone hj
        · simp at h
  · simp at h

/-- A command transaction at the head of the events leads to the reading of its data. -/
theorem fetch_commandTx (p : Params) (b : Byte) (rest : List Event) :
    fetch p (commandTx p b ++ rest) = fetchWith p b rest := by
  simp [fetch, commandTx, takeTx_exchange]

/-- Everything a step can do (log entries 5, 8, 9): with events pending it gives a part of them that is not empty to the
device and leaves the rest alone; with none it performs the next operation; with nothing to do it stays. -/
theorem step_cases {s t : State} (h : step s = .next t) :
    (∃ given rest, given ≠ [] ∧ s.bus = given ++ rest ∧
      t = { s with bus := rest, dev := devRun s.params s.dev given }) ∨
    (s.bus = [] ∧ ∃ op ops, s.ops = op :: ops ∧ perform op { s with ops := ops } = .next t) ∨
    (s.bus = [] ∧ s.ops = [] ∧ t = s) := by
  unfold step at h
  split at h
  · rename_i e es hbus
    split at h
    · rename_i i rest hf
      obtain ⟨hb, _⟩ := fetch_some hf
      have hx : exec i { s with bus := rest } = .next (State.runCommand { s with bus := rest } i.opcode i.data) := by
        cases i <;> rfl
      rw [hx] at h
      simp only [Host.Outcome.next.injEq] at h
      refine .inl ⟨instrEvents s.params i, rest, ?_, by rw [hbus]; exact hb, ?_⟩
      · simp [instrEvents, writeReg, commandTx, exchange]
      · rw [← h]; rfl
    · simp only [Host.Outcome.next.injEq] at h
      exact .inl ⟨[e], es, by simp, by rw [hbus]; rfl, by rw [← h]; rfl⟩
  · rename_i hbus
    split at h
    · rename_i op ops ho; exact .inr (.inl ⟨hbus, op, ops, ho, h⟩)
    · rename_i ho; simp only [Host.Outcome.next.injEq] at h; exact .inr (.inr ⟨hbus, ho, h.symm⟩)

end Machine

end Sys2Proof
end

