-- ==== Sys2Proof/Laws/Canvas.lean ====
section
/-!
SUPPORT. Laws of a canvas's buffer: the index of a pixel, reading and writing inside and outside, what a write leaves alone
(45_host_canvas.md R210 to R213, R221).
-/

namespace Sys2Proof.Machine

theorem Canvas.wf_iff {c : Canvas} :
    c.wf = true ↔ c.x0 ≤ c.x1 ∧ c.y0 ≤ c.y1 ∧ c.buf.length = c.cw * c.ch * bytesPerPixel := by
  unfold Canvas.wf
  rw [Bool.and_eq_true, Bool.and_eq_true, decide_eq_true_eq, decide_eq_true_eq, decide_eq_true_eq, and_assoc]

theorem Canvas.inside_iff {c : Canvas} {x y : Nat} : c.inside x y = true ↔ x < c.cw ∧ y < c.ch := by
  unfold Canvas.inside
  rw [Bool.and_eq_true, decide_eq_true_eq, decide_eq_true_eq]

/-- The bytes of a pixel inside a canvas lie in its buffer. -/
theorem Canvas.idx_lt {c : Canvas} {x y : Nat} (hc : c.wf = true) (h : c.inside x y = true) :
    c.idx x y + 2 < c.buf.length := by
  obtain ⟨hx, hy⟩ := inside_iff.mp h
  have hl := (wf_iff.mp hc).2.2
  have hm : c.cw * (y + 1) ≤ c.cw * c.ch := Nat.mul_le_mul_left _ hy
  rw [Nat.mul_succ, Nat.mul_comm c.cw y] at hm
  simp only [Canvas.idx, bytesPerPixel] at *
  omega

/-- The bytes of different pixels are apart. -/
theorem Canvas.idx_apart {c : Canvas} {x y x' y' : Nat} (hx : x < c.cw) (hx' : x' < c.cw) (h : (x', y') ≠ (x, y)) :
    c.idx x y + 3 ≤ c.idx x' y' ∨ c.idx x' y' + 3 ≤ c.idx x y := by
  have hne : y' * c.cw + x' ≠ y * c.cw + x := by
    intro e
    have e1 : x' = x := by
      have := congrArg (fun n => n % c.cw) e
      simpa [Nat.mul_comm _ c.cw, Nat.mul_add_mod, Nat.mod_eq_of_lt hx, Nat.mod_eq_of_lt hx'] using this
    subst e1
    have e2 : y' = y := Nat.eq_of_mul_eq_mul_right (m := c.cw) (by omega) (by omega)
    exact h (by rw [e2])
  simp only [Canvas.idx, bytesPerPixel]
  omega

theorem Canvas.getRGB_outside {c : Canvas} {x y : Nat} (h : ¬c.inside x y = true) : c.getRGB x y = none := if_neg h

theorem Canvas.setRGB_outside {c : Canvas} {x y : Nat} (h : ¬c.inside x y = true) (px : Pixel) :
    c.setRGB x y px = none := if_neg h

/-- Inside a canvas a pixel is always read. -/
theorem Canvas.getRGB_inside {c : Canvas} {x y : Nat} (hc : c.wf = true) (h : c.inside x y = true) :
    ∃ px, c.getRGB x y = some px := by
  have hl := idx_lt hc h
  unfold Canvas.getRGB
  rw [if_pos h, List.getElem?_eq_getElem (by omega), List.getElem?_eq_getElem (by omega),
    List.getElem?_eq_getElem (by omega)]
  exact ⟨_, rfl⟩

/-- Everything a write inside a canvas does: the pixel is read back, every other pixel reads as before, rectangle and
length stay. -/
theorem Canvas.setRGB_inside {c : Canvas} {x y : Nat} (hc : c.wf = true) (h : c.inside x y = true) (px : Pixel) :
    ∃ c', c.setRGB x y px = some c' ∧ c'.getRGB x y = some px ∧ c'.wf = true ∧ c'.cw = c.cw ∧ c'.ch = c.ch ∧
      ∀ x' y', (x', y') ≠ (x, y) → c'.getRGB x' y' = c.getRGB x' y' := by
  have hl := idx_lt hc h
  refine ⟨_, if_pos h, ?_, ?_, rfl, rfl, fun x' y' hne => ?_⟩
  · refine (if_pos h).trans ?_
    simp only [Canvas.idx, Canvas.cw] at hl ⊢
    generalize (y * (c.x1 - c.x0 + 1) + x) * bytesPerPixel = i at *
    have h0 : (((c.buf.set i px.r).set (i + 1) px.g).set (i + 2) px.b)[i]? = some px.r := by
      rw [List.getElem?_set_ne (by omega), List.getElem?_set_ne (by omega), List.getElem?_set_self (by omega)]
    have h1 : (((c.buf.set i px.r).set (i + 1) px.g).set (i + 2) px.b)[i + 1]? = some px.g := by
      rw [List.getElem?_set_ne (by omega), List.getElem?_set_self (by simp only [List.length_set]; omega)]
    have h2 : (((c.buf.set i px.r).set (i + 1) px.g).set (i + 2) px.b)[i + 2]? = some px.b := by
      rw [List.getElem?_set_self (by simp only [List.length_set]; omega)]
    rw [h0, h1, h2]
  · rw [wf_iff] at hc ⊢
    refine ⟨hc.1, hc.2.1, ?_⟩
    simp only [List.length_set]; exact hc.2.2
  · by_cases hin : c.inside x' y' = true
    · have ha := idx_apart (inside_iff.mp h).1 (inside_iff.mp hin).1 hne
      refine (if_pos hin).trans (Eq.trans ?_ (if_pos hin).symm)
      simp only [Canvas.idx, Canvas.cw] at ha ⊢
      generalize (y * (c.x1 - c.x0 + 1) + x) * bytesPerPixel = i at *
      generalize (y' * (c.x1 - c.x0 + 1) + x') * bytesPerPixel = j at *
      have same : ∀ k, j ≤ k → k < j + 3 →
          (((c.buf.set i px.r).set (i + 1) px.g).set (i + 2) px.b)[k]? = c.buf[k]? := by
        intro k h1 h2
        rw [List.getElem?_set_ne (by omega), List.getElem?_set_ne (by omega), List.getElem?_set_ne (by omega)]
      rw [same j (by omega) (by omega), same (j + 1) (by omega) (by omega), same (j + 2) (by omega) (by omega)]
    · exact (if_neg hin).trans (if_neg hin).symm

end Sys2Proof.Machine
end

