-- ==== Sys2Proof/Laws/Memory.lean ====
section
/-!
SUPPORT. Laws of frame memory: read after write, a store leaves every other address alone, the canonical form is kept,
and equal contents are equal lists.
-/

namespace Sys2Proof.Machine

/-! ## Keys -/

/-- Each address pair has a key of its own. -/
theorem fmKey_inj {c r c' r' : Word16} : fmKey c r = fmKey c' r' ↔ c = c' ∧ r = r' := by
  have h1 := c.isLt; have h2 := c'.isLt
  constructor
  · intro h
    unfold fmKey at h
    exact ⟨BitVec.eq_of_toNat_eq (by omega), BitVec.eq_of_toNat_eq (by omega)⟩
  · rintro ⟨rfl, rfl⟩; rfl

theorem fmKey_lt (c r : Word16) : fmKey c r < 0x100000000 := by
  have h1 := c.isLt; have h2 := r.isLt
  unfold fmKey; omega

/-! ## Lookup and insertion -/

@[simp] theorem FrameMem.find_nil (k : Nat) : FrameMem.find [] k = none := rfl

theorem FrameMem.find_put_same (m : FrameMem) (k : Nat) (p : Pixel) : (m.put k p).find k = some p := by
  induction m with
  | nil => simp [put, find]
  | cons cell m ih =>
    obtain ⟨a, q⟩ := cell
    unfold put
    split
    · rename_i h
      have : a ≠ k := by omega
      simp [find, this, ih]
    · split <;> simp [find]

theorem FrameMem.find_put_other (m : FrameMem) {k j : Nat} (p : Pixel) (h : j ≠ k) : (m.put k p).find j = m.find j := by
  induction m with
  | nil => simp [put, find, h.symm]
  | cons cell m ih =>
    obtain ⟨a, q⟩ := cell
    unfold put
    split
    · simp [find, ih]
    · split
      · rename_i h1 h2; subst h2; simp [find, h.symm]
      · simp [find, h.symm]

/-- A store is read back. -/
@[simp] theorem FrameMem.read_write_same (m : FrameMem) (c r : Word16) (p : Pixel) : (m.write c r p).read c r = some p :=
  find_put_same m _ p

/-- A store leaves every other address alone. -/
theorem FrameMem.read_write_other (m : FrameMem) {c r c' r' : Word16} (p : Pixel) (h : ¬(c' = c ∧ r' = r)) :
    (m.write c r p).read c' r' = m.read c' r' :=
  find_put_other m p (fun e => h (fmKey_inj.mp e))

theorem FrameMem.read_write (m : FrameMem) (c r c' r' : Word16) (p : Pixel) :
    (m.write c r p).read c' r' = if c' = c ∧ r' = r then some p else m.read c' r' := by
  split
  · rename_i h; obtain ⟨rfl, rfl⟩ := h; exact read_write_same m _ _ p
  · rename_i h; exact read_write_other m p h

@[simp] theorem FrameMem.read_nil (c r : Word16) : FrameMem.read [] c r = none := rfl

/-! ## Canonical form -/

theorem FrameMem.risingFrom_mono {lo lo' : Nat} {m : FrameMem} (h : lo' ≤ lo) (hm : FrameMem.risingFrom lo m = true) :
    FrameMem.risingFrom lo' m = true := by
  cases m with
  | nil => rfl
  | cons cell m =>
    simp only [risingFrom, Bool.and_eq_true, decide_eq_true_eq] at hm ⊢
    exact ⟨by omega, hm.2⟩

theorem FrameMem.risingFrom_put {lo k : Nat} {m : FrameMem} (p : Pixel) (h : lo ≤ k)
    (hm : FrameMem.risingFrom lo m = true) : FrameMem.risingFrom lo (m.put k p) = true := by
  induction m generalizing lo with
  | nil => simp [put, risingFrom, h]
  | cons cell m ih =>
    obtain ⟨a, q⟩ := cell
    simp only [risingFrom, Bool.and_eq_true, decide_eq_true_eq] at hm
    unfold put
    split
    · simp only [risingFrom, Bool.and_eq_true, decide_eq_true_eq]
      exact ⟨hm.1, ih (by omega) hm.2⟩
    · split
      · rename_i h1 h2; subst h2
        simp only [risingFrom, Bool.and_eq_true, decide_eq_true_eq]
        exact ⟨h, hm.2⟩
      · simp only [risingFrom, Bool.and_eq_true, decide_eq_true_eq]
        exact ⟨h, by omega, hm.2⟩

theorem FrameMem.all_put {m : FrameMem} {k : Nat} {p : Pixel} {f : Nat × Pixel → Bool} (h : f (k, p) = true)
    (hm : m.all f = true) : (m.put k p).all f = true := by
  induction m with
  | nil => simp [put, h]
  | cons cell m ih =>
    obtain ⟨a, q⟩ := cell
    simp only [List.all_cons, Bool.and_eq_true] at hm
    unfold put
    split
    · simp [hm.1, ih hm.2]
    · split <;> simp_all

@[simp] theorem Memory.wf_nil : Memory.wf [] = true := rfl

/-- A store keeps the canonical form. -/
theorem Memory.wf_write {m : FrameMem} (c r : Word16) (p : Pixel) (h : Memory.wf m = true) :
    Memory.wf (m.write c r p) = true := by
  unfold Memory.wf at h ⊢
  rw [Bool.and_eq_true] at h ⊢
  exact ⟨FrameMem.risingFrom_put p (Nat.zero_le _) h.1, FrameMem.all_put (by simpa using fmKey_lt c r) h.2⟩

theorem FrameMem.find_lt {lo k : Nat} {m : FrameMem} (hm : FrameMem.risingFrom lo m = true) (h : k < lo) :
    m.find k = none := by
  induction m generalizing lo with
  | nil => rfl
  | cons cell m ih =>
    obtain ⟨a, q⟩ := cell
    simp only [risingFrom, Bool.and_eq_true, decide_eq_true_eq] at hm
    have : a ≠ k := by omega
    simp only [find, this, if_false]
    exact ih hm.2 (by omega)

theorem FrameMem.eq_of_find {lo : Nat} {m n : FrameMem} (hm : FrameMem.risingFrom lo m = true)
    (hn : FrameMem.risingFrom lo n = true) (h : ∀ k, m.find k = n.find k) : m = n := by
  induction m generalizing lo n with
  | nil =>
    cases n with
    | nil => rfl
    | cons cell n => have := h cell.1; simp [find] at this
  | cons cell m ih =>
    obtain ⟨a, q⟩ := cell
    cases n with
    | nil => have := h a; simp [find] at this
    | cons cell' n =>
      obtain ⟨b, q'⟩ := cell'
      simp only [risingFrom, Bool.and_eq_true, decide_eq_true_eq] at hm hn
      have hab : a = b := by
        rcases Nat.lt_trichotomy a b with hlt | heq | hgt
        · have h1 := h a
          have hb : b ≠ a := by omega
          simp only [find, if_true, hb, if_false] at h1
          rw [find_lt hn.2 (by omega)] at h1; simp at h1
        · exact heq
        · have h1 := h b
          have hb : a ≠ b := by omega
          simp only [find, if_true, hb, if_false] at h1
          rw [find_lt hm.2 (by omega)] at h1; simp at h1
      subst hab
      have hq : q = q' := by have := h a; simpa [find] using this
      subst hq
      congr 1
      refine ih hm.2 hn.2 (fun k => ?_)
      by_cases hk : a = k
      · subst hk; rw [find_lt hm.2 (by omega), find_lt hn.2 (by omega)]
      · have := h k; simpa [find, hk] using this

/-- Two frame memories in canonical form with equal contents at every address pair are equal lists. -/
theorem FrameMem.eq_of_read {m n : FrameMem} (hm : Memory.wf m = true) (hn : Memory.wf n = true)
    (h : ∀ c r, m.read c r = n.read c r) : m = n := by
  unfold Memory.wf at hm hn
  rw [Bool.and_eq_true] at hm hn
  refine eq_of_find hm.1 hn.1 (fun k => ?_)
  by_cases hk : k < 0x100000000
  · have hkey : fmKey (BitVec.ofNat 16 (k % 0x10000)) (BitVec.ofNat 16 (k / 0x10000)) = k := by
      simp only [fmKey, BitVec.toNat_ofNat]; omega
    have := h (BitVec.ofNat 16 (k % 0x10000)) (BitVec.ofNat 16 (k / 0x10000))
    simpa only [FrameMem.read, hkey] using this
  · have out : ∀ l : FrameMem, l.all (fun cell => decide (cell.1 < 0x100000000)) = true → l.find k = none := by
      intro l hl
      induction l with
      | nil => rfl
      | cons cell l ih =>
        obtain ⟨a, q⟩ := cell
        simp only [List.all_cons, Bool.and_eq_true, decide_eq_true_eq] at hl
        have : a ≠ k := by omega
        simpa [find, this] using ih hl.2
    rw [out m hm.2, out n hn.2]

end Sys2Proof.Machine
end

