-- ==== Sys2Proof/Laws/State.lean ====
section
/-!
SUPPORT. One lemma for each field of each update of the device, true by rfl, so that no later proof unfolds a record
update; and the laws of the registers held in a map.
-/

namespace Sys2Proof

/-! ## Configuration registers -/

@[simp] theorem CfgMap.get_const {α : Type} (a : α) (k : CfgCode) : (CfgMap.const a).get k = a := by cases k <;> rfl

@[simp] theorem CfgMap.get_set_same {α : Type} (m : CfgMap α) (k : CfgCode) (a : α) : (m.set k a).get k = a := by
  cases k <;> rfl

theorem CfgMap.get_set_other {α : Type} (m : CfgMap α) {k j : CfgCode} (a : α) (h : j ≠ k) :
    (m.set k a).get j = m.get j := by
  cases k <;> cases j <;> first | rfl | exact absurd rfl h

@[simp] theorem CfgMap.set_set {α : Type} (m : CfgMap α) (k : CfgCode) (a b : α) : (m.set k a).set k b = m.set k b := by
  cases k <;> rfl

/-- Two maps with equal entries are equal. -/
theorem CfgMap.ext_get {α : Type} {m n : CfgMap α} (h : ∀ k, m.get k = n.get k) : m = n := by
  cases m; cases n
  simp only [CfgMap.mk.injEq]
  exact ⟨h .xF7, h .xC0, h .xC1, h .xC5, h .xB1, h .xB4, h .xB6, h .xB7, h .xBE, h .xE9, h .x3A, h .xE0, h .xE1⟩

@[simp] theorem CfgMap.get_x3A {α : Type} (m : CfgMap α) : m.get .x3A = m.x3A := rfl

namespace Machine

/-! ## Latching a command (30_encoding.md R105 step 5) -/

@[simp] theorem DevState.latch_sc (d : DevState) (op : Opcode) (w : WSeq) : (d.latch op w).sc = d.sc := rfl
@[simp] theorem DevState.latch_ec (d : DevState) (op : Opcode) (w : WSeq) : (d.latch op w).ec = d.ec := rfl
@[simp] theorem DevState.latch_sp (d : DevState) (op : Opcode) (w : WSeq) : (d.latch op w).sp = d.sp := rfl
@[simp] theorem DevState.latch_ep (d : DevState) (op : Opcode) (w : WSeq) : (d.latch op w).ep = d.ep := rfl
@[simp] theorem DevState.latch_madctl (d : DevState) (op : Opcode) (w : WSeq) : (d.latch op w).madctl = d.madctl := rfl
@[simp] theorem DevState.latch_cfg (d : DevState) (op : Opcode) (w : WSeq) : (d.latch op w).cfg = d.cfg := rfl
@[simp] theorem DevState.latch_sleep (d : DevState) (op : Opcode) (w : WSeq) : (d.latch op w).sleep = d.sleep := rfl
@[simp] theorem DevState.latch_displayOn (d : DevState) (op : Opcode) (w : WSeq) : (d.latch op w).displayOn = d.displayOn := rfl
@[simp] theorem DevState.latch_cmd (d : DevState) (op : Opcode) (w : WSeq) : (d.latch op w).cmd = some op := rfl
@[simp] theorem DevState.latch_pidx (d : DevState) (op : Opcode) (w : WSeq) : (d.latch op w).pidx = 0 := rfl
@[simp] theorem DevState.latch_pbuf (d : DevState) (op : Opcode) (w : WSeq) : (d.latch op w).pbuf = [] := rfl
@[simp] theorem DevState.latch_wp (d : DevState) (op : Opcode) (w : WSeq) : (d.latch op w).wp = d.wp := rfl
@[simp] theorem DevState.latch_pix (d : DevState) (op : Opcode) (w : WSeq) : (d.latch op w).pix = d.pix := rfl
@[simp] theorem DevState.latch_wdone (d : DevState) (op : Opcode) (w : WSeq) : (d.latch op w).wdone = d.wdone := rfl
@[simp] theorem DevState.latch_wseq (d : DevState) (op : Opcode) (w : WSeq) : (d.latch op w).wseq = w := rfl
@[simp] theorem DevState.latch_fm (d : DevState) (op : Opcode) (w : WSeq) : (d.latch op w).fm = d.fm := rfl
@[simp] theorem DevState.latch_phase (d : DevState) (op : Opcode) (w : WSeq) : (d.latch op w).phase = d.phase := rfl
@[simp] theorem DevState.latch_quiet (d : DevState) (op : Opcode) (w : WSeq) : (d.latch op w).quiet = d.quiet := rfl
@[simp] theorem DevState.latch_fault (d : DevState) (op : Opcode) (w : WSeq) : (d.latch op w).fault = d.fault := rfl
@[simp] theorem DevState.latch_csx (d : DevState) (op : Opcode) (w : WSeq) : (d.latch op w).csx = d.csx := rfl
@[simp] theorem DevState.latch_dcx (d : DevState) (op : Opcode) (w : WSeq) : (d.latch op w).dcx = d.dcx := rfl
@[simp] theorem DevState.latch_resx (d : DevState) (op : Opcode) (w : WSeq) : (d.latch op w).resx = d.resx := rfl
@[simp] theorem DevState.latch_bl (d : DevState) (op : Opcode) (w : WSeq) : (d.latch op w).bl = d.bl := rfl

/-! ## Latching a parameter (30_encoding.md R107) -/

@[simp] theorem DevState.pushParam_sc (d : DevState) (b : Byte) : (d.pushParam b).sc = d.sc := rfl
@[simp] theorem DevState.pushParam_ec (d : DevState) (b : Byte) : (d.pushParam b).ec = d.ec := rfl
@[simp] theorem DevState.pushParam_sp (d : DevState) (b : Byte) : (d.pushParam b).sp = d.sp := rfl
@[simp] theorem DevState.pushParam_ep (d : DevState) (b : Byte) : (d.pushParam b).ep = d.ep := rfl
@[simp] theorem DevState.pushParam_madctl (d : DevState) (b : Byte) : (d.pushParam b).madctl = d.madctl := rfl
@[simp] theorem DevState.pushParam_cfg (d : DevState) (b : Byte) : (d.pushParam b).cfg = d.cfg := rfl
@[simp] theorem DevState.pushParam_sleep (d : DevState) (b : Byte) : (d.pushParam b).sleep = d.sleep := rfl
@[simp] theorem DevState.pushParam_displayOn (d : DevState) (b : Byte) : (d.pushParam b).displayOn = d.displayOn := rfl
@[simp] theorem DevState.pushParam_cmd (d : DevState) (b : Byte) : (d.pushParam b).cmd = d.cmd := rfl
@[simp] theorem DevState.pushParam_pidx (d : DevState) (b : Byte) : (d.pushParam b).pidx = d.pidx + 1 := rfl
@[simp] theorem DevState.pushParam_pbuf (d : DevState) (b : Byte) : (d.pushParam b).pbuf = d.pbuf ++ [b] := rfl
@[simp] theorem DevState.pushParam_wp (d : DevState) (b : Byte) : (d.pushParam b).wp = d.wp := rfl
@[simp] theorem DevState.pushParam_pix (d : DevState) (b : Byte) : (d.pushParam b).pix = d.pix := rfl
@[simp] theorem DevState.pushParam_wdone (d : DevState) (b : Byte) : (d.pushParam b).wdone = d.wdone := rfl
@[simp] theorem DevState.pushParam_wseq (d : DevState) (b : Byte) : (d.pushParam b).wseq = d.wseq := rfl
@[simp] theorem DevState.pushParam_fm (d : DevState) (b : Byte) : (d.pushParam b).fm = d.fm := rfl
@[simp] theorem DevState.pushParam_phase (d : DevState) (b : Byte) : (d.pushParam b).phase = d.phase := rfl
@[simp] theorem DevState.pushParam_quiet (d : DevState) (b : Byte) : (d.pushParam b).quiet = d.quiet := rfl
@[simp] theorem DevState.pushParam_fault (d : DevState) (b : Byte) : (d.pushParam b).fault = d.fault := rfl
@[simp] theorem DevState.pushParam_csx (d : DevState) (b : Byte) : (d.pushParam b).csx = d.csx := rfl
@[simp] theorem DevState.pushParam_dcx (d : DevState) (b : Byte) : (d.pushParam b).dcx = d.dcx := rfl
@[simp] theorem DevState.pushParam_resx (d : DevState) (b : Byte) : (d.pushParam b).resx = d.resx := rfl
@[simp] theorem DevState.pushParam_bl (d : DevState) (b : Byte) : (d.pushParam b).bl = d.bl := rfl

/-! ## Chip-select line (10_state.md R40) -/

@[simp] theorem DevState.driveCs_sc (d : DevState) (l : Level) : (d.driveCs l).sc = d.sc := rfl
@[simp] theorem DevState.driveCs_ec (d : DevState) (l : Level) : (d.driveCs l).ec = d.ec := rfl
@[simp] theorem DevState.driveCs_sp (d : DevState) (l : Level) : (d.driveCs l).sp = d.sp := rfl
@[simp] theorem DevState.driveCs_ep (d : DevState) (l : Level) : (d.driveCs l).ep = d.ep := rfl
@[simp] theorem DevState.driveCs_madctl (d : DevState) (l : Level) : (d.driveCs l).madctl = d.madctl := rfl
@[simp] theorem DevState.driveCs_cfg (d : DevState) (l : Level) : (d.driveCs l).cfg = d.cfg := rfl
@[simp] theorem DevState.driveCs_sleep (d : DevState) (l : Level) : (d.driveCs l).sleep = d.sleep := rfl
@[simp] theorem DevState.driveCs_displayOn (d : DevState) (l : Level) : (d.driveCs l).displayOn = d.displayOn := rfl
@[simp] theorem DevState.driveCs_cmd (d : DevState) (l : Level) : (d.driveCs l).cmd = d.cmd := rfl
@[simp] theorem DevState.driveCs_pidx (d : DevState) (l : Level) : (d.driveCs l).pidx = d.pidx := rfl
@[simp] theorem DevState.driveCs_pbuf (d : DevState) (l : Level) : (d.driveCs l).pbuf = d.pbuf := rfl
@[simp] theorem DevState.driveCs_wp (d : DevState) (l : Level) : (d.driveCs l).wp = d.wp := rfl
@[simp] theorem DevState.driveCs_pix (d : DevState) (l : Level) : (d.driveCs l).pix = d.pix := rfl
@[simp] theorem DevState.driveCs_wdone (d : DevState) (l : Level) : (d.driveCs l).wdone = d.wdone := rfl
@[simp] theorem DevState.driveCs_wseq (d : DevState) (l : Level) : (d.driveCs l).wseq = d.wseq := rfl
@[simp] theorem DevState.driveCs_fm (d : DevState) (l : Level) : (d.driveCs l).fm = d.fm := rfl
@[simp] theorem DevState.driveCs_phase (d : DevState) (l : Level) : (d.driveCs l).phase = d.phase := rfl
@[simp] theorem DevState.driveCs_quiet (d : DevState) (l : Level) : (d.driveCs l).quiet = d.quiet := rfl
@[simp] theorem DevState.driveCs_fault (d : DevState) (l : Level) : (d.driveCs l).fault = d.fault := rfl
@[simp] theorem DevState.driveCs_csx (d : DevState) (l : Level) : (d.driveCs l).csx = some l := rfl
@[simp] theorem DevState.driveCs_dcx (d : DevState) (l : Level) : (d.driveCs l).dcx = d.dcx := rfl
@[simp] theorem DevState.driveCs_resx (d : DevState) (l : Level) : (d.driveCs l).resx = d.resx := rfl
@[simp] theorem DevState.driveCs_bl (d : DevState) (l : Level) : (d.driveCs l).bl = d.bl := rfl

/-! ## Command/data select line (10_state.md R40) -/

@[simp] theorem DevState.driveDc_sc (d : DevState) (l : Level) : (d.driveDc l).sc = d.sc := rfl
@[simp] theorem DevState.driveDc_ec (d : DevState) (l : Level) : (d.driveDc l).ec = d.ec := rfl
@[simp] theorem DevState.driveDc_sp (d : DevState) (l : Level) : (d.driveDc l).sp = d.sp := rfl
@[simp] theorem DevState.driveDc_ep (d : DevState) (l : Level) : (d.driveDc l).ep = d.ep := rfl
@[simp] theorem DevState.driveDc_madctl (d : DevState) (l : Level) : (d.driveDc l).madctl = d.madctl := rfl
@[simp] theorem DevState.driveDc_cfg (d : DevState) (l : Level) : (d.driveDc l).cfg = d.cfg := rfl
@[simp] theorem DevState.driveDc_sleep (d : DevState) (l : Level) : (d.driveDc l).sleep = d.sleep := rfl
@[simp] theorem DevState.driveDc_displayOn (d : DevState) (l : Level) : (d.driveDc l).displayOn = d.displayOn := rfl
@[simp] theorem DevState.driveDc_cmd (d : DevState) (l : Level) : (d.driveDc l).cmd = d.cmd := rfl
@[simp] theorem DevState.driveDc_pidx (d : DevState) (l : Level) : (d.driveDc l).pidx = d.pidx := rfl
@[simp] theorem DevState.driveDc_pbuf (d : DevState) (l : Level) : (d.driveDc l).pbuf = d.pbuf := rfl
@[simp] theorem DevState.driveDc_wp (d : DevState) (l : Level) : (d.driveDc l).wp = d.wp := rfl
@[simp] theorem DevState.driveDc_pix (d : DevState) (l : Level) : (d.driveDc l).pix = d.pix := rfl
@[simp] theorem DevState.driveDc_wdone (d : DevState) (l : Level) : (d.driveDc l).wdone = d.wdone := rfl
@[simp] theorem DevState.driveDc_wseq (d : DevState) (l : Level) : (d.driveDc l).wseq = d.wseq := rfl
@[simp] theorem DevState.driveDc_fm (d : DevState) (l : Level) : (d.driveDc l).fm = d.fm := rfl
@[simp] theorem DevState.driveDc_phase (d : DevState) (l : Level) : (d.driveDc l).phase = d.phase := rfl
@[simp] theorem DevState.driveDc_quiet (d : DevState) (l : Level) : (d.driveDc l).quiet = d.quiet := rfl
@[simp] theorem DevState.driveDc_fault (d : DevState) (l : Level) : (d.driveDc l).fault = d.fault := rfl
@[simp] theorem DevState.driveDc_csx (d : DevState) (l : Level) : (d.driveDc l).csx = d.csx := rfl
@[simp] theorem DevState.driveDc_dcx (d : DevState) (l : Level) : (d.driveDc l).dcx = some l := rfl
@[simp] theorem DevState.driveDc_resx (d : DevState) (l : Level) : (d.driveDc l).resx = d.resx := rfl
@[simp] theorem DevState.driveDc_bl (d : DevState) (l : Level) : (d.driveDc l).bl = d.bl := rfl

/-! ## Backlight line (10_state.md R40) -/

@[simp] theorem DevState.driveBl_sc (d : DevState) (l : Level) : (d.driveBl l).sc = d.sc := rfl
@[simp] theorem DevState.driveBl_ec (d : DevState) (l : Level) : (d.driveBl l).ec = d.ec := rfl
@[simp] theorem DevState.driveBl_sp (d : DevState) (l : Level) : (d.driveBl l).sp = d.sp := rfl
@[simp] theorem DevState.driveBl_ep (d : DevState) (l : Level) : (d.driveBl l).ep = d.ep := rfl
@[simp] theorem DevState.driveBl_madctl (d : DevState) (l : Level) : (d.driveBl l).madctl = d.madctl := rfl
@[simp] theorem DevState.driveBl_cfg (d : DevState) (l : Level) : (d.driveBl l).cfg = d.cfg := rfl
@[simp] theorem DevState.driveBl_sleep (d : DevState) (l : Level) : (d.driveBl l).sleep = d.sleep := rfl
@[simp] theorem DevState.driveBl_displayOn (d : DevState) (l : Level) : (d.driveBl l).displayOn = d.displayOn := rfl
@[simp] theorem DevState.driveBl_cmd (d : DevState) (l : Level) : (d.driveBl l).cmd = d.cmd := rfl
@[simp] theorem DevState.driveBl_pidx (d : DevState) (l : Level) : (d.driveBl l).pidx = d.pidx := rfl
@[simp] theorem DevState.driveBl_pbuf (d : DevState) (l : Level) : (d.driveBl l).pbuf = d.pbuf := rfl
@[simp] theorem DevState.driveBl_wp (d : DevState) (l : Level) : (d.driveBl l).wp = d.wp := rfl
@[simp] theorem DevState.driveBl_pix (d : DevState) (l : Level) : (d.driveBl l).pix = d.pix := rfl
@[simp] theorem DevState.driveBl_wdone (d : DevState) (l : Level) : (d.driveBl l).wdone = d.wdone := rfl
@[simp] theorem DevState.driveBl_wseq (d : DevState) (l : Level) : (d.driveBl l).wseq = d.wseq := rfl
@[simp] theorem DevState.driveBl_fm (d : DevState) (l : Level) : (d.driveBl l).fm = d.fm := rfl
@[simp] theorem DevState.driveBl_phase (d : DevState) (l : Level) : (d.driveBl l).phase = d.phase := rfl
@[simp] theorem DevState.driveBl_quiet (d : DevState) (l : Level) : (d.driveBl l).quiet = d.quiet := rfl
@[simp] theorem DevState.driveBl_fault (d : DevState) (l : Level) : (d.driveBl l).fault = d.fault := rfl
@[simp] theorem DevState.driveBl_csx (d : DevState) (l : Level) : (d.driveBl l).csx = d.csx := rfl
@[simp] theorem DevState.driveBl_dcx (d : DevState) (l : Level) : (d.driveBl l).dcx = d.dcx := rfl
@[simp] theorem DevState.driveBl_resx (d : DevState) (l : Level) : (d.driveBl l).resx = d.resx := rfl
@[simp] theorem DevState.driveBl_bl (d : DevState) (l : Level) : (d.driveBl l).bl = some l := rfl

/-! ## Time (70_reset_and_hazards.md R280) -/

@[simp] theorem DevState.wait_sc (d : DevState) (t : Nat) : (d.wait t).sc = d.sc := rfl
@[simp] theorem DevState.wait_ec (d : DevState) (t : Nat) : (d.wait t).ec = d.ec := rfl
@[simp] theorem DevState.wait_sp (d : DevState) (t : Nat) : (d.wait t).sp = d.sp := rfl
@[simp] theorem DevState.wait_ep (d : DevState) (t : Nat) : (d.wait t).ep = d.ep := rfl
@[simp] theorem DevState.wait_madctl (d : DevState) (t : Nat) : (d.wait t).madctl = d.madctl := rfl
@[simp] theorem DevState.wait_cfg (d : DevState) (t : Nat) : (d.wait t).cfg = d.cfg := rfl
@[simp] theorem DevState.wait_sleep (d : DevState) (t : Nat) : (d.wait t).sleep = d.sleep := rfl
@[simp] theorem DevState.wait_displayOn (d : DevState) (t : Nat) : (d.wait t).displayOn = d.displayOn := rfl
@[simp] theorem DevState.wait_cmd (d : DevState) (t : Nat) : (d.wait t).cmd = d.cmd := rfl
@[simp] theorem DevState.wait_pidx (d : DevState) (t : Nat) : (d.wait t).pidx = d.pidx := rfl
@[simp] theorem DevState.wait_pbuf (d : DevState) (t : Nat) : (d.wait t).pbuf = d.pbuf := rfl
@[simp] theorem DevState.wait_wp (d : DevState) (t : Nat) : (d.wait t).wp = d.wp := rfl
@[simp] theorem DevState.wait_pix (d : DevState) (t : Nat) : (d.wait t).pix = d.pix := rfl
@[simp] theorem DevState.wait_wdone (d : DevState) (t : Nat) : (d.wait t).wdone = d.wdone := rfl
@[simp] theorem DevState.wait_wseq (d : DevState) (t : Nat) : (d.wait t).wseq = d.wseq := rfl
@[simp] theorem DevState.wait_fm (d : DevState) (t : Nat) : (d.wait t).fm = d.fm := rfl
@[simp] theorem DevState.wait_phase (d : DevState) (t : Nat) : (d.wait t).phase = d.phase.elapse t := rfl
@[simp] theorem DevState.wait_quiet (d : DevState) (t : Nat) : (d.wait t).quiet = d.quiet - min d.quiet t := rfl
@[simp] theorem DevState.wait_fault (d : DevState) (t : Nat) : (d.wait t).fault = d.fault := rfl
@[simp] theorem DevState.wait_csx (d : DevState) (t : Nat) : (d.wait t).csx = d.csx := rfl
@[simp] theorem DevState.wait_dcx (d : DevState) (t : Nat) : (d.wait t).dcx = d.dcx := rfl
@[simp] theorem DevState.wait_resx (d : DevState) (t : Nat) : (d.wait t).resx = d.resx := rfl
@[simp] theorem DevState.wait_bl (d : DevState) (t : Nat) : (d.wait t).bl = d.bl := rfl

/-! ## Raising a fault (60_exceptions.md R233) -/

@[simp] theorem DevState.raise_sc (d : DevState) (f : DeviceFault) : (d.raise f).sc = d.sc := by
  unfold DevState.raise; split <;> rfl
@[simp] theorem DevState.raise_ec (d : DevState) (f : DeviceFault) : (d.raise f).ec = d.ec := by
  unfold DevState.raise; split <;> rfl
@[simp] theorem DevState.raise_sp (d : DevState) (f : DeviceFault) : (d.raise f).sp = d.sp := by
  unfold DevState.raise; split <;> rfl
@[simp] theorem DevState.raise_ep (d : DevState) (f : DeviceFault) : (d.raise f).ep = d.ep := by
  unfold DevState.raise; split <;> rfl
@[simp] theorem DevState.raise_madctl (d : DevState) (f : DeviceFault) : (d.raise f).madctl = d.madctl := by
  unfold DevState.raise; split <;> rfl
@[simp] theorem DevState.raise_cfg (d : DevState) (f : DeviceFault) : (d.raise f).cfg = d.cfg := by
  unfold DevState.raise; split <;> rfl
@[simp] theorem DevState.raise_sleep (d : DevState) (f : DeviceFault) : (d.raise f).sleep = d.sleep := by
  unfold DevState.raise; split <;> rfl
@[simp] theorem DevState.raise_displayOn (d : DevState) (f : DeviceFault) : (d.raise f).displayOn = d.displayOn := by
  unfold DevState.raise; split <;> rfl
@[simp] theorem DevState.raise_cmd (d : DevState) (f : DeviceFault) : (d.raise f).cmd = d.cmd := by
  unfold DevState.raise; split <;> rfl
@[simp] theorem DevState.raise_pidx (d : DevState) (f : DeviceFault) : (d.raise f).pidx = d.pidx := by
  unfold DevState.raise; split <;> rfl
@[simp] theorem DevState.raise_pbuf (d : DevState) (f : DeviceFault) : (d.raise f).pbuf = d.pbuf := by
  unfold DevState.raise; split <;> rfl
@[simp] theorem DevState.raise_wp (d : DevState) (f : DeviceFault) : (d.raise f).wp = d.wp := by
  unfold DevState.raise; split <;> rfl
@[simp] theorem DevState.raise_pix (d : DevState) (f : DeviceFault) : (d.raise f).pix = d.pix := by
  unfold DevState.raise; split <;> rfl
@[simp] theorem DevState.raise_wdone (d : DevState) (f : DeviceFault) : (d.raise f).wdone = d.wdone := by
  unfold DevState.raise; split <;> rfl
@[simp] theorem DevState.raise_wseq (d : DevState) (f : DeviceFault) : (d.raise f).wseq = d.wseq := by
  unfold DevState.raise; split <;> rfl
@[simp] theorem DevState.raise_fm (d : DevState) (f : DeviceFault) : (d.raise f).fm = d.fm := by
  unfold DevState.raise; split <;> rfl
@[simp] theorem DevState.raise_phase (d : DevState) (f : DeviceFault) : (d.raise f).phase = d.phase := by
  unfold DevState.raise; split <;> rfl
@[simp] theorem DevState.raise_quiet (d : DevState) (f : DeviceFault) : (d.raise f).quiet = d.quiet := by
  unfold DevState.raise; split <;> rfl
@[simp] theorem DevState.raise_csx (d : DevState) (f : DeviceFault) : (d.raise f).csx = d.csx := by
  unfold DevState.raise; split <;> rfl
@[simp] theorem DevState.raise_dcx (d : DevState) (f : DeviceFault) : (d.raise f).dcx = d.dcx := by
  unfold DevState.raise; split <;> rfl
@[simp] theorem DevState.raise_resx (d : DevState) (f : DeviceFault) : (d.raise f).resx = d.resx := by
  unfold DevState.raise; split <;> rfl
@[simp] theorem DevState.raise_bl (d : DevState) (f : DeviceFault) : (d.raise f).bl = d.bl := by
  unfold DevState.raise; split <;> rfl

/-- The first fault is kept. -/
theorem DevState.raise_fault (d : DevState) (f : DeviceFault) : (d.raise f).fault = some (d.fault.getD f) := by
  unfold DevState.raise; split <;> simp_all

/-- On an unfaulted device raising writes the fault register and nothing else. -/
theorem DevState.raise_of_none {d : DevState} (h : d.fault = none) (f : DeviceFault) :
    d.raise f = { d with fault := some f } := by
  unfold DevState.raise; simp [h]

/-- On a faulted device raising does nothing. -/
theorem DevState.raise_of_some {d : DevState} (h : d.fault ≠ none) (f : DeviceFault) : d.raise f = d := by
  unfold DevState.raise; split
  · contradiction
  · rfl

/-! ## Address registers (00_scope.md R12) -/

@[simp] theorem DevState.x_setX_same (d : DevState) (i : WinReg) (v : Word16) : (d.setX i v).x i = some v := by
  cases i <;> rfl

theorem DevState.x_setX_other (d : DevState) {i j : WinReg} (v : Word16) (h : j ≠ i) : (d.setX i v).x j = d.x j := by
  cases i <;> cases j <;> first | rfl | exact absurd rfl h

end Machine

end Sys2Proof
end

