-- ==== Sys2Proof/Laws/Device.lean ====
section
/-!
SUPPORT. Laws of the device: runs, the taking of a byte on driven lines, accepting and routing, and what each can do.
-/

namespace Sys2Proof.Machine

/-! ## Levels -/

@[simp] theorem level_not_ne (l : Level) : l.not ≠ l := by cases l <;> decide

@[simp] theorem level_ne_not (l : Level) : l ≠ l.not := by cases l <;> decide

@[simp] theorem level_not_not (l : Level) : l.not.not = l := by cases l <;> rfl

/-! ## Runs -/

@[simp] theorem devRun_nil (p : Params) (d : DevState) : devRun p d [] = d := rfl

@[simp] theorem devRun_cons (p : Params) (d : DevState) (e : Event) (es : List Event) :
    devRun p d (e :: es) = devRun p (devStep p d e) es := rfl

theorem devRun_append (p : Params) (d : DevState) (xs ys : List Event) :
    devRun p d (xs ++ ys) = devRun p (devRun p d xs) ys := by simp [devRun, List.foldl_append]

/-! ## Taking a byte -/

/-- A receptive device with its lines driven takes a byte as its select line says. -/
theorem taking_receptive {p : Params} {d : DevState} (h : d.receptive) (hc : d.csx = some p.csActive) {l : Level}
    (hd : d.dcx = some l) : d.taking p = if l = p.dcCommand then .command else .data := by
  obtain ⟨h1, h2, h3⟩ := h
  simp [DevState.taking, h1, h2, h3, hc, hd]

/-- A faulted device ignores bytes (60_exceptions.md R235). -/
theorem taking_faulted {p : Params} {d : DevState} (h : d.fault ≠ none) : d.taking p = .ignored := by
  unfold DevState.taking
  split
  · rfl
  · simp [h]

/-- Whatever a byte is taken as, a command or data byte is taken only by a receptive device. -/
theorem receptive_of_taking {p : Params} {d : DevState} (h : d.taking p = .command ∨ d.taking p = .data) :
    d.receptive := by
  unfold DevState.taking at h
  split at h
  · simp at h
  · rename_i ph hph
    by_cases hf : d.fault = none
    · simp only [hf, ne_eq, not_true_eq_false, if_false] at h
      split at h
      · simp at h
      · split at h
        · simp at h
        · split at h
          · simp at h
          · split at h
            · simp at h
            · split at h
              · simp at h
              · refine ⟨?_, hf, by omega⟩
                cases hp : d.phase <;> simp_all
    · simp [hf] at h

/-- A data byte is taken under the data level of the select line (30_encoding.md R95 step 9). -/
theorem dcx_of_taking_data {p : Params} {d : DevState} (h : d.taking p = .data) : d.dcx = some p.dcCommand.not := by
  obtain ⟨h1, h2, h3⟩ := receptive_of_taking (.inr h)
  cases hc : d.csx with
  | none => simp [DevState.taking, h1, h2, hc] at h
  | some cs =>
    by_cases hcs : cs = p.csActive
    · subst hcs
      cases hd : d.dcx with
      | none => simp [DevState.taking, h1, h2, hc, hd] at h
      | some dc =>
        rw [taking_receptive ⟨h1, h2, h3⟩ hc hd] at h
        cases dc <;> cases hp : p.dcCommand <;> simp_all [Level.not]
    · simp [DevState.taking, h1, h2, hc, hcs] at h

/-- A fault raised by the taking is raised on an unfaulted device. -/
theorem fault_none_of_taking {p : Params} {d : DevState} {f : DeviceFault} (h : d.taking p = .faults f) :
    d.fault = none := by
  by_cases hf : d.fault = none
  · exact hf
  · rw [taking_faulted hf] at h; simp at h

/-- Everything a byte can do: nothing, a fault and nothing else, an accepted command, or a routed data byte. -/
theorem takeByte_cases (p : Params) (d : DevState) (b : Byte) :
    d.takeByte p b = d ∨
    (d.fault = none ∧ ∃ f, d.takeByte p b = { d with fault := some f }) ∨
    (d.receptive ∧ d.taking p = .command ∧ acceptCommand p b d = .ok (d.takeByte p b)) ∨
    (d.receptive ∧ d.taking p = .data ∧ routeData b d = .ok (d.takeByte p b)) := by
  unfold DevState.takeByte
  cases ht : d.taking p with
  | ignored => exact .inl rfl
  | faults f =>
    have hn := fault_none_of_taking ht
    exact .inr (.inl ⟨hn, f, DevState.raise_of_none hn f⟩)
  | command =>
    have hr := receptive_of_taking (.inl ht)
    cases ha : acceptCommand p b d with
    | ok d' => exact .inr (.inr (.inl ⟨hr, rfl, rfl⟩))
    | error f => exact .inr (.inl ⟨hr.2.1, f, DevState.raise_of_none hr.2.1 f⟩)
  | data =>
    have hr := receptive_of_taking (.inr ht)
    cases ha : routeData b d with
    | ok d' => exact .inr (.inr (.inr ⟨hr, rfl, rfl⟩))
    | error f => exact .inr (.inl ⟨hr.2.1, f, DevState.raise_of_none hr.2.1 f⟩)

/-! ## Accepting a command -/

/-- Everything an accepted command byte did: the command before it was complete, the code is known, and the effect at the
command byte was latched (30_encoding.md R105). -/
theorem acceptCommand_ok {p : Params} {b : Byte} {d d' : DevState} (h : acceptCommand p b d = .ok d') :
    unfinished d = none ∧ ∃ op, Opcode.ofByte b = some op ∧ acceptOpcode p op d = .ok d' := by
  unfold acceptCommand at h
  split at h
  · simp at h
  · rename_i hu
    split at h
    · simp at h
    · rename_i op ho; exact ⟨hu, op, ho, h⟩

/-- A complete command before it and a known code: the rest of the acceptance decides. -/
theorem acceptCommand_code {p : Params} {d : DevState} (h : unfinished d = none) (op : Opcode) :
    acceptCommand p op.code d = acceptOpcode p op d := by
  simp [acceptCommand, h]

/-- An unfinished command before it is the first fault. -/
theorem acceptCommand_unfinished {p : Params} {d : DevState} {f : DeviceFault} (h : unfinished d = some f) (b : Byte) :
    acceptCommand p b d = .error f := by simp [acceptCommand, h]

/-- The memory-write command is accepted exactly with a valid window after columns and rows (42_address_window.md R152,
R156). -/
theorem checkWindow_ok {p : Params} {d : DevState} {st : Word16 × Word16} (h : checkWindow p d = .ok st) :
    ∃ sc ec sp ep m, d.validWindow p sc ec sp ep m ∧ st = (sc, sp) := by
  unfold checkWindow at h
  split at h
  · simp at h
  · rename_i hx
    split at h
    · rename_i sc ec sp ep h1 h2 h3 h4
      split at h
      · simp at h
      · rename_i m hm
        split at h
        · simp at h
        · rename_i hw
          simp only [not_or, BitVec.not_lt, Nat.not_le] at hw
          simp only [Except.ok.injEq] at h
          exact ⟨sc, ec, sp, ep, m, ⟨by simpa using hx, h1, h2, h3, h4, hm, hw.1, hw.2.1, hw.2.2.1, hw.2.2.2⟩, h.symm⟩
    · simp at h

theorem checkWindow_of_valid {p : Params} {d : DevState} {sc ec sp ep : Word16} {m : Byte}
    (h : d.validWindow p sc ec sp ep m) : checkWindow p d = .ok (sc, sp) := by
  obtain ⟨h0, h1, h2, h3, h4, h5, h6, h7, h8, h9⟩ := h
  simp [checkWindow, h0, h1, h2, h3, h4, h5, BitVec.not_lt.mpr h6, BitVec.not_lt.mpr h7, Nat.not_le.mpr h8,
    Nat.not_le.mpr h9]

/-- Everything an accepted opcode did, command by command (30_encoding.md R105 steps 3 to 5). -/
theorem acceptOpcode_ok {p : Params} {op : Opcode} {d d' : DevState} (h : acceptOpcode p op d = .ok d') :
    (op = .slpout ∧ d' = (slpoutAtCommand d).latch .slpout .idle) ∨
    (op = .dispon ∧ d' = (disponAtCommand d).latch .dispon .idle) ∨
    (op = .caset ∧ d' = d.latch .caset .idle) ∨
    (op = .paset ∧ d' = d.latch .paset (d.wseq.atCommand .paset)) ∨
    (op = .ramwr ∧ d.wseq = .rowSet ∧ ∃ sc ec sp ep m, d.validWindow p sc ec sp ep m ∧
      d' = DevState.latch { d with wp := some (sc, sp), pix := [], wdone := false } .ramwr .idle) ∨
    (op = .madctl ∧ d' = d.latch .madctl .idle) ∨
    (∃ k, op = .cfg k ∧ d' = (cfgAtCommand k d).latch (.cfg k) .idle) := by
  unfold acceptOpcode at h
  split at h
  · simp at h
  · rename_i ho
    cases op with
    | ramwr =>
      have hw : d.wseq = .rowSet := by
        by_contra hne; simp [outOfOrder, hne] at ho
      simp only [atCommand, ramwrAtCommand] at h
      cases hc : checkWindow p d with
      | error f => simp [hc] at h
      | ok st =>
        obtain ⟨sc, ec, sp, ep, m, hv, rfl⟩ := checkWindow_ok hc
        simp only [hc, Except.ok.injEq] at h
        exact .inr (.inr (.inr (.inr (.inl ⟨rfl, hw, sc, ec, sp, ep, m, hv, h.symm⟩))))
    | _ => simp_all [atCommand, WSeq.atCommand]

/-! ## Data bytes -/

/-- Everything a latched parameter of the column command did. -/
theorem casetAtData_ok {b : Byte} {d d' : DevState} (h : casetAtData b d = .ok d') :
    d.pidx < 4 ∧ (d.pidx ≠ 3 ∧ d' = d.pushParam b ∨ d.pidx = 3 ∧ d' = loadColumns (d.pushParam b)) := by
  unfold casetAtData windowAtData at h
  split at h
  · split at h <;> simp_all
  · simp at h

/-- Everything a latched parameter of the row command did. -/
theorem pasetAtData_ok {b : Byte} {d d' : DevState} (h : pasetAtData b d = .ok d') :
    d.pidx < 4 ∧ (d.pidx ≠ 3 ∧ d' = d.pushParam b ∨ d.pidx = 3 ∧ d' = loadRows (d.pushParam b)) := by
  unfold pasetAtData windowAtData at h
  split at h
  · split at h <;> simp_all
  · simp at h

/-- Four latched bytes are loaded into the column registers. -/
theorem loadColumns_four {d : DevState} {d1 d2 d3 d4 : Byte} (h : d.pbuf = [d1, d2, d3, d4]) :
    loadColumns d = { d with sc := some (be16 d1 d2), ec := some (be16 d3 d4), wseq := .colSet } := by
  simp [loadColumns, startEnd, h, DevState.setX]

/-- Four latched bytes are loaded into the row registers. -/
theorem loadRows_four {d : DevState} {d1 d2 d3 d4 : Byte} (h : d.pbuf = [d1, d2, d3, d4]) :
    loadRows d = { d with sp := some (be16 d1 d2), ep := some (be16 d3 d4), wseq := d.wseq.atRows } := by
  simp [loadRows, startEnd, h, DevState.setX]

/-- Loading columns changes at most the column registers and the tracker. -/
theorem loadColumns_cases (d : DevState) :
    loadColumns d = d ∨ ∃ s e, loadColumns d = { d with sc := some s, ec := some e, wseq := .colSet } := by
  unfold loadColumns
  split
  · rename_i s e _; exact .inr ⟨s, e, rfl⟩
  · exact .inl rfl

/-- Loading rows changes at most the row registers and the tracker. -/
theorem loadRows_cases (d : DevState) :
    loadRows d = d ∨ ∃ s e, loadRows d = { d with sp := some s, ep := some e, wseq := d.wseq.atRows } := by
  unfold loadRows
  split
  · rename_i s e _; exact .inr ⟨s, e, rfl⟩
  · exact .inl rfl

/-- Everything a byte of the stream did: pending, or a whole pixel stored at the write pointer (42_address_window.md
R153, R154). -/
theorem ramwrAtData_ok {b : Byte} {d d' : DevState} (h : ramwrAtData b d = .ok d') :
    d.wdone = false ∧
    ((pixelOf (d.pix ++ [b]) = none ∧ d' = { d with pix := d.pix ++ [b], pidx := d.pidx + 1 }) ∨
     ∃ px c r sc ec ep, pixelOf (d.pix ++ [b]) = some px ∧ d.wp = some (c, r) ∧ d.sc = some sc ∧ d.ec = some ec ∧
       d.ep = some ep ∧ d' = { d with fm := d.fm.write c r px, pix := [], wp := some (advance sc ec ep c r).1,
                                      wdone := (advance sc ec ep c r).2, pidx := d.pidx + 1 }) := by
  unfold ramwrAtData at h
  split at h
  · simp at h
  · rename_i hw
    refine ⟨by simpa using hw, ?_⟩
    split at h
    · rename_i px hpx
      unfold storePixel at h
      split at h
      · rename_i c r sc ec ep h1 h2 h3 h4
        simp only [Except.ok.injEq] at h
        exact .inr ⟨px, c, r, sc, ec, ep, hpx, h1, h2, h3, h4, h.symm⟩
      · simp at h
    · rename_i hpx
      simp only [Except.ok.injEq] at h
      exact .inl ⟨hpx, h.symm⟩

/-- Three bytes and no fewer are a pixel. -/
theorem pixelOf_eq_some {l : List Byte} {px : Pixel} : pixelOf l = some px ↔ l = [px.r, px.g, px.b] := by
  match l with
  | [] => simp [pixelOf]
  | [_] => simp [pixelOf]
  | [_, _] => simp [pixelOf]
  | [r, g, b] => cases px; simp [pixelOf]
  | _ :: _ :: _ :: _ :: _ => simp [pixelOf]

theorem pixelOf_eq_none {l : List Byte} : pixelOf l = none ↔ l.length ≠ 3 := by
  match l with
  | [] => simp [pixelOf]
  | [_] => simp [pixelOf]
  | [_, _] => simp [pixelOf]
  | [r, g, b] => simp [pixelOf]
  | _ :: _ :: _ :: _ :: l => simp [pixelOf]

/-- The write pointer stays inside the window, and the stream is done exactly at its last address
(42_address_window.md R154). -/
theorem advance_inside {sc ec sp ep c r : Word16} (h1 : sc ≤ c) (h2 : c ≤ ec) (h3 : sp ≤ r) (h4 : r ≤ ep) :
    sc ≤ (advance sc ec ep c r).1.1 ∧ (advance sc ec ep c r).1.1 ≤ ec ∧ sp ≤ (advance sc ec ep c r).1.2 ∧
    (advance sc ec ep c r).1.2 ≤ ep ∧
    ((advance sc ec ep c r).2 = true → (advance sc ec ep c r).1 = (ec, ep)) := by
  unfold advance
  have := sc.isLt; have := ec.isLt; have := ep.isLt
  have one : (1 : Word16).toNat = 1 := rfl
  simp only [BitVec.le_def, BitVec.lt_def] at *
  split
  · refine ⟨?_, ?_, h3, h4, by simp⟩ <;> simp only [BitVec.toNat_add, one] <;> omega
  · split
    · refine ⟨by simp, ?_, ?_, ?_, by simp⟩ <;> simp only [BitVec.toNat_add, one] <;> omega
    · refine ⟨h1, h2, h3, h4, fun _ => ?_⟩
      simp only [Prod.mk.injEq]
      exact ⟨BitVec.eq_of_toNat_eq (by omega), BitVec.eq_of_toNat_eq (by omega)⟩

/-- Everything an access-control byte did (43_access_control.md R170). -/
theorem madctlAtData_ok {b : Byte} {d d' : DevState} (h : madctlAtData b d = .ok d') :
    d.pidx = 0 ∧ d' = { d with fm := fmAfterMadctl b d, madctl := some b, pidx := 1 } := by
  unfold madctlAtData at h
  split at h
  · rename_i h0; simp only [Except.ok.injEq] at h; exact ⟨h0, h.symm⟩
  · simp at h

/-- Everything a configuration byte did (40_panel_config.md R120). -/
theorem cfgAtData_ok {k : CfgCode} {b : Byte} {d d' : DevState} (h : cfgAtData k b d = .ok d') :
    ∃ old, d.cfg.get k = some old ∧ d' = { d with cfg := d.cfg.set k (some (old ++ [b])), pidx := d.pidx + 1 } := by
  unfold cfgAtData at h
  split at h
  · rename_i old ho; simp only [Except.ok.injEq] at h; exact ⟨old, ho, h.symm⟩
  · simp at h

/-- The command a routed data byte belongs to (30_encoding.md R107). -/
theorem routeData_ok {b : Byte} {d d' : DevState} (h : routeData b d = .ok d') :
    (d.cmd = some .caset ∧ casetAtData b d = .ok d') ∨ (d.cmd = some .paset ∧ pasetAtData b d = .ok d') ∨
    (d.cmd = some .ramwr ∧ ramwrAtData b d = .ok d') ∨ (d.cmd = some .madctl ∧ madctlAtData b d = .ok d') ∨
    ∃ k, d.cmd = some (.cfg k) ∧ cfgAtData k b d = .ok d' := by
  unfold routeData at h
  split at h <;> simp_all

end Sys2Proof.Machine
end

