-- ==== Sys2Proof/Laws/Driver.lean ====
section
/-!
SUPPORT. Laws of the host's operations: what none of them touches, and the solid buffer of `Clear`.
-/

namespace Sys2Proof.Machine

/-- No host operation touches the device: what it does there are the events it emits (00_scope.md R17). -/
theorem perform_frame {op : HostOp} {s t : State} (h : perform op s = .next t) :
    t.dev = s.dev ∧ t.params = s.params ∧ t.ops = s.ops := by
  cases op <;> simp only [perform, State.emits, State.emitsWindow, State.returns, State.boots, State.makesCanvas,
    State.changesCanvas, State.readsCanvas, State.flushesCanvas, State.clears, State.makesFullScreen, State.turns] at h
  all_goals repeat' split at h
  all_goals simp at h
  all_goals subst h; exact ⟨rfl, rfl, rfl⟩

@[simp] theorem solid_length (n : Nat) (px : Pixel) : (solid n px).length = n * bytesPerPixel := by
  induction n with
  | zero => simp [solid]
  | succ n ih => simp [solid, ih, bytesPerPixel]; omega

/-- A solid buffer holds its colour at every pixel (44_host_driver.md R195). -/
theorem solid_get {n k : Nat} (px : Pixel) (h : k < n) :
    (solid n px)[3 * k]? = some px.r ∧ (solid n px)[3 * k + 1]? = some px.g ∧ (solid n px)[3 * k + 2]? = some px.b := by
  induction n generalizing k with
  | zero => omega
  | succ n ih =>
    cases k with
    | zero => simp [solid]
    | succ k =>
      simp only [solid, show 3 * (k + 1) = 3 * k + 1 + 1 + 1 by omega, show 3 * k + 1 + 1 + 1 + 2 = 3 * k + 2 + 1 + 1 + 1 by omega, List.getElem?_cons_succ]
      exact ih (by omega)

/-- The window of a rectangle whose addresses fit 16 bits, as instructions (44_host_driver.md R190). -/
theorem setWindowTrace_some {p : Params} {x0 y0 x1 y1 : Nat}
    (h : x0 + p.offsetX ≤ 0xFFFF ∧ x1 + p.offsetX ≤ 0xFFFF ∧ y0 + p.offsetY ≤ 0xFFFF ∧ y1 + p.offsetY ≤ 0xFFFF) :
    setWindowTrace p x0 y0 x1 y1 = some
      (instrEvents p (.caset (BitVec.ofNat 16 (x0 + p.offsetX)) (BitVec.ofNat 16 (x1 + p.offsetX))) ++
       instrEvents p (.paset (BitVec.ofNat 16 (y0 + p.offsetY)) (BitVec.ofNat 16 (y1 + p.offsetY))) ++
       instrEvents p (.ramwr [])) := by
  rw [setWindowTrace, if_pos h]
  simp [instrEvents, Instr.opcode, Instr.data, writeReg, dataTx]

end Sys2Proof.Machine
end

