-- ==== Sys2Proof/Laws/PerInstr.lean ====
section
/-!
SUPPORT. Statements about every instruction as syntax, one lemma for each constructor. DataCount: the number of data bytes
is the one the format of the instruction gives (30_encoding.md R97).
-/

namespace Sys2Proof.Laws.DataCount

/-- The data bytes of an instruction are as many as its format says; whole pixels for the stream of a well-formed one
(30_encoding.md R97). -/
def Statement (i : Instr) : Prop :=
  match i.opcode.format with
  | .f0 => i.data = []
  | .f1 => i.data.length = 1
  | .f4 => i.data.length = 4
  | .fs => i.wellFormed = true → i.data.length % bytesPerPixel = 0
  | .fv => i.wellFormed = true

theorem slpout : Statement .slpout := rfl
theorem dispon : Statement .dispon := rfl
theorem caset (s e : Word16) : Statement (.caset s e) := rfl
theorem paset (s e : Word16) : Statement (.paset s e) := rfl
theorem ramwr (stream : List Byte) : Statement (.ramwr stream) := fun h => by
  simpa [Instr.wellFormed, wholePixels, Instr.data] using h
theorem madctl (m : Byte) : Statement (.madctl m) := rfl
theorem cfgF7 (d : List Byte) : Statement (.cfgF7 d) := rfl
theorem cfgC0 (d : List Byte) : Statement (.cfgC0 d) := rfl
theorem cfgC1 (d : List Byte) : Statement (.cfgC1 d) := rfl
theorem cfgC5 (d : List Byte) : Statement (.cfgC5 d) := rfl
theorem cfgB1 (d : List Byte) : Statement (.cfgB1 d) := rfl
theorem cfgB4 (d : List Byte) : Statement (.cfgB4 d) := rfl
theorem cfgB6 (d : List Byte) : Statement (.cfgB6 d) := rfl
theorem cfgB7 (d : List Byte) : Statement (.cfgB7 d) := rfl
theorem cfgBE (d : List Byte) : Statement (.cfgBE d) := rfl
theorem cfgE9 (d : List Byte) : Statement (.cfgE9 d) := rfl
theorem pixfmt (d : List Byte) : Statement (.pixfmt d) := rfl
theorem cfgE0 (d : List Byte) : Statement (.cfgE0 d) := rfl
theorem cfgE1 (d : List Byte) : Statement (.cfgE1 d) := rfl

end Sys2Proof.Laws.DataCount
end

