-- ==== Sys2Proof/Laws/Run.lean ====
section
/-!
SUPPORT. What a transaction and a whole command do to the device: the lines decide nothing but the taking of a byte, so a
transaction is its bytes accepted or routed one after the other, with the lines set around them.
-/

namespace Sys2Proof.Machine

/-! ## The lines are read only when a byte is taken -/

/-- The device with chip-select and select line at given levels. -/
def DevState.withLines (d : DevState) (c e : Option Level) : DevState := { d with csx := c, dcx := e }

@[simp] theorem withLines_withLines (d : DevState) (c e c' e' : Option Level) :
    (d.withLines c e).withLines c' e' = d.withLines c' e' := rfl

@[simp] theorem withLines_self (d : DevState) : d.withLines d.csx d.dcx = d := rfl

theorem driveCs_withLines (d : DevState) (c e : Option Level) (l : Level) :
    (d.withLines c e).driveCs l = d.withLines (some l) e := rfl

theorem driveDc_withLines (d : DevState) (c e : Option Level) (l : Level) :
    (d.withLines c e).driveDc l = d.withLines c (some l) := rfl

theorem raise_withLines (d : DevState) (f : DeviceFault) (c e : Option Level) :
    (d.withLines c e).raise f = (d.raise f).withLines c e := by
  by_cases h : d.fault = none
  · rw [DevState.raise_of_none h, DevState.raise_of_none (d := d.withLines c e) h]; rfl
  · rw [DevState.raise_of_some h, DevState.raise_of_some (d := d.withLines c e) h]

theorem unfinished_withLines (d : DevState) (c e : Option Level) : unfinished (d.withLines c e) = unfinished d := rfl

theorem checkWindow_withLines (p : Params) (d : DevState) (c e : Option Level) :
    checkWindow p (d.withLines c e) = checkWindow p d := rfl

theorem atCommand_withLines (p : Params) (op : Opcode) (d : DevState) (c e : Option Level) :
    atCommand p op (d.withLines c e) = (atCommand p op d).map (fun d' => d'.withLines c e) := by
  cases op with
  | ramwr =>
    simp only [atCommand, ramwrAtCommand, checkWindow_withLines]
    cases checkWindow p d <;> rfl
  | _ => rfl

theorem acceptCommand_withLines (p : Params) (b : Byte) (d : DevState) (c e : Option Level) :
    acceptCommand p b (d.withLines c e) = (acceptCommand p b d).map (fun d' => d'.withLines c e) := by
  unfold acceptCommand
  rw [unfinished_withLines]
  cases unfinished d with
  | some f => rfl
  | none =>
    cases Opcode.ofByte b with
    | none => rfl
    | some op =>
      simp only [acceptOpcode]
      have ho : outOfOrder op (d.withLines c e) = outOfOrder op d := rfl
      rw [ho, atCommand_withLines]
      cases outOfOrder op d with
      | some f => rfl
      | none => cases atCommand p op d <;> rfl

theorem loadColumns_withLines (d : DevState) (c e : Option Level) :
    loadColumns (d.withLines c e) = (loadColumns d).withLines c e := by
  have hp : (d.withLines c e).pbuf = d.pbuf := rfl
  unfold loadColumns
  rw [hp]
  cases startEnd d.pbuf <;> rfl

theorem loadRows_withLines (d : DevState) (c e : Option Level) :
    loadRows (d.withLines c e) = (loadRows d).withLines c e := by
  have hp : (d.withLines c e).pbuf = d.pbuf := rfl
  unfold loadRows
  rw [hp]
  cases startEnd d.pbuf <;> rfl

theorem routeData_withLines (b : Byte) (d : DevState) (c e : Option Level) :
    routeData b (d.withLines c e) = (routeData b d).map (fun d' => d'.withLines c e) := by
  have hc : (d.withLines c e).cmd = d.cmd := rfl
  unfold routeData
  rw [hc]
  rcases d.cmd with _ | (_ | _ | _ | _ | _ | _ | k)
  · rfl
  · rfl
  · rfl
  · simp only [casetAtData, windowAtData]
    have h1 : (d.withLines c e).pidx = d.pidx := rfl
    have h2 : (d.withLines c e).pushParam b = (d.pushParam b).withLines c e := rfl
    rw [h1, h2, loadColumns_withLines]
    split
    · split <;> rfl
    · rfl
  · simp only [pasetAtData, windowAtData]
    have h1 : (d.withLines c e).pidx = d.pidx := rfl
    have h2 : (d.withLines c e).pushParam b = (d.pushParam b).withLines c e := rfl
    rw [h1, h2, loadRows_withLines]
    split
    · split <;> rfl
    · rfl
  · simp only [ramwrAtData, storePixel]
    have h1 : (d.withLines c e).wdone = d.wdone := rfl
    have h2 : (d.withLines c e).pix = d.pix := rfl
    have h3 : (d.withLines c e).wp = d.wp := rfl
    have h4 : (d.withLines c e).sc = d.sc := rfl
    have h5 : (d.withLines c e).ec = d.ec := rfl
    have h6 : (d.withLines c e).ep = d.ep := rfl
    have h7 : (d.withLines c e).pidx = d.pidx := rfl
    rw [h1, h2, h3, h4, h5, h6, h7]
    split
    · rfl
    · split
      · split <;> rfl
      · rfl
  · simp only [madctlAtData]
    have h1 : (d.withLines c e).pidx = d.pidx := rfl
    rw [h1]
    split <;> rfl
  · simp only [cfgAtData]
    have h1 : (d.withLines c e).cfg = d.cfg := rfl
    rw [h1]
    split <;> rfl

/-! ## What accepting and routing leave alone -/

/-- An accepted command byte changes no line, no phase and no fault. -/
theorem acceptCommand_frame {p : Params} {b : Byte} {d d' : DevState} (h : acceptCommand p b d = .ok d') :
    d'.phase = d.phase ∧ d'.fault = d.fault ∧ d'.csx = d.csx ∧ d'.dcx = d.dcx ∧ d'.resx = d.resx ∧ d'.bl = d.bl := by
  obtain ⟨_, op, _, ho⟩ := acceptCommand_ok h
  rcases acceptOpcode_ok ho with ⟨rfl, rfl⟩ | ⟨rfl, rfl⟩ | ⟨rfl, rfl⟩ | ⟨rfl, rfl⟩ |
    ⟨rfl, _, sc, ec, sp, ep, m, _, rfl⟩ | ⟨rfl, rfl⟩ | ⟨k, rfl, rfl⟩ <;>
    simp [slpoutAtCommand, disponAtCommand, cfgAtCommand]

/-- A routed data byte changes no line, no phase, no timer, no fault, no flag and no latched command. -/
theorem routeData_frame {b : Byte} {d d' : DevState} (h : routeData b d = .ok d') :
    d'.phase = d.phase ∧ d'.quiet = d.quiet ∧ d'.fault = d.fault ∧ d'.csx = d.csx ∧ d'.dcx = d.dcx ∧
    d'.resx = d.resx ∧ d'.bl = d.bl ∧ d'.sleep = d.sleep ∧ d'.displayOn = d.displayOn ∧ d'.cmd = d.cmd := by
  rcases routeData_ok h with ⟨_, h⟩ | ⟨_, h⟩ | ⟨_, h⟩ | ⟨_, h⟩ | ⟨k, _, h⟩
  · obtain ⟨_, ⟨_, rfl⟩ | ⟨_, rfl⟩⟩ := casetAtData_ok h
    · simp
    · rcases loadColumns_cases (d.pushParam b) with h | ⟨s, e, h⟩ <;> simp [h]
  · obtain ⟨_, ⟨_, rfl⟩ | ⟨_, rfl⟩⟩ := pasetAtData_ok h
    · simp
    · rcases loadRows_cases (d.pushParam b) with h | ⟨s, e, h⟩ <;> simp [h]
  · obtain ⟨_, ⟨_, rfl⟩ | ⟨px, c, r, sc, ec, ep, _, _, _, _, _, rfl⟩⟩ := ramwrAtData_ok h <;> simp
  · obtain ⟨_, rfl⟩ := madctlAtData_ok h; simp
  · obtain ⟨old, _, rfl⟩ := cfgAtData_ok h; simp

/-! ## Transactions -/

/-- The bytes of one transmission, taken one after the other. -/
def DevState.takeBytes (p : Params) (d : DevState) (bs : List Byte) : DevState := bs.foldl (fun d b => d.takeByte p b) d

/-- Data bytes routed one after the other until one faults. -/
def DevState.feed (d : DevState) : List Byte → DevState
  | [] => d
  | b :: bs =>
    match routeData b d with
    | .ok d' => d'.feed bs
    | .error f => { d with fault := some f }

theorem devRun_bytes (p : Params) (d : DevState) (bs : List Byte) : devRun p d (bs.map .byte) = d.takeBytes p bs := by
  induction bs generalizing d with
  | nil => rfl
  | cons b bs ih => exact ih (d.takeByte p b)

/-- A transmission sets the lines, gives its bytes, and releases chip-select (30_encoding.md R93). -/
theorem devRun_exchange (p : Params) (kind : Kind) (d : DevState) (bs : List Byte) :
    devRun p d (exchange p kind bs) =
      ((d.withLines (some p.csActive) (some (kindLevel p kind))).takeBytes p bs).driveCs p.csActive.not := by
  unfold exchange
  rw [devRun_cons, devRun_cons, devRun_append, devRun_bytes]
  rfl

/-- A device that does not take bytes keeps its state through them. -/
theorem takeBytes_ignored {p : Params} {d : DevState} (h : d.taking p = .ignored) (bs : List Byte) :
    d.takeBytes p bs = d := by
  induction bs with
  | nil => rfl
  | cons b bs ih =>
    have : d.takeByte p b = d := by simp [DevState.takeByte, h]
    simpa [DevState.takeBytes, this] using ih

/-- A faulted device keeps its state through bytes (60_exceptions.md R235). -/
theorem takeBytes_faulted {p : Params} {d : DevState} (h : d.fault ≠ none) (bs : List Byte) : d.takeBytes p bs = d :=
  takeBytes_ignored (taking_faulted h) bs

theorem receptive_withLines {d : DevState} {c e : Option Level} : (d.withLines c e).receptive ↔ d.receptive := Iff.rfl

/-- On driven data lines a receptive device routes its bytes. -/
theorem takeBytes_data {p : Params} {d : DevState} (h : d.receptive) (bs : List Byte) :
    (d.withLines (some p.csActive) (some p.dcCommand.not)).takeBytes p bs =
      (d.feed bs).withLines (some p.csActive) (some p.dcCommand.not) := by
  induction bs generalizing d with
  | nil => rfl
  | cons b bs ih =>
    have ht : (d.withLines (some p.csActive) (some p.dcCommand.not)).taking p = .data := by
      rw [taking_receptive (receptive_withLines.mpr h) rfl rfl]; simp
    have hstep : (d.withLines (some p.csActive) (some p.dcCommand.not)).takeByte p b =
        (d.withLines (some p.csActive) (some p.dcCommand.not)).settle
          ((routeData b d).map (fun d' => d'.withLines (some p.csActive) (some p.dcCommand.not))) := by
      simp only [DevState.takeByte, ht, routeData_withLines]
    simp only [DevState.takeBytes, List.foldl_cons]
    rw [hstep]
    cases hr : routeData b d with
    | ok d' =>
      have hf := routeData_frame hr
      have h' : d'.receptive := ⟨hf.1.trans h.1, hf.2.2.1.trans h.2.1, hf.2.1.trans h.2.2⟩
      simpa [DevState.takeBytes, DevState.feed, hr, Except.map, DevState.settle] using ih h'
    | error f =>
      have hraise : (d.withLines (some p.csActive) (some p.dcCommand.not)).raise f =
          ({ d with fault := some f } : DevState).withLines (some p.csActive) (some p.dcCommand.not) := by
        rw [raise_withLines, DevState.raise_of_none h.2.1]
      have := takeBytes_faulted (p := p)
        (d := ({ d with fault := some f } : DevState).withLines (some p.csActive) (some p.dcCommand.not))
        (by simp [DevState.withLines]) bs
      simpa [DevState.takeBytes, DevState.feed, hr, Except.map, DevState.settle, hraise] using this

/-- A command transaction on a receptive device: the byte accepted, or its fault (30_encoding.md R94, R95, R105). -/
theorem devRun_commandTx {p : Params} {d : DevState} (h : d.receptive) (b : Byte) :
    devRun p d (commandTx p b) =
      match acceptCommand p b d with
      | .ok d' => d'.withLines (some p.csActive.not) (some p.dcCommand)
      | .error f => { d with fault := some f, csx := some p.csActive.not, dcx := some p.dcCommand } := by
  unfold commandTx
  rw [devRun_exchange]
  have ht : (d.withLines (some p.csActive) (some p.dcCommand)).taking p = .command := by
    rw [taking_receptive (receptive_withLines.mpr h) rfl rfl]; simp
  simp only [kindLevel, DevState.takeBytes, List.foldl_cons, List.foldl_nil, DevState.takeByte, ht,
    acceptCommand_withLines]
  cases acceptCommand p b d with
  | ok d' => rfl
  | error f =>
    simp only [Except.map, DevState.settle, raise_withLines, DevState.raise_of_none h.2.1]
    rfl

/-- A data transaction on a receptive device: its bytes routed (30_encoding.md R94, R95, R107). -/
theorem devRun_dataTx {p : Params} {d : DevState} (h : d.receptive) {bs : List Byte} (hne : bs ≠ []) :
    devRun p d (dataTx p bs) = (d.feed bs).withLines (some p.csActive.not) (some p.dcCommand.not) := by
  cases bs with
  | nil => exact absurd rfl hne
  | cons b bs =>
    simp only [dataTx]
    rw [devRun_exchange]
    simp only [kindLevel]
    rw [takeBytes_data h]
    rfl

/-! ## Whole commands -/

theorem afterFrame_eq (d : DevState) (p : Params) (data : List Byte) :
    d.afterFrame p data =
      d.withLines (some p.csActive.not) (some (if data = [] then p.dcCommand else p.dcCommand.not)) := rfl

theorem feed_withLines (d : DevState) (c e : Option Level) (bs : List Byte) :
    (d.withLines c e).feed bs = (d.feed bs).withLines c e := by
  induction bs generalizing d with
  | nil => rfl
  | cons b bs ih =>
    simp only [DevState.feed, routeData_withLines]
    cases routeData b d with
    | ok d' => exact ih d'
    | error f => rfl

/-- A data transaction on a faulted device changes at most the lines. -/
theorem devRun_dataTx_faulted {p : Params} {d : DevState} (h : d.fault ≠ none) {bs : List Byte} (hne : bs ≠ []) :
    devRun p d (dataTx p bs) = d.withLines (some p.csActive.not) (some p.dcCommand.not) := by
  cases bs with
  | nil => exact absurd rfl hne
  | cons b bs =>
    simp only [dataTx]
    rw [devRun_exchange, takeBytes_faulted (by simpa [DevState.withLines] using h)]
    rfl

/-- A whole command whose code is accepted and leaves no quiet time: its data bytes are routed after it. -/
theorem devRun_writeReg_ok {p : Params} {d d' : DevState} {b : Byte} (h : d.receptive)
    (ha : acceptCommand p b d = .ok d') (hq : d'.quiet = 0) (bs : List Byte) :
    devRun p d (writeReg p b bs) = (d'.feed bs).afterFrame p bs := by
  have hf := acceptCommand_frame ha
  unfold writeReg
  rw [devRun_append, devRun_commandTx h, ha]
  by_cases hne : bs = []
  · subst hne; rfl
  · have hr : (d'.withLines (some p.csActive.not) (some p.dcCommand)).receptive :=
      ⟨hf.1.trans h.1, hf.2.1.trans h.2.1, hq⟩
    simp only
    rw [devRun_dataTx hr hne, feed_withLines, withLines_withLines, afterFrame_eq, if_neg hne]

/-- A whole command whose code faults: the fault is recorded, the data bytes are ignored (60_exceptions.md R233, R235). -/
theorem devRun_writeReg_error {p : Params} {d : DevState} {b : Byte} {f : DeviceFault} (h : d.receptive)
    (ha : acceptCommand p b d = .error f) (bs : List Byte) :
    devRun p d (writeReg p b bs) = DevState.afterFrame { d with fault := some f } p bs := by
  unfold writeReg
  rw [devRun_append, devRun_commandTx h, ha]
  by_cases hne : bs = []
  · subst hne; rfl
  · simp only
    rw [devRun_dataTx_faulted (by simp) hne, afterFrame_eq, if_neg hne]
    rfl

/-- How a byte is taken on driven lines (30_encoding.md R95 steps 1, 2, 6 to 9). -/
theorem taking_driven (p : Params) (d : DevState) (l : Level) :
    (d.withLines (some p.csActive) (some l)).taking p =
      match d.phase with
      | .resetHeld _ => .ignored
      | .powerOn => if d.fault ≠ none then .ignored else .faults .notReset
      | .ready =>
        if d.fault ≠ none then .ignored
        else if 0 < d.quiet then .faults (.earlyAccess d.quiet)
        else if l = p.dcCommand then .command else .data := by
  unfold DevState.taking
  simp only [DevState.withLines]
  by_cases hf : d.fault = none <;> by_cases hq : 0 < d.quiet <;> by_cases hl : l = p.dcCommand <;>
    cases d.phase <;> simp [hf, hq, hl]

/-- A whole command on a device that ignores bytes changes the lines and nothing else. -/
theorem devRun_writeReg_ignored {p : Params} {d : DevState}
    (h : ∀ l, (d.withLines (some p.csActive) (some l)).taking p = .ignored) (b : Byte) (bs : List Byte) :
    devRun p d (writeReg p b bs) = d.afterFrame p bs := by
  unfold writeReg commandTx
  rw [devRun_append, devRun_exchange, takeBytes_ignored (h _)]
  cases bs with
  | nil => rfl
  | cons b' bs =>
    simp only [dataTx, driveCs_withLines]
    rw [devRun_exchange, withLines_withLines, takeBytes_ignored (h _)]
    rfl

/-- A whole command on a device held in reset, or on a faulted one (30_encoding.md R95 steps 1, 2). -/
theorem devRun_writeReg_held {p : Params} {d : DevState} (h : (∃ t, d.phase = .resetHeld t) ∨ d.fault ≠ none) (b : Byte)
    (bs : List Byte) : devRun p d (writeReg p b bs) = d.afterFrame p bs := by
  refine devRun_writeReg_ignored (fun l => ?_) b bs
  rw [taking_driven]
  rcases h with ⟨t, h⟩ | h
  · simp [h]
  · cases d.phase <;> simp [h]

/-- A whole command whose first byte faults: the fault is recorded, the rest is ignored. -/
theorem devRun_writeReg_faults {p : Params} {d : DevState} {f : DeviceFault}
    (h : (d.withLines (some p.csActive) (some p.dcCommand)).taking p = .faults f) (b : Byte) (bs : List Byte) :
    devRun p d (writeReg p b bs) = DevState.afterFrame { d with fault := some f } p bs := by
  have hn : (d.withLines (some p.csActive) (some p.dcCommand)).fault = none := fault_none_of_taking h
  have hstep : (d.withLines (some p.csActive) (some p.dcCommand)).takeByte p b =
      ({ d with fault := some f } : DevState).withLines (some p.csActive) (some p.dcCommand) := by
    simp only [DevState.takeByte, h]
    rw [DevState.raise_of_none hn]; rfl
  unfold writeReg commandTx
  rw [devRun_append, devRun_exchange]
  simp only [kindLevel, DevState.takeBytes, List.foldl_cons, List.foldl_nil, hstep]
  cases bs with
  | nil => rfl
  | cons b' bs => exact devRun_dataTx_faulted (p := p) (by simp [DevState.withLines]) (by simp)

/-- A whole command before the first reset (30_encoding.md R95 step 6). -/
theorem devRun_writeReg_powerOn {p : Params} {d : DevState} (h : d.phase = .powerOn) (hf : d.fault = none) (b : Byte)
    (bs : List Byte) : devRun p d (writeReg p b bs) = DevState.afterFrame { d with fault := some .notReset } p bs :=
  devRun_writeReg_faults (by rw [taking_driven]; simp [h, hf]) b bs

/-- A whole command inside a quiet time (30_encoding.md R95 step 7). -/
theorem devRun_writeReg_early {p : Params} {d : DevState} (h : d.phase = .ready) (hf : d.fault = none)
    (hq : 0 < d.quiet) (b : Byte) (bs : List Byte) :
    devRun p d (writeReg p b bs) = DevState.afterFrame { d with fault := some (.earlyAccess d.quiet) } p bs :=
  devRun_writeReg_faults (by rw [taking_driven]; simp [h, hf, hq]) b bs

/-- The ways a device can stand to a byte on driven lines. -/
theorem phase_cases (d : DevState) :
    ((∃ t, d.phase = .resetHeld t) ∨ d.fault ≠ none) ∨ (d.phase = .powerOn ∧ d.fault = none) ∨
    (d.phase = .ready ∧ d.fault = none ∧ 0 < d.quiet) ∨ d.receptive := by
  by_cases hf : d.fault = none
  · cases hp : d.phase with
    | resetHeld t => exact .inl (.inl ⟨t, rfl⟩)
    | powerOn => exact .inr (.inl ⟨rfl, hf⟩)
    | ready =>
      by_cases hq : d.quiet = 0
      · exact .inr (.inr (.inr ⟨hp, hf, hq⟩))
      · exact .inr (.inr (.inl ⟨rfl, hf, by omega⟩))
  · exact .inl (.inr hf)

/-- Every instruction is its command transmitted to the device, and its meaning answers a next state on every path. -/
theorem exec_eq (i : Instr) (s : State) : exec i s = .next (s.runCommand i.opcode i.data) := by cases i <;> rfl

/-! ## Whole commands on an accepting device -/

/-- On an accepting device a command that is accepted and leaves no quiet time is the effect at its byte, then its data
routed, then the lines. -/
theorem runCommand_ok {s : State} {op : Opcode} {d : DevState} (h : s.dev.accepting)
    (ha : acceptOpcode s.params op s.dev = .ok d) (hq : d.quiet = 0) (bs : List Byte) :
    s.runCommand op bs = { s with dev := (d.feed bs).afterFrame s.params bs } := by
  simp only [State.runCommand]
  rw [devRun_writeReg_ok h.1 ((acceptCommand_code h.2 op).trans ha) hq]

/-- On an accepting device a command that is not accepted records its fault and changes nothing else but the lines. -/
theorem runCommand_error {s : State} {op : Opcode} {f : DeviceFault} (h : s.dev.accepting)
    (ha : acceptOpcode s.params op s.dev = .error f) (bs : List Byte) :
    s.runCommand op bs = { s with dev := DevState.afterFrame { s.dev with fault := some f } s.params bs } := by
  simp only [State.runCommand]
  rw [devRun_writeReg_error h.1 ((acceptCommand_code h.2 op).trans ha)]

/-- Memory write right after complete rows, with a valid window, is accepted (42_address_window.md R152, R156). -/
theorem acceptOpcode_ramwr {p : Params} {d : DevState} {sc ec sp ep : Word16} {m : Byte} (hw : d.wseq = .rowSet)
    (hv : d.validWindow p sc ec sp ep m) : acceptOpcode p .ramwr d =
      .ok (DevState.latch { d with wp := some (sc, sp), pix := [], wdone := false } .ramwr .idle) := by
  simp [acceptOpcode, outOfOrder, hw, atCommand, ramwrAtCommand, checkWindow_of_valid hv, WSeq.atCommand]

/-- Memory write right after complete rows faults as the window check says (42_address_window.md R156). -/
theorem acceptOpcode_ramwr_error {p : Params} {d : DevState} {f : DeviceFault} (hw : d.wseq = .rowSet)
    (hc : checkWindow p d = .error f) : acceptOpcode p .ramwr d = .error f := by
  simp [acceptOpcode, outOfOrder, hw, atCommand, ramwrAtCommand, hc]

/-! ## Runs of data bytes -/

@[simp] theorem feed_nil (d : DevState) : d.feed [] = d := rfl

theorem feed_cons_ok {d d' : DevState} {b : Byte} (h : routeData b d = .ok d') (bs : List Byte) :
    d.feed (b :: bs) = d'.feed bs := by simp only [DevState.feed, h]

theorem feed_cons_error {d : DevState} {b : Byte} {f : DeviceFault} (h : routeData b d = .error f) (bs : List Byte) :
    d.feed (b :: bs) = { d with fault := some f } := by simp only [DevState.feed, h]

/-- Data bytes given in two parts, the first without a fault (30_encoding.md R96). -/
theorem feed_append {d : DevState} (hd : d.fault = none) (xs ys : List Byte) :
    d.feed (xs ++ ys) = if (d.feed xs).fault = none then (d.feed xs).feed ys else d.feed xs := by
  induction xs generalizing d with
  | nil => simp [hd]
  | cons b bs ih =>
    rw [List.cons_append]
    cases hr : routeData b d with
    | ok d' =>
      rw [feed_cons_ok hr, feed_cons_ok hr]
      exact ih ((routeData_frame hr).2.2.1.trans hd)
    | error f => rw [feed_cons_error hr, feed_cons_error hr]; simp

/-- What every routed byte and every recorded fault keeps, a run of data bytes keeps. -/
theorem feed_keeps {P : DevState → Prop} (hf : ∀ d f, P d → P { d with fault := some f })
    (hr : ∀ d d' b, routeData b d = .ok d' → P d → P d') {d : DevState} (h : P d) (bs : List Byte) : P (d.feed bs) := by
  induction bs generalizing d with
  | nil => exact h
  | cons b bs ih =>
    cases hd : routeData b d with
    | ok d' => rw [feed_cons_ok hd]; exact ih (hr d d' b hd h)
    | error f => rw [feed_cons_error hd]; exact hf d f h

/-- Configuration bytes are appended to their register (40_panel_config.md R120). -/
theorem feed_cfg (k : CfgCode) (bs : List Byte) (d : DevState) (old : List Byte) (h : d.cmd = some (.cfg k))
    (ho : d.cfg.get k = some old) :
    d.feed bs = { d with cfg := d.cfg.set k (some (old ++ bs)), pidx := d.pidx + bs.length } := by
  induction bs generalizing d old with
  | nil =>
    have hs : d.cfg.set k (some old) = d.cfg := by
      apply CfgMap.ext_get
      intro j
      by_cases hj : j = k
      · subst hj; simp [ho]
      · exact CfgMap.get_set_other _ _ hj
    simp [DevState.feed, hs]
  | cons b bs ih =>
    have hr : routeData b d = .ok { d with cfg := d.cfg.set k (some (old ++ [b])), pidx := d.pidx + 1 } := by
      simp [routeData, h, cfgAtData, ho]
    rw [feed_cons_ok hr, ih { d with cfg := d.cfg.set k (some (old ++ [b])), pidx := d.pidx + 1 } (old ++ [b]) h (by simp)]
    simp [Nat.add_assoc, Nat.add_comm 1]

/-! ## Everything an instruction can do -/

/-- Only sleep out leaves a quiet time, and it has no data (41_power_display.md R140). -/
theorem quiet_of_acceptOpcode {p : Params} {i : Instr} {d d' : DevState} (h : acceptOpcode p i.opcode d = .ok d')
    (hd : i.data ≠ []) : d'.quiet = d.quiet := by
  rcases acceptOpcode_ok h with ⟨ho, rfl⟩ | ⟨_, rfl⟩ | ⟨_, rfl⟩ | ⟨_, rfl⟩ | ⟨_, _, sc, ec, sp, ep, m, _, rfl⟩ | ⟨_, rfl⟩ |
    ⟨k, _, rfl⟩
  · cases i <;> simp [Instr.opcode, Instr.data] at ho hd
  all_goals rfl

/-- Everything an instruction can do to the device: the lines alone; the lines and a fault; or, on an accepting device, the
effect at the command byte, the data bytes routed, and the lines. -/
theorem instr_cases (p : Params) (i : Instr) (d : DevState) :
    devRun p d (instrEvents p i) = d.afterFrame p i.data ∨
    (d.fault = none ∧ ∃ f, devRun p d (instrEvents p i) = DevState.afterFrame { d with fault := some f } p i.data) ∨
    (d.accepting ∧ ∃ d', acceptOpcode p i.opcode d = .ok d' ∧
      devRun p d (instrEvents p i) = (d'.feed i.data).afterFrame p i.data) := by
  rcases phase_cases d with h | ⟨h1, h2⟩ | ⟨h1, h2, h3⟩ | h
  · exact .inl (devRun_writeReg_held h _ _)
  · exact .inr (.inl ⟨h2, _, devRun_writeReg_powerOn h1 h2 _ _⟩)
  · exact .inr (.inl ⟨h2, _, devRun_writeReg_early h1 h2 h3 _ _⟩)
  · cases ha : acceptCommand p i.opcode.code d with
    | error f => exact .inr (.inl ⟨h.2.1, f, devRun_writeReg_error h ha _⟩)
    | ok d' =>
      obtain ⟨hu, op, ho, hok⟩ := acceptCommand_ok ha
      rw [Opcode.ofByte_code, Option.some.injEq] at ho
      subst ho
      refine .inr (.inr ⟨⟨h, hu⟩, d', hok, ?_⟩)
      by_cases hne : i.data = []
      · unfold instrEvents writeReg
        rw [hne, dataTx, List.append_nil, devRun_commandTx h, ha]
        rfl
      · exact devRun_writeReg_ok h ha ((quiet_of_acceptOpcode hok hne).trans h.2.2) _

/-! ## Frame memory through every event -/

/-- Every operation of the device keeps the canonical form of frame memory. -/
theorem devStep_wf {p : Params} {d : DevState} (h : Memory.wf d.fm = true) (e : Event) :
    Memory.wf (devStep p d e).fm = true := by
  cases e with
  | cs l => exact h
  | dc l => exact h
  | bl l => exact h
  | wait t => exact h
  | res l =>
    cases l with
    | low => simp only [devStep, DevState.resetLow]; split; exact h; rfl
    | high =>
      simp only [devStep, DevState.resetHigh]
      split
      · split
        · exact h
        · simpa using h
      · exact h
      · exact h
  | byte b =>
    simp only [devStep]
    rcases takeByte_cases p d b with h1 | ⟨_, f, h1⟩ | ⟨_, _, h1⟩ | ⟨_, _, h1⟩
    · rw [h1]; exact h
    · rw [h1]; exact h
    · obtain ⟨_, op, _, ho⟩ := acceptCommand_ok h1
      rcases acceptOpcode_ok ho with ⟨_, h2⟩ | ⟨_, h2⟩ | ⟨_, h2⟩ | ⟨_, h2⟩ | ⟨_, _, sc, ec, sp, ep, m, _, h2⟩ | ⟨_, h2⟩ |
        ⟨k, _, h2⟩ <;> rw [h2] <;> simpa [slpoutAtCommand, disponAtCommand, cfgAtCommand] using h
    · rcases routeData_ok h1 with ⟨_, h2⟩ | ⟨_, h2⟩ | ⟨_, h2⟩ | ⟨_, h2⟩ | ⟨k, _, h2⟩
      · obtain ⟨_, ⟨_, h3⟩ | ⟨_, h3⟩⟩ := casetAtData_ok h2
        · rw [h3]; exact h
        · rcases loadColumns_cases (d.pushParam b) with h4 | ⟨s, e', h4⟩ <;> rw [h3, h4] <;> exact h
      · obtain ⟨_, ⟨_, h3⟩ | ⟨_, h3⟩⟩ := pasetAtData_ok h2
        · rw [h3]; exact h
        · rcases loadRows_cases (d.pushParam b) with h4 | ⟨s, e', h4⟩ <;> rw [h3, h4] <;> exact h
      · obtain ⟨_, ⟨_, h3⟩ | ⟨px, c, r, sc, ec, ep, _, _, _, _, _, h3⟩⟩ := ramwrAtData_ok h2
        · rw [h3]; exact h
        · rw [h3]; exact Memory.wf_write _ _ _ h
      · obtain ⟨_, h3⟩ := madctlAtData_ok h2
        rw [h3]; simp only [fmAfterMadctl]; split; exact h; rfl
      · obtain ⟨old, _, h3⟩ := cfgAtData_ok h2; rw [h3]; exact h

/-- What every event keeps, a run keeps. -/
theorem devRun_keeps {P : DevState → Prop} {p : Params} (hs : ∀ d e, P d → P (devStep p d e)) {d : DevState} (h : P d)
    (trace : List Event) : P (devRun p d trace) := by
  induction trace generalizing d with
  | nil => exact h
  | cons e es ih => exact ih (hs d e h)

end Sys2Proof.Machine
end

