-- ==== Sys2Proof/Laws/Stream.lean ====
section
/-!
SUPPORT. Laws of the pixel stream: the addresses of a window in row-major order, the write pointer walking them, and what a
run of stream bytes leaves (20_memory.md R80; 42_address_window.md R153, R154).
-/

namespace Sys2Proof.Machine

/-! ## Addresses of a window -/

theorem windowAddr_zero (sc ec sp : Word16) : windowAddr sc ec sp 0 = (sc, sp) := by simp [windowAddr]

/-- The address of the k-th pixel, on numbers. -/
theorem windowAddr_toNat {sc ec sp ep : Word16} {k : Nat} (h1 : sc ≤ ec) (h2 : sp ≤ ep)
    (hk : k < windowPixels sc ec sp ep) :
    (windowAddr sc ec sp k).1.toNat = sc.toNat + k % (ec.toNat - sc.toNat + 1) ∧
    (windowAddr sc ec sp k).2.toNat = sp.toNat + k / (ec.toNat - sc.toNat + 1) ∧
    k % (ec.toNat - sc.toNat + 1) < ec.toNat - sc.toNat + 1 ∧
    k / (ec.toNat - sc.toNat + 1) < ep.toNat - sp.toNat + 1 := by
  have e := ec.isLt; have f := ep.isLt
  simp only [BitVec.le_def] at h1 h2
  have hm : k % (ec.toNat - sc.toNat + 1) < ec.toNat - sc.toNat + 1 := Nat.mod_lt _ (by omega)
  have hd : k / (ec.toNat - sc.toNat + 1) < ep.toNat - sp.toNat + 1 :=
    Nat.div_lt_of_lt_mul hk
  refine ⟨?_, ?_, hm, hd⟩ <;> simp only [windowAddr, BitVec.toNat_add, BitVec.toNat_ofNat]
  · generalize k % (ec.toNat - sc.toNat + 1) = u at *; omega
  · generalize k / (ec.toNat - sc.toNat + 1) = u at *; omega

/-- Every address of a window lies between its bounds. -/
theorem windowAddr_inside {sc ec sp ep : Word16} {k : Nat} (h1 : sc ≤ ec) (h2 : sp ≤ ep)
    (hk : k < windowPixels sc ec sp ep) :
    sc ≤ (windowAddr sc ec sp k).1 ∧ (windowAddr sc ec sp k).1 ≤ ec ∧ sp ≤ (windowAddr sc ec sp k).2 ∧
    (windowAddr sc ec sp k).2 ≤ ep := by
  obtain ⟨a, b, c, d⟩ := windowAddr_toNat h1 h2 hk
  generalize k % (ec.toNat - sc.toNat + 1) = u at *
  generalize k / (ec.toNat - sc.toNat + 1) = v at *
  simp only [BitVec.le_def] at *
  omega

/-- No address of a window comes twice. -/
theorem windowAddr_inj {sc ec sp ep : Word16} {k j : Nat} (h1 : sc ≤ ec) (h2 : sp ≤ ep)
    (hk : k < windowPixels sc ec sp ep) (hj : j < windowPixels sc ec sp ep)
    (h : windowAddr sc ec sp k = windowAddr sc ec sp j) : k = j := by
  obtain ⟨a, b, c, d⟩ := windowAddr_toNat h1 h2 hk
  obtain ⟨a', b', c', d'⟩ := windowAddr_toNat h1 h2 hj
  rw [h] at a b
  have hm : k % (ec.toNat - sc.toNat + 1) = j % (ec.toNat - sc.toNat + 1) := by omega
  have hd : k / (ec.toNat - sc.toNat + 1) = j / (ec.toNat - sc.toNat + 1) := by omega
  rw [← Nat.div_add_mod k (ec.toNat - sc.toNat + 1), ← Nat.div_add_mod j (ec.toNat - sc.toNat + 1), hm, hd]

/-- The write pointer walks the window row-major and stops at its last address (42_address_window.md R154). -/
theorem advance_windowAddr {sc ec sp ep : Word16} {k : Nat} (h1 : sc ≤ ec) (h2 : sp ≤ ep)
    (hk : k < windowPixels sc ec sp ep) :
    advance sc ec ep (windowAddr sc ec sp k).1 (windowAddr sc ec sp k).2 =
      if k + 1 = windowPixels sc ec sp ep then ((ec, ep), true) else (windowAddr sc ec sp (k + 1), false) := by
  obtain ⟨ha, hb, hc, hd⟩ := windowAddr_toNat h1 h2 hk
  have e := ec.isLt; have f := ep.isLt
  have hdm := Nat.div_add_mod k (ec.toNat - sc.toNat + 1)
  have one : (1 : Word16).toNat = 1 := rfl
  have hN' : windowPixels sc ec sp ep = (ec.toNat - sc.toNat + 1) * (ep.toNat - sp.toNat + 1) := rfl
  simp only [BitVec.le_def] at h1 h2
  generalize hW : ec.toNat - sc.toNat + 1 = W at *
  generalize hH : ep.toNat - sp.toNat + 1 = H at *
  generalize hN : windowPixels sc ec sp ep = N at *
  generalize hu : k % W = u at *
  generalize hv : k / W = v at *
  have hrow : W * v + W ≤ W * H := by
    have : W * (v + 1) ≤ W * H := Nat.mul_le_mul_left W hd
    rwa [Nat.mul_succ] at this
  unfold advance
  by_cases hlt : u + 1 < W
  · have hne : ¬k + 1 = N := by omega
    have hlt' : (windowAddr sc ec sp k).1 < ec := by rw [BitVec.lt_def]; omega
    have hk1 : k + 1 = u + 1 + W * v := by omega
    have hm : (k + 1) % W = u + 1 := by rw [hk1, Nat.add_mul_mod_self_left, Nat.mod_eq_of_lt hlt]
    have hq : (k + 1) / W = v := by
      rw [hk1, Nat.add_mul_div_left _ _ (by omega), Nat.div_eq_of_lt hlt, Nat.zero_add]
    rw [if_pos hlt', if_neg hne]
    simp only [windowAddr, hW, hm, hq, hu, hv, Prod.mk.injEq, and_true]
    apply BitVec.eq_of_toNat_eq
    simp only [BitVec.toNat_add, BitVec.toNat_ofNat, one]; omega
  · have hge : ¬(windowAddr sc ec sp k).1 < ec := by rw [BitVec.lt_def]; omega
    rw [if_neg hge]
    by_cases hr : v + 1 < H
    · have hlt2 : W * (v + 1) < W * H := Nat.mul_lt_mul_of_pos_left hr (by omega)
      rw [Nat.mul_succ] at hlt2
      have hne : ¬k + 1 = N := by omega
      have hr' : (windowAddr sc ec sp k).2 < ep := by rw [BitVec.lt_def]; omega
      have hk1 : k + 1 = 0 + W * (v + 1) := by rw [Nat.mul_succ]; omega
      have hm : (k + 1) % W = 0 := by rw [hk1, Nat.add_mul_mod_self_left, Nat.zero_mod]
      have hq : (k + 1) / W = v + 1 := by
        rw [hk1, Nat.add_mul_div_left _ _ (by omega), Nat.zero_div, Nat.zero_add]
      rw [if_pos hr', if_neg hne]
      simp only [windowAddr, hW, hm, hq, hu, hv, Prod.mk.injEq, and_true]
      refine ⟨by simp, ?_⟩
      apply BitVec.eq_of_toNat_eq
      simp only [BitVec.toNat_add, BitVec.toNat_ofNat, one]; omega
    · have hr' : ¬(windowAddr sc ec sp k).2 < ep := by rw [BitVec.lt_def]; omega
      have hH' : H = v + 1 := by omega
      have hWH : W * H = W * v + W := by rw [hH', Nat.mul_succ]
      have heq : k + 1 = N := by omega
      rw [if_neg hr', if_pos heq]
      simp only [Prod.mk.injEq, and_true]
      exact ⟨BitVec.eq_of_toNat_eq (by omega), BitVec.eq_of_toNat_eq (by omega)⟩

/-! ## Pixels of a byte stream, stored at successive addresses -/

/-- Frame memory after the whole pixels of a stream are stored at `addr k`, `addr (k + 1)`, … . -/
def FrameMem.storeAt (addr : Nat → Word16 × Word16) : FrameMem → Nat → List Byte → FrameMem
  | m, k, r :: g :: b :: rest =>
    FrameMem.storeAt addr (m.write (addr k).1 (addr k).2 { r := r, g := g, b := b }) (k + 1) rest
  | m, _, _ => m

/-- Addresses that no stored pixel takes read as before. -/
theorem FrameMem.read_storeAt_other {addr : Nat → Word16 × Word16} {c w : Word16} (m : FrameMem) (k : Nat)
    (bs : List Byte) (h : ∀ j, j < bs.length / 3 → addr (k + j) ≠ (c, w)) :
    (FrameMem.storeAt addr m k bs).read c w = m.read c w := by
  induction m, k, bs using FrameMem.storeAt.induct (addr := addr) with
  | case1 m k r g b rest ih =>
    have hl : (r :: g :: b :: rest).length / 3 = rest.length / 3 + 1 := by simp only [List.length_cons]; omega
    rw [hl] at h
    rw [FrameMem.storeAt, ih (fun j hj => by rw [Nat.add_assoc, Nat.add_comm 1]; exact h (j + 1) (by omega))]
    exact FrameMem.read_write_other m _ (fun e => h 0 (by omega) (Prod.ext e.1.symm e.2.symm))
  | case2 bs m k hb => rw [FrameMem.storeAt]; exact hb

/-- Each pixel of the stream is read back, where no address comes twice. -/
theorem FrameMem.read_storeAt {addr : Nat → Word16 × Word16} {r g b : Byte} (m : FrameMem) (k : Nat) (bs : List Byte)
    (inj : ∀ i j, i < bs.length / 3 → j < bs.length / 3 → addr (k + i) = addr (k + j) → i = j) (j : Nat)
    (hj : j < bs.length / 3) (hr : bs[3 * j]? = some r) (hg : bs[3 * j + 1]? = some g) (hb : bs[3 * j + 2]? = some b) :
    (FrameMem.storeAt addr m k bs).read (addr (k + j)).1 (addr (k + j)).2 = some { r := r, g := g, b := b } := by
  induction m, k, bs using FrameMem.storeAt.induct (addr := addr) generalizing j with
  | case1 m k r' g' b' rest ih =>
    have hl : (r' :: g' :: b' :: rest).length / 3 = rest.length / 3 + 1 := by simp only [List.length_cons]; omega
    rw [hl] at inj hj
    rw [FrameMem.storeAt]
    cases j with
    | zero =>
      rw [FrameMem.read_storeAt_other]
      · simp at hr hg hb; simp [hr, hg, hb]
      · intro i hi e
        have := inj (i + 1) 0 (by omega) (by omega)
          (by rw [Nat.add_zero, ← Nat.add_assoc, Nat.add_right_comm k i 1]; exact e)
        omega
    | succ j =>
      have e : k + (j + 1) = k + 1 + j := by omega
      rw [e]
      refine ih (fun i i' hi hi' h => ?_) j (by omega) ?_ ?_ ?_
      · have := inj (i + 1) (i' + 1) (by omega) (by omega) (by
          rw [show k + (i + 1) = k + 1 + i by omega, show k + (i' + 1) = k + 1 + i' by omega]; exact h)
        omega
      · rw [show 3 * (j + 1) = 3 * j + 1 + 1 + 1 by omega] at hr; simpa using hr
      · rw [show 3 * (j + 1) + 1 = 3 * j + 1 + 1 + 1 + 1 by omega] at hg; simpa using hg
      · rw [show 3 * (j + 1) + 2 = 3 * j + 2 + 1 + 1 + 1 by omega] at hb; simpa using hb
  | case2 bs m k hb' =>
    exfalso
    match bs, hb', hj with
    | [], _, hj => simp at hj
    | [_], _, hj => simp at hj
    | [_, _], _, hj => simp at hj
    | r :: g :: b :: rest, hb', _ => exact hb' r g b rest rfl

/-! ## A run of stream bytes -/

/-- A done stream refuses every further byte (42_address_window.md R153). -/
theorem feed_done {d : DevState} (hc : d.cmd = some .ramwr) (hw : d.wdone = true) {bs : List Byte} (hne : bs ≠ []) :
    d.feed bs = { d with fault := some .writeOverrun } := by
  cases bs with
  | nil => exact absurd rfl hne
  | cons b bs => exact feed_cons_error (by simp [routeData, hc, ramwrAtData, hw]) bs

/-- Bytes that make no whole pixel are pending (42_address_window.md R153). -/
theorem feed_pending {d : DevState} (hc : d.cmd = some .ramwr) (hw : d.wdone = false) (hp : d.pix = []) {bs : List Byte}
    (hl : bs.length < 3) : d.feed bs = { d with pix := bs, pidx := d.pidx + bs.length } := by
  match bs, hl with
  | [], _ =>
    show d = { d with pix := [], pidx := d.pidx }
    rw [← hp]
  | [b], _ => simp [DevState.feed, routeData, hc, ramwrAtData, hw, hp, pixelOf]
  | [b, b'], _ => simp [DevState.feed, routeData, hc, ramwrAtData, hw, hp, pixelOf]
  | _ :: _ :: _ :: _, hl => simp at hl; omega

/-- Three bytes are a pixel stored at the write pointer (42_address_window.md R153, R154). -/
theorem feed_pixel {d : DevState} {c w sc ec ep : Word16} (hc : d.cmd = some .ramwr) (hw : d.wdone = false)
    (hp : d.pix = []) (h0 : d.wp = some (c, w)) (h1 : d.sc = some sc) (h2 : d.ec = some ec) (h3 : d.ep = some ep)
    (r g b : Byte) (rest : List Byte) :
    d.feed (r :: g :: b :: rest) = DevState.feed { d with
      fm := d.fm.write c w { r := r, g := g, b := b }, pix := [], wp := some (advance sc ec ep c w).1,
      wdone := (advance sc ec ep c w).2, pidx := d.pidx + 3 } rest := by
  have e1 : routeData r d = .ok { d with pix := [r], pidx := d.pidx + 1 } := by
    simp [routeData, hc, ramwrAtData, hw, hp, pixelOf]
  have e2 : routeData g { d with pix := [r], pidx := d.pidx + 1 } = .ok { d with pix := [r, g], pidx := d.pidx + 2 } := by
    simp [routeData, hc, ramwrAtData, hw, pixelOf]
  have e3 : routeData b { d with pix := [r, g], pidx := d.pidx + 2 } = .ok { d with
      fm := d.fm.write c w { r := r, g := g, b := b }, pix := [], wp := some (advance sc ec ep c w).1,
      wdone := (advance sc ec ep c w).2, pidx := d.pidx + 3 } := by
    simp [routeData, hc, ramwrAtData, hw, pixelOf, storePixel, h0, h1, h2, h3]
  rw [feed_cons_ok e1, feed_cons_ok e2, feed_cons_ok e3]

/-- What a run of stream bytes that fits the rest of the window leaves, the stream having stored `k` pixels. -/
theorem feed_stream {sc ec sp ep : Word16} (h1 : sc ≤ ec) (h2 : sp ≤ ep) {d : DevState} {k : Nat} {bs : List Byte}
    (hk : k < windowPixels sc ec sp ep) (hc : d.cmd = some .ramwr) (hw : d.wdone = false) (hp : d.pix = [])
    (hwp : d.wp = some (windowAddr sc ec sp k)) (hsc : d.sc = some sc) (hec : d.ec = some ec) (hep : d.ep = some ep)
    (hl : k * 3 + bs.length ≤ windowPixels sc ec sp ep * 3) :
    d.feed bs = { d with
      fm := FrameMem.storeAt (windowAddr sc ec sp) d.fm k bs, pix := bs.drop (bs.length / 3 * 3),
      wp := some (if k * 3 + bs.length = windowPixels sc ec sp ep * 3 then (ec, ep)
        else windowAddr sc ec sp (k + bs.length / 3)),
      wdone := decide (k * 3 + bs.length = windowPixels sc ec sp ep * 3), pidx := d.pidx + bs.length } := by
  match bs with
  | r :: g :: b :: rest =>
    have hlen : (r :: g :: b :: rest).length = rest.length + 3 := by simp
    rw [hlen] at hl ⊢
    rw [feed_pixel (c := (windowAddr sc ec sp k).1) (w := (windowAddr sc ec sp k).2) hc hw hp hwp hsc hec hep,
      advance_windowAddr h1 h2 hk]
    have hdrop : (r :: g :: b :: rest).drop ((rest.length + 3) / 3 * 3) = rest.drop (rest.length / 3 * 3) := by
      rw [show (rest.length + 3) / 3 * 3 = rest.length / 3 * 3 + 1 + 1 + 1 by omega]; simp
    rw [hdrop]
    by_cases hlast : k + 1 = windowPixels sc ec sp ep
    · have : rest = [] := List.length_eq_zero_iff.mp (by omega)
      subst this
      have e : k * 3 + (0 + 3) = windowPixels sc ec sp ep * 3 := by omega
      simp [hlast, FrameMem.storeAt, show k * 3 + 3 = windowPixels sc ec sp ep * 3 by omega]
    · rw [if_neg hlast]
      rw [feed_stream (k := k + 1) (d := { d with
          fm := d.fm.write (windowAddr sc ec sp k).1 (windowAddr sc ec sp k).2 { r := r, g := g, b := b }, pix := [],
          wp := some (windowAddr sc ec sp (k + 1)), wdone := false, pidx := d.pidx + 3 })
        h1 h2 (by omega) hc rfl rfl rfl hsc hec hep (by omega)]
      have e1 : (k + 1) * 3 + rest.length = k * 3 + (rest.length + 3) := by omega
      have e2 : k + 1 + rest.length / 3 = k + (rest.length + 3) / 3 := by omega
      have e3 : d.pidx + 3 + rest.length = d.pidx + (rest.length + 3) := by omega
      simp only [e1, e2, e3, FrameMem.storeAt]
  | [] =>
    have : ¬k * 3 = windowPixels sc ec sp ep * 3 := by omega
    rw [feed_pending hc hw hp (by simp)]
    simp [FrameMem.storeAt, this, ← hwp, ← hw]
  | [a] =>
    have : ¬k * 3 + 1 = windowPixels sc ec sp ep * 3 := by omega
    rw [feed_pending hc hw hp (by simp)]
    simp [FrameMem.storeAt, this, ← hwp, ← hw]
  | [a, b] =>
    have : ¬k * 3 + 2 = windowPixels sc ec sp ep * 3 := by omega
    rw [feed_pending hc hw hp (by simp)]
    simp [FrameMem.storeAt, this, ← hwp, ← hw]
termination_by bs.length

/-- A window has at least one pixel. -/
theorem windowPixels_pos (sc ec sp ep : Word16) : 0 < windowPixels sc ec sp ep := by
  unfold windowPixels; exact Nat.mul_pos (by omega) (by omega)

/-- What a stream that fits the window leaves, from the opening of the stream on (42_address_window.md R152 to R154). -/
theorem feed_opened {p : Params} {d : DevState} {sc ec sp ep : Word16} {m : Byte} (hv : d.validWindow p sc ec sp ep m)
    {bs : List Byte} (hl : bs.length ≤ windowPixels sc ec sp ep * 3) :
    (DevState.latch { d with wp := some (sc, sp), pix := [], wdone := false } .ramwr .idle).feed bs = { d with
      cmd := some .ramwr, pidx := bs.length, pbuf := [], wseq := .idle,
      fm := FrameMem.storeAt (windowAddr sc ec sp) d.fm 0 bs, pix := bs.drop (bs.length / 3 * 3),
      wp := some (if bs.length = windowPixels sc ec sp ep * 3 then (ec, ep) else windowAddr sc ec sp (bs.length / 3)),
      wdone := decide (bs.length = windowPixels sc ec sp ep * 3) } := by
  obtain ⟨_, v1, v2, v3, v4, _, v6, v7, _, _⟩ := hv
  rw [feed_stream (k := 0) (ep := ep)
    (d := DevState.latch { d with wp := some (sc, sp), pix := [], wdone := false } .ramwr .idle)
    v6 v7 (windowPixels_pos _ _ _ _) rfl rfl rfl (by simp [windowAddr_zero]) v1 v2 v4 (by simpa using hl)]
  simp [DevState.latch]

end Sys2Proof.Machine
end

