-- ==== Sys2Proof/Tests/Slice0.lean ====
section
/-!
SUPPORT. The model's own tests: ill-formed instructions refused, the decoding of words written out from 30_encoding.md, single
steps with results from 95_test_vectors.md, and a state that meets the hypotheses of every statement that has some.
-/

namespace Sys2Proof.Tests

open Sys2Proof.Machine

/-! ## Helpers -/

/-- Instance E of 95_test_vectors.md section 0, with bytes for the symbols m0, m1, m23 and pf. -/
def instE : Params :=
  { Params.standIn with rot0 := 0x48, rot1 := 0x28, rot23 := 0xE8, pixfmt24 := [0x66],
                        initData := CfgMap.set (CfgMap.const [0x01]) .x3A [0x66] }

/-- State READY(M) of 95_test_vectors.md section 0. -/
def ready (m : Byte) : DevState :=
  { DevState.powerOn with
    phase := .ready, madctl := some m, cfg := CfgMap.set (CfgMap.const (some [])) .x3A (some [0x66]), sleep := false,
    displayOn := true, cmd := some .dispon, csx := some .high, dcx := some .low, resx := some .high }

/-- The same device with a valid 2 by 2 window (10, 20) to (11, 21) just set (V11). -/
def windowed : DevState :=
  { ready 0x48 with
    sc := some 10, ec := some 11, sp := some 20, ep := some 21, cmd := some .paset, pidx := 4,
    pbuf := [0x00, 0x14, 0x00, 0x15], wseq := .rowSet }

/-- The same device with its stream open (V12). -/
def streaming : DevState :=
  { windowed with cmd := some .ramwr, pidx := 0, pbuf := [], wseq := .idle, wp := some (10, 20) }

/-- A machine with this device. -/
def on (d : DevState) : State := { State.reset with params := instE, dev := d }

/-- The device after an outcome. -/
def devOf : Host.Outcome State Fault Refusal → Option DevState
  | .next s => some s.dev
  | _ => none

/-- A 4 by 4 canvas, all bytes equal (95_test_vectors.md V54). -/
def canvas4 (b : Byte) : Canvas := { x0 := 0, y0 := 0, x1 := 3, y1 := 3, buf := List.replicate 48 b }

/-! ## Ill-formed terms are refused -/

theorem test_wellFormed_ragged_stream : Instr.wellFormed (.ramwr [0x01, 0x02]) = false := by decide
theorem test_wellFormed_whole_pixels : Instr.wellFormed (.ramwr [0x01, 0x02, 0x03]) = true := by decide
theorem test_decode_refuses_ragged_stream : decode [0x2C, 0x01, 0x02] = .error (.raggedStream 2) := by decide
theorem test_decode_refuses_short_window : decode [0x2A, 0x00, 0x0A, 0x00] = .error (.wrongCount .caset 3) := by decide
theorem test_decode_refuses_data_after_f0 : decode [0x29, 0x00] = .error (.wrongCount .dispon 1) := by decide
theorem test_decode_refuses_two_access_bytes : decode [0x36, 0x48, 0x48] = .error (.wrongCount .madctl 2) := by decide
theorem test_decode_refuses_unknown_codes : ∀ b ∈ ([0x00, 0x01, 0x10, 0x28, 0x2D, 0x2E, 0x3C, 0x35, 0xFF] : List Byte),
    decode [b] = .error (.unknownCode b) := by decide

/-! ## Words written out from the encoding tables (30_encoding.md R98 to R103); the first byte is the lowest -/

theorem test_decode_slpout : decodeTableWord 8 0b00010001 = some .slpout := by decide
theorem test_decode_dispon : decodeTableWord 8 0b00101001 = some .dispon := by decide
theorem test_decode_caset :
    decodeTableWord 40 0b00111111_00000001_00001010_00000000_00101010 = some (.caset 0x000A 0x013F) := by decide
theorem test_decode_paset :
    decodeTableWord 40 0b11011111_00000001_00010100_00000000_00101011 = some (.paset 0x0014 0x01DF) := by decide
theorem test_decode_ramwr :
    decodeTableWord 32 0b10000000_00000000_11111111_00101100 = some (.ramwr [0xFF, 0x00, 0x80]) := by decide
theorem test_decode_madctl : decodeTableWord 16 0b01001000_00110110 = some (.madctl 0x48) := by decide
theorem test_decode_cfgF7 : decodeTableWord 16 0b00000010_11110111 = some (.cfgF7 [0x02]) := by decide
theorem test_decode_cfgC0 : decodeTableWord 16 0b00000010_11000000 = some (.cfgC0 [0x02]) := by decide
theorem test_decode_cfgC1 : decodeTableWord 16 0b00000010_11000001 = some (.cfgC1 [0x02]) := by decide
theorem test_decode_cfgC5 :
    decodeTableWord 32 0b00000011_00000010_00000001_11000101 = some (.cfgC5 [0x01, 0x02, 0x03]) := by decide
theorem test_decode_cfgB1 : decodeTableWord 16 0b00000010_10110001 = some (.cfgB1 [0x02]) := by decide
theorem test_decode_cfgB4 : decodeTableWord 16 0b00000010_10110100 = some (.cfgB4 [0x02]) := by decide
theorem test_decode_cfgB6 : decodeTableWord 16 0b00000010_10110110 = some (.cfgB6 [0x02]) := by decide
theorem test_decode_cfgB7 : decodeTableWord 16 0b00000010_10110111 = some (.cfgB7 [0x02]) := by decide
theorem test_decode_cfgBE : decodeTableWord 16 0b00000010_10111110 = some (.cfgBE [0x02]) := by decide
theorem test_decode_cfgE9 : decodeTableWord 16 0b00000010_11101001 = some (.cfgE9 [0x02]) := by decide
theorem test_decode_pixfmt : decodeTableWord 16 0b01100110_00111010 = some (.pixfmt [0x66]) := by decide
theorem test_decode_cfgE0 : decodeTableWord 16 0b00000010_11100000 = some (.cfgE0 [0x02]) := by decide
theorem test_decode_cfgE1 : decodeTableWord 16 0b00000010_11100001 = some (.cfgE1 [0x02]) := by decide
/-- A table word shorter than the instruction is filled up with zeros. -/
theorem test_decode_short_word : decodeTableWord 8 0x2A = some (.caset 0 0) := by decide

/-! ## One step -/

/-- A word placed by `withFetchWord` runs as the first instruction after reset. -/
theorem test_first_step_slpout : (devOf (step (State.reset.withFetchWord 8 0x11))).map (fun d => (d.sleep, d.quiet)) =
    some (false, 120) := by decide
theorem test_first_step_caset :
    (devOf (step (State.reset.withFetchWord 40 0x0B000A002A))).map (fun d => (d.sc, d.ec, d.wseq)) =
      some (some 10, some 11, .colSet) := by decide
theorem test_first_step_leaves_no_event : (match step (State.reset.withFetchWord 16 0x483A) with
    | .next s => s.bus
    | _ => [.wait 0]) = [] := by decide

/-- V48. -/
theorem test_slpout_again : (devOf (exec .slpout (on (ready 0x48)))).map (fun d => (d.sleep, d.quiet, d.fault)) =
    some (false, 120, none) := by decide
/-- V65, V66: the wake-up time applies to every byte. -/
theorem test_dispon_too_early :
    (devOf (exec .dispon (on { ready 0x48 with quiet := 1, displayOn := false }))).map
      (fun d => (d.displayOn, d.fault)) = some (false, some (.earlyAccess 1)) := by decide
/-- V10. -/
theorem test_caset : (devOf (exec (.caset 10 11) (on (ready 0x48)))).map (fun d => (d.sc, d.ec, d.wseq, d.pidx)) =
    some (some 10, some 11, .colSet, 4) := by decide
/-- V24: what was latched stays. -/
theorem test_caset_interrupts : (devOf (exec (.caset 1 2)
    (on { ready 0x48 with cmd := some .caset, pidx := 3, pbuf := [0x00, 0x0A, 0x00] }))).map
      (fun d => (d.fault, d.sc, d.pidx)) = some (some (.incompleteParams .caset 3), none, 3) := by decide
/-- V11. -/
theorem test_paset : (devOf (exec (.paset 20 21)
    (on { ready 0x48 with cmd := some .caset, pidx := 4, pbuf := [0, 0, 0, 0], sc := some 10, ec := some 11,
                          wseq := .colSet }))).map
      (fun d => (d.sp, d.ep, d.wseq)) = some (some 20, some 21, .rowSet) := by decide
/-- V19: rows before columns. -/
theorem test_paset_alone : (devOf (exec (.paset 20 21) (on (ready 0x48)))).map (fun d => d.wseq) = some .idle := by decide
/-- V12, V13; the twelve data bytes are counted (10_state.md R27). -/
theorem test_ramwr_pixels : (devOf (exec (.ramwr [1, 2, 3, 4, 5, 6, 7, 8, 9, 10, 11, 12]) (on windowed))).map
    (fun d => ([d.fm.read 10 20, d.fm.read 11 20, d.fm.read 10 21, d.fm.read 11 21], d.pidx)) =
      some ([some ⟨1, 2, 3⟩, some ⟨4, 5, 6⟩, some ⟨7, 8, 9⟩, some ⟨10, 11, 12⟩], 12) := by decide
/-- V27. -/
theorem test_ramwr_outside : (devOf (exec (.ramwr [])
    (on { windowed with sc := some 0, ec := some 320, sp := some 0, ep := some 0 }))).map (fun d => (d.fault, d.wp)) =
      some (some (.windowInvalid (.regs 0 320 0 0)), none) := by decide
/-- V40. -/
theorem test_madctl_same : (devOf (exec (.madctl 0x48) (on { ready 0x48 with fm := [(0, ⟨1, 2, 3⟩)] }))).map
    (fun d => (d.madctl, d.fm.read 0 0)) = some (some 0x48, some ⟨1, 2, 3⟩) := by decide
/-- V41. -/
theorem test_madctl_other : (devOf (exec (.madctl 0x28) (on { ready 0x48 with fm := [(0, ⟨1, 2, 3⟩)] }))).map
    (fun d => (d.madctl, d.fm.read 0 0)) = some (some 0x28, none) := by decide
/-- V45. -/
theorem test_cfgC5 : (devOf (exec (.cfgC5 [1, 2, 3]) (on (ready 0x48)))).map (fun d => (d.cfg.xC5, d.pidx)) =
    some (some [1, 2, 3], 3) := by decide
/-- V45: no data. -/
theorem test_cfgC5_empty : (devOf (exec (.cfgC5 []) (on { ready 0x48 with
    cfg := CfgMap.const (some [9]) }))).map (fun d => (d.cfg.xC5, d.cfg.xC1, d.fault)) =
      some (some [], some [9], none) := by decide
/-- V46. -/
theorem test_pixfmt : (devOf (exec (.pixfmt [0x66]) (on { ready 0x48 with cfg := CfgMap.const none }))).map
    (fun d => (d.cfg.x3A, d.cfg.xE9)) = some (some [0x66], none) := by decide

/-! ## One event -/

/-- V14. -/
theorem test_write_overrun :
    (devStep instE { streaming with wp := some (11, 21), wdone := true, csx := some .low, dcx := some .high }
      (.byte 0x0D)).fault = some .writeOverrun := by decide
/-- V31: an unfinished pixel comes before an unknown code. -/
theorem test_partial_pixel_first :
    (devStep instE { streaming with pix := [10, 11], csx := some .low, dcx := some .low } (.byte 0x00)).fault =
      some (.partialPixel 2) := by decide
/-- V35. -/
theorem test_unexpected_data :
    (devStep instE { ready 0x48 with csx := some .low, dcx := some .high } (.byte 0x00)).fault =
      some (.unexpectedData (some .dispon)) := by decide
/-- V38, the second byte. -/
theorem test_excess_access_byte :
    (devStep instE { ready 0x48 with cmd := some .madctl, pidx := 1, csx := some .low, dcx := some .high }
      (.byte 0x48)).fault = some (.excessParams .madctl) := by decide
/-- V39a, V39c. -/
theorem test_raw_bytes_before_reset : (devStep instE DevState.powerOn (.byte 0x11)).fault = some (.lineUndriven .csx) ∧
    (devStep instE { DevState.powerOn with csx := some .low, dcx := some .low } (.byte 0x11)).fault = some .notReset := by
  decide
/-- V60, V61: the pulse of 100 ms and the one of 99. -/
theorem test_reset_pulse :
    ((devStep instE { DevState.powerOn with phase := .resetHeld 100, resx := some .low } (.res .high)).phase,
     (devStep instE { DevState.powerOn with phase := .resetHeld 99, resx := some .low } (.res .high)).fault) =
      (.ready, some (.resetPulseTooShort 99)) := by decide

/-! ## Host -/

/-- V5: offsets, high byte first. -/
theorem test_setWindow_offsets : setWindowTrace { instE with offsetX := 10, offsetY := 20 } 0 0 319 479 =
    some (commandTx instE 0x2A ++ exchange instE .data [0x00, 0x0A, 0x01, 0x49] ++
      (commandTx instE 0x2B ++ exchange instE .data [0x00, 0x14, 0x01, 0xF3]) ++ commandTx instE 0x2C) := by decide
/-- V7. -/
theorem test_setWindow_overflow : setWindowTrace { instE with offsetY := 1 } 0 0 0 65535 = none := by decide
/-- V52. -/
theorem test_blend : (blend 255 0 128, blend 0 255 128, blend 200 50 100, blend 100 200 64, blend 10 20 128, blend 1 0 254) =
    (128, 127, 108, 174, 14, 0) := by decide
/-- V50, X1. -/
theorem test_canvas_pixel : ((canvas4 0).idx 1 2, ((canvas4 0).setRGB 1 2 ⟨9, 8, 7⟩).bind (fun c => c.getRGB 1 2)) =
    (27, some ⟨9, 8, 7⟩) := by decide
/-- V54 (b): clipped to one pixel. -/
theorem test_drawImage_clipped :
    (((canvas4 0x11).drawImage ⟨3, 3, [[⟨10, 20, 30, 255⟩, ⟨10, 20, 30, 255⟩], [⟨10, 20, 30, 255⟩]]⟩).buf) =
      List.replicate 45 0x11 ++ [10, 20, 30] := by decide
/-- V55, V56. -/
theorem test_canvas_refusals : State.makesCanvas (on (ready 0x48)) 5 0 4 0 = .refused .emptyRectangle ∧
    perform (.getRGB 0 4 0) { on (ready 0x48) with canvases := [canvas4 0] } = .refused .canvasOutOfRange := by
  constructor <;> rfl

/-! ## States that meet the hypotheses of the statements -/

/-- Lines driven for a byte of a kind. -/
def driven (k : Kind) (d : DevState) : DevState := { d with csx := some .low, dcx := some (kindLevel instE k) }

theorem witness_DecodeOfEncode : Instr.wellFormed (.ramwr [1, 2, 3]) = true ∧ Instr.wellFormed (.caset 0 0xFFFF) = true := by
  decide

theorem witness_EncodeOfDecode : decode [0x36, 0x48] = .ok (.madctl 0x48) := by decide

/-- One device for each of the nine steps. -/
theorem witness_ByteTaking : (∃ d : DevState, ∃ t, d.phase = .resetHeld t) ∧
    (∃ d : DevState, (¬∃ t, d.phase = .resetHeld t) ∧ d.fault ≠ none) ∧
    (∃ d : DevState, (¬∃ t, d.phase = .resetHeld t) ∧ d.fault = none ∧ d.csx = none) ∧
    (∃ d : DevState, (¬∃ t, d.phase = .resetHeld t) ∧ d.fault = none ∧ d.csx = some instE.csActive.not) ∧
    (∃ d : DevState, (¬∃ t, d.phase = .resetHeld t) ∧ d.fault = none ∧ d.csx = some instE.csActive ∧ d.dcx = none) ∧
    (∃ d : DevState, ∃ l, d.fault = none ∧ d.csx = some instE.csActive ∧ d.dcx = some l ∧ d.phase = .powerOn) ∧
    (∃ d : DevState, ∃ l, d.fault = none ∧ d.csx = some instE.csActive ∧ d.dcx = some l ∧ d.phase = .ready ∧ d.quiet = 1) ∧
    (∃ d : DevState, d.fault = none ∧ d.csx = some instE.csActive ∧ d.dcx = some instE.dcCommand ∧ d.phase = .ready ∧
      d.quiet = 0) ∧
    (∃ d : DevState, ∃ l, l ≠ instE.dcCommand ∧ d.fault = none ∧ d.csx = some instE.csActive ∧ d.dcx = some l ∧
      d.phase = .ready ∧ d.quiet = 0) :=
  ⟨⟨{ ready 0x48 with phase := .resetHeld 0 }, 0, rfl⟩,
   ⟨{ ready 0x48 with fault := some .notReset }, by simp [ready], by simp⟩,
   ⟨{ ready 0x48 with csx := none }, by simp [ready], rfl, rfl⟩,
   ⟨ready 0x48, by simp [ready], rfl, rfl⟩,
   ⟨{ driven .command (ready 0x48) with dcx := none }, by simp [ready, driven], rfl, rfl, rfl⟩,
   ⟨driven .command DevState.powerOn, .low, rfl, rfl, rfl, rfl⟩,
   ⟨{ driven .command (ready 0x48) with quiet := 1 }, .low, rfl, rfl, rfl, rfl, rfl⟩,
   ⟨driven .command (ready 0x48), rfl, rfl, rfl, rfl, rfl⟩,
   ⟨driven .data (ready 0x48), .high, by decide, rfl, rfl, rfl, rfl, rfl⟩⟩

/-- Unfinished commands, an unknown code, a write out of order, a bad and a good window, and a complete command. -/
theorem witness_CommandAcceptance :
    (∃ d : DevState, d.cmd = some .caset ∧ d.pidx < 4) ∧ (∃ d : DevState, d.cmd = some .paset ∧ d.pidx < 4) ∧
    (∃ d : DevState, d.cmd = some .madctl ∧ d.pidx < 1) ∧ (∃ d : DevState, d.cmd = some .ramwr ∧ d.pix ≠ []) ∧
    (unfinished (ready 0x48) = none ∧ Opcode.ofByte 0x00 = none ∧ (ready 0x48).wseq ≠ .rowSet) ∧
    (∃ f, checkWindow instE { windowed with madctl := none } = .error f) ∧ checkWindow instE windowed = .ok (10, 20) ∧
    (windowed.cmd = some .paset ∧ 4 ≤ windowed.pidx ∧ windowed.wseq = .rowSet) :=
  ⟨⟨{ ready 0 with cmd := some .caset, pidx := 3 }, rfl, by decide⟩,
   ⟨{ ready 0 with cmd := some .paset, pidx := 0 }, rfl, by decide⟩,
   ⟨{ ready 0 with cmd := some .madctl }, rfl, by decide⟩,
   ⟨{ streaming with pix := [1, 2] }, rfl, by decide⟩, by decide, ⟨.windowInvalid .noMadctl, rfl⟩, rfl, by decide⟩

theorem latchOk_ready (m : Byte) : (ready m).latchOk := by simp [DevState.latchOk, ready, DevState.powerOn]

/-- A device with agreeing latches for each latched command. -/
theorem witness_DataRouting : DevState.powerOn.latchOk ∧ (ready 0x48).latchOk ∧ windowed.latchOk ∧ streaming.latchOk ∧
    DevState.latchOk { streaming with pix := [1, 2] } ∧
    DevState.latchOk { ready 0x48 with cmd := some .paset, pidx := 3, pbuf := [0, 20, 0] } ∧
    DevState.latchOk { ready 0x48 with cmd := some .caset } ∧
    DevState.latchOk { ready 0x48 with cmd := some .madctl, pidx := 1 } ∧
    DevState.latchOk { ready 0x48 with cmd := some (.cfg .xE9) } := by
  refine ⟨?_, latchOk_ready _, ?_, ?_, ?_, ?_, ?_, ?_, ?_⟩ <;>
    simp [DevState.latchOk, windowed, streaming, ready, DevState.powerOn, CfgMap.get, CfgMap.set, CfgMap.const]

theorem witness_FaultingByteChangesNothingElse :
    (devStep instE (driven .data (ready 0x48)) (.byte 0)).fault ≠ (driven .data (ready 0x48)).fault := by decide

theorem witness_FaultedDeviceFrozen : ({ ready 0x48 with fault := some .writeOverrun } : DevState).fault ≠ none ∧
    Event.res .low ∉ [Event.byte 0x11, .wait 120, .res .high] := by decide

/-- A third pixel byte, and an access-control byte with another value. -/
theorem witness_FrameMemoryGate :
    (devStep instE (driven .data { streaming with pix := [1, 2] }) (.byte 3)).fm ≠ [] ∧
    (devStep instE (driven .data { ready 0x48 with cmd := some .madctl, fm := [(0, ⟨1, 2, 3⟩)] }) (.byte 0x28)).fm ≠
      [(0, ⟨1, 2, 3⟩)] := by decide

theorem witness_ResetLineLow : (ready 0x48).resx ≠ some .low ∧
    ({ DevState.powerOn with phase := .resetHeld 7, resx := some .low } : DevState).resx = some .low ∧
    ({ DevState.powerOn with phase := .resetHeld 7, resx := some .low } : DevState).phase = .resetHeld 7 := by decide

/-- The pulses of 100 ms and 99 ms, and a device that is not held. -/
theorem witness_ResetLineHigh : (∃ d : DevState, d.phase = .resetHeld 100 ∧ 100 ≤ 100) ∧
    (∃ d : DevState, d.phase = .resetHeld 99 ∧ 99 < 100) ∧ ¬∃ t, (ready 0x48).phase = .resetHeld t :=
  ⟨⟨{ DevState.powerOn with phase := .resetHeld 100 }, rfl, by decide⟩,
   ⟨{ DevState.powerOn with phase := .resetHeld 99 }, rfl, by decide⟩, by simp [ready]⟩

theorem witness_WaitRunsTimers : (∃ d : DevState, d.phase = .resetHeld 0) ∧ ¬∃ t, (ready 0x48).phase = .resetHeld t :=
  ⟨⟨{ DevState.powerOn with phase := .resetHeld 0 }, rfl⟩, by simp [ready]⟩

theorem witness_OnlyResetSleepsOrBlanks : Event.byte 0x11 ≠ .res .low ∧ (ready 0x48).sleep = false ∧
    (ready 0x48).displayOn = true := by decide

/-- The hypothesis of the result statements of SLPOUT, DISPON, CASET, PASET, MADCTL and the configuration instructions. -/
theorem witness_accepting : (on (ready 0x48)).dev.accepting := by decide

/-- The hypotheses of the three statements on streams: a 2 by 2 window and streams of 0, 12 and 13 bytes. -/
theorem witness_stream : (on windowed).dev.accepting ∧ (on windowed).dev.wseq = .rowSet ∧
    (on windowed).dev.validWindow (on windowed).params 10 11 20 21 0x48 ∧
    ([] : List Byte).length ≤ windowPixels 10 11 20 21 * 3 ∧
    ([1, 2, 3, 4, 5, 6, 7, 8, 9, 10, 11, 12] : List Byte).length = windowPixels 10 11 20 21 * 3 := by decide

/-- The overrun statement: its stream that fits answers a next state. -/
theorem witness_RamwrOverrun : ∃ t, exec (.ramwr [1, 2, 3, 4, 5, 6, 7, 8, 9, 10, 11, 12]) (on windowed) =
    .next { on windowed with dev := t } := ⟨_, rfl⟩

/-- One device for each refusal: order, pixel format, unset register, no access control, and a window at the edge. -/
theorem witness_RamwrRefusesBadWindow : (ready 0x48).accepting ∧ (ready 0x48).wseq ≠ .rowSet ∧ windowed.accepting ∧
    windowed.wseq = .rowSet ∧ (CfgMap.const (none : Option (List Byte))).x3A ≠ some instE.pixfmt24 ∧
    windowed.cfg.x3A = some instE.pixfmt24 ∧ ({ windowed with sp := none } : DevState).sp = none ∧
    ({ windowed with madctl := none } : DevState).madctl = none ∧ cols instE 0x48 ≤ (320 : Word16).toNat ∧
    (319 : Word16).toNat < cols instE 0x48 := by decide

theorem witness_UntakenInstruction : (∃ s : State, ∃ t, s.dev.phase = .resetHeld t) ∧ (∃ s : State, s.dev.fault ≠ none) ∧
    (State.reset.dev.fault = none ∧ State.reset.dev.phase = .powerOn) ∧
    (∃ s : State, s.dev.fault = none ∧ s.dev.phase = .ready ∧ 0 < s.dev.quiet) :=
  ⟨⟨on { ready 0 with phase := .resetHeld 5 }, 5, rfl⟩, ⟨on { ready 0 with fault := some .notReset }, by decide⟩,
   by decide, ⟨on { ready 0 with quiet := 120 }, by decide⟩⟩

theorem witness_InterruptedCommand : (ready 0).receptive ∧
    (∃ d : DevState, d.receptive ∧ d.cmd = some .caset ∧ d.pidx = 3) ∧
    (∃ d : DevState, d.receptive ∧ d.cmd = some .madctl ∧ d.pidx = 0) ∧
    (∃ d : DevState, d.receptive ∧ d.cmd = some .ramwr ∧ d.pix ≠ []) :=
  ⟨by decide, ⟨{ ready 0 with cmd := some .caset, pidx := 3 }, by decide⟩, ⟨{ ready 0 with cmd := some .madctl }, by decide⟩,
   ⟨{ streaming with pix := [1] }, by decide⟩⟩

theorem witness_InstructionFrame : ∃ t, exec .dispon State.reset = .next t := ⟨_, rfl⟩

theorem witness_DataMayBeSplit : ([1, 2] : List Byte) ≠ [] ∧ ([3] : List Byte) ≠ [] := by decide

/-- One pointer for each clause: inside a row, at a row's end, at the last address of all. -/
theorem witness_WritePointerAdvance : (∃ sc ec sp ep c r : Word16, sc ≤ c ∧ c ≤ ec ∧ sp ≤ r ∧ r ≤ ep ∧ c < ec) ∧
    (∃ sc ec sp ep c r : Word16, sc ≤ c ∧ c ≤ ec ∧ sp ≤ r ∧ r ≤ ep ∧ c = ec ∧ r < ep) ∧
    (∃ sc ec sp ep c r : Word16, sc ≤ c ∧ c ≤ ec ∧ sp ≤ r ∧ r ≤ ep ∧ c = ec ∧ r = ep) :=
  ⟨⟨0, 0xFFFF, 0, 0, 0xFFFE, 0, by decide⟩, ⟨7, 0xFFFF, 0, 0xFFFF, 0xFFFF, 0xFFFE, by decide⟩,
   ⟨0, 0xFFFF, 0, 0xFFFF, 0xFFFF, 0xFFFF, by decide⟩⟩

theorem witness_WindowOrderEnforced : (ready 0x48).accepting ∧ (ready 0x48).madctl = some 0x48 ∧
    (ready 0x48).cfg.x3A = some instE.pixfmt24 ∧ (0 : Word16) ≤ 319 ∧ (0 : Word16) ≤ 479 ∧
    (319 : Word16).toNat < cols instE 0x48 ∧ (479 : Word16).toNat < rows instE 0x48 ∧
    (∀ i ∈ ([.dispon, .madctl 0x48, .paset 0 0, .cfgC1 []] : List Instr),
      i.opcode ≠ .slpout ∧ i.opcode ≠ .caset ∧ i.opcode ≠ .ramwr) ∧
    ([1, 2, 3] : List Byte).length ≤ windowPixels 0 319 0 479 * 3 ∧ ([1, 2, 3] : List Byte).length % 3 = 0 := by decide

theorem witness_SleepOutQuietTime : (ready 0x48).accepting ∧ 119 < 120 ∧ 120 ≤ 120 := by decide

/-- Before the first reset, after one, and held in reset. -/
theorem witness_BeginLeavesReadyPanel : DevState.powerOn.resetOk ∧ (ready 0x48).resetOk ∧
    DevState.resetOk { DevState.powerOn with phase := .resetHeld 3, resx := some .low } := by
  refine ⟨?_, ?_, ?_⟩ <;> simp [DevState.resetOk, ready, DevState.powerOn, DevState.resetValues]

/-- A 2 by 2 rectangle, and the corner of the extent. -/
theorem witness_FlushStoresBuffer : (ready 0x48).accepting ∧ (ready 0x48).madctl = some 0x48 ∧
    (ready 0x48).cfg.x3A = some instE.pixfmt24 ∧ 10 ≤ 11 ∧ 11 + instE.offsetX ≤ 0xFFFF ∧
    11 + instE.offsetX < cols instE 0x48 ∧ 319 + instE.offsetX < cols instE 0x48 ∧ 479 + instE.offsetY < rows instE 0x48 ∧
    (List.replicate 12 (0 : Byte)).length = (11 - 10 + 1) * (21 - 20 + 1) * 3 := by decide

/-- A command with data, one alone, one whose data do not belong to it, and a line event. -/
theorem witness_StepRunsDecodedInstruction :
    (∃ s : State, s.bus = commandTx s.params 0x36 ++ dataTx s.params [0x48] ++ [] ∧ decode [0x36, 0x48] = .ok (.madctl 0x48)) ∧
    (∃ s : State, s.bus = commandTx s.params 0x11 ++ [] ∧ takeTx s.params .data [] = none ∧ decode [0x11] = .ok .slpout) ∧
    (∃ s : State, s.bus = commandTx s.params 0x29 ++ dataTx s.params [0x00] ++ [] ∧ (∀ j, decode [0x29, 0x00] ≠ .ok j) ∧
      decode [0x29] = .ok .dispon) ∧
    (∃ s : State, s.bus = [.res .low] ∧ fetch s.params s.bus = none) :=
  ⟨⟨{ on (ready 0) with bus := commandTx instE 0x36 ++ dataTx instE [0x48] }, by decide, by decide⟩,
   ⟨{ on (ready 0) with bus := commandTx instE 0x11 }, by decide, rfl, by decide⟩,
   ⟨{ on (ready 0) with bus := commandTx instE 0x29 ++ dataTx instE [0x00] }, by decide,
     fun j (h : decode [0x29, 0x00] = .ok j) => by simpa using h.symm.trans test_decode_refuses_data_after_f0, by decide⟩,
   ⟨{ on (ready 0) with bus := [.res .low] }, rfl, rfl⟩⟩

theorem witness_IdleMachineStays : State.reset.bus = [] ∧ State.reset.ops = [] := by decide

theorem witness_StepKeepsMemoryForm : Memory.wf (on { ready 0 with fm := [(0x140000A, ⟨1, 2, 3⟩)] }).dev.fm = true ∧
    ∃ t, step (on { ready 0 with fm := [(0x140000A, ⟨1, 2, 3⟩)] }) = .next t := ⟨by decide, ⟨_, rfl⟩⟩

/-- A device in the middle of a stream, with a pixel stored and one byte pending. -/
theorem witness_StepKeepsDeviceInvariant :
    DevState.ok instE { streaming with wp := some (11, 20), pix := [4], pidx := 4, fm := FrameMem.write [] 10 20 ⟨1, 2, 3⟩ } ∧
    ∃ t, step (on { streaming with wp := some (11, 20), pix := [4], pidx := 4, fm := FrameMem.write [] 10 20 ⟨1, 2, 3⟩ }) = .next t := by
  refine ⟨⟨by decide, ?_, ?_, ?_, ?_, ?_, ?_⟩, ⟨_, rfl⟩⟩
  · intro c r h
    rw [FrameMem.read_write] at h
    split at h
    · rename_i he; obtain ⟨rfl, rfl⟩ := he; exact ⟨0x48, rfl, by decide, by decide⟩
    · simp at h
  · intro _; exact ⟨10, 11, 20, 21, 0x48, 11, 20, rfl, rfl, rfl, rfl, rfl, rfl, by decide⟩
  · simp [DevState.seqOk, streaming]
  · simp [DevState.latchOk, streaming, windowed, ready, DevState.powerOn]
  · simp [DevState.countOk, streaming]
  · simp [DevState.resetOk, streaming, windowed, ready, DevState.powerOn]

theorem witness_StepKeepsHostInvariant :
    HostState.ok { w := some 320, h := some 480 } ∧
    ({ on (ready 0) with canvases := [canvas4 7], host := { w := some 320, h := some 480 } } : State).canvasesOk ∧
    ∃ t, step { on (ready 0) with canvases := [canvas4 7], host := { w := some 320, h := some 480 },
                                  ops := [.setRGB 0 3 3 1 2 3] } = .next t :=
  ⟨.inr (.inl ⟨rfl, rfl⟩), fun c h => by simp at h; subst h; decide, ⟨_, rfl⟩⟩

/-- A register write's two calls both answer a next state. -/
theorem witness_TransmissionFraming : (∃ t, perform (.command 0x36) (on (ready 0)) = .next t) ∧
    ∃ t, perform (.sendData [0x48]) (on (ready 0)) = .next t := ⟨⟨_, rfl⟩, ⟨_, rfl⟩⟩

/-- The two minima themselves. -/
theorem witness_HardResetEmits : 100 ≤ 100 ∧ 50 ≤ 50 := by decide

/-- The last address that fits 16 bits, and the first that does not. -/
theorem witness_WindowOperationsEmit : 65535 + (on (ready 0)).ox ≤ 0xFFFF ∧ 0xFFFF < 65536 + (on (ready 0)).oy := by decide

theorem witness_LcdDirectionEmits : 4 % 4 = 0 ∧ 5 % 4 = 1 ∧ 4000000002 % 4 = 2 ∧ 7 % 4 = 3 := by decide

theorem witness_ScreenOperations : ∃ s : State, s.host.w = some 480 ∧ s.host.h = some 320 ∧ 0 < 480 ∧ 0 < 320 :=
  ⟨{ on (ready 0) with host := { w := some 480, h := some 320 } }, by decide⟩

/-- A rectangle of one column, and the first inverted ones. -/
theorem witness_CanvasCreation : (10 ≤ 10 ∧ 20 ≤ 21) ∧ 4 < 5 := by decide

/-- No size and no canvas, as at reset. -/
theorem witness_MissingCanvasOrSizeRefused : State.reset.host.w = none ∧ State.reset.canvases.length ≤ 0 := by decide

/-- The last pixel of a canvas, and the first coordinate outside it: SetThenGetPixel, OutsideCanvasRefused,
CanvasClearAndFlush. -/
theorem witness_canvas : (canvas4 7).wf = true ∧ 3 < (canvas4 7).cw ∧ 3 < (canvas4 7).ch ∧ (canvas4 7).cw ≤ 4 ∧
    ({ on (ready 0) with canvases := [canvas4 7] } : State).canvases[0]? = some (canvas4 7) := by decide

theorem witness_SetColorComposes :
    ({ on (ready 0) with canvases := [canvas4 7] } : State).canvases[0]? = some (canvas4 7) ∧
    (canvas4 7).getRGB 3 3 = some ⟨7, 7, 7⟩ := by decide

/-- A picture that covers the last pixel of a canvas and not its first. -/
theorem witness_DrawImageOverlap :
    ({ on (ready 0) with canvases := [canvas4 7] } : State).canvases[0]? = some (canvas4 7) ∧
    (canvas4 7).wf = true ∧ 3 < (canvas4 7).cw ∧ 3 < (canvas4 7).ch ∧
    ([[⟨10, 20, 30, 255⟩]] : List (List Color))[0]? = some [⟨10, 20, 30, 255⟩] ∧
    ([⟨10, 20, 30, 255⟩] : List Color)[0]? = some ⟨10, 20, 30, 255⟩ ∧ ((3 : Nat) : Int) = 3 + (0 : Nat) ∧
    (canvas4 7).getRGB 3 3 = some ⟨7, 7, 7⟩ ∧
    ∀ (j i : Nat) (row : List Color), ([[⟨10, 20, 30, 255⟩]] : List (List Color))[j]? = some row → i < row.length →
      ¬(((0 : Nat) : Int) = 3 + i ∧ ((0 : Nat) : Int) = 3 + j) :=
  ⟨by decide, by decide, by decide, by decide, rfl, rfl, rfl, by decide, fun j i _ _ _ h => by omega⟩

end Sys2Proof.Tests
end

section
/-!
PROOFS. The byte order of the coordinates (20_memory.md R63).
-/

namespace Sys2Proof

@[simp] theorem Instr.data_caset (s e : Word16) : (Instr.caset s e).data = encPair s e := rfl

@[simp] theorem Instr.data_paset (s e : Word16) : (Instr.paset s e).data = encPair s e := rfl

/-- Settles O8: both commands send `encPair` of their two coordinates, and `hi8` and `lo8` are the quotient and the
remainder by 256. -/
theorem coordinatesHighByteFirst : Obligations.CoordinatesHighByteFirst := by
  intro s e
  refine ⟨?caset, ?paset, toNat_hi8 s, toNat_lo8 s⟩
  case caset => rw [Instr.data_caset, encPair_eq]
  case paset => rw [Instr.data_paset, encPair_eq]

end Sys2Proof
end

section
/-!
PROOFS. The host driver (44_host_driver.md): the events its operations emit and what they write of the host state.
-/

namespace Sys2Proof.Machine

/-! ## Transmissions (44_host_driver.md R181, R182, R185, R188) -/

theorem State.emits_eq_next {s t : State} {trace : List Event} :
    s.emits trace = .next t ↔ t = { s with bus := trace, reply := .nothing } := by
  rw [State.emits, Host.Outcome.next.injEq, eq_comm]

theorem perform_exchangeData (s : State) (kind : Kind) (payload : List Byte) :
    perform (.exchangeData kind payload) s = .next { s with
      bus := [.cs s.params.csActive, .dc (kindLevel s.params kind)] ++ payload.map .byte ++ [.cs s.params.csActive.not],
      reply := .nothing } := rfl

theorem perform_command_eq_exchangeData (s : State) (b : Byte) :
    perform (.command b) s = perform (.exchangeData .command [b]) s := rfl

/-- A register write is its two calls with nothing between them (44_host_driver.md R188). -/
theorem perform_writeReg_of_calls {s s1 s2 : State} {b : Byte} {bytes : List Byte}
    (hcommand : perform (.command b) s = .next s1) (hdata : perform (.sendData bytes) s = .next s2) :
    perform (.writeReg b bytes) s = .next { s with bus := s1.bus ++ s2.bus, reply := .nothing } := by
  obtain rfl := State.emits_eq_next.mp hcommand
  obtain rfl := State.emits_eq_next.mp hdata
  rfl

theorem hardResetTrace_of_waits {t1 t2 : Nat} (h1 : tResetLow ≤ t1) (h2 : tResetRecover ≤ t2) :
    hardResetTrace (t1 - tResetLow) (t2 - tResetRecover) = [.res .low, .wait t1, .res .high, .wait t2] := by
  rw [hardResetTrace, Nat.add_sub_cancel' h1, Nat.add_sub_cancel' h2]

/-- Settles O46: every clause is what one call emits; a register write runs its two calls. -/
theorem transmissionFraming : Obligations.TransmissionFraming := fun s payload b =>
  ⟨perform_exchangeData s .command payload, perform_exchangeData s .data payload,
    perform_command_eq_exchangeData s b, fun _ _ => perform_writeReg_of_calls⟩

/-- Settles O48: the model's argument is the excess over each minimum, so the wait emitted is the one asked for. -/
theorem hardResetEmits : Obligations.HardResetEmits := fun _ _ _ h1 h2 =>
  State.emits_eq_next.mpr (by rw [← hardResetTrace_of_waits h1 h2]; rfl)

/-! ## The window operations (44_host_driver.md R189 to R191) -/

theorem setWindowTrace_none {p : Params} {x0 y0 x1 y1 : Nat}
    (h : 0xFFFF < x0 + p.offsetX ∨ 0xFFFF < x1 + p.offsetX ∨ 0xFFFF < y0 + p.offsetY ∨ 0xFFFF < y1 + p.offsetY) :
    setWindowTrace p x0 y0 x1 y1 = none := if_neg (by omega)

/-- A flush is refused exactly where its window is, and otherwise adds one data call to it (44_host_driver.md R191). -/
theorem flushTrace_eq_map (p : Params) (x0 y0 x1 y1 : Nat) (buf : List Byte) :
    flushTrace p x0 y0 x1 y1 buf = (setWindowTrace p x0 y0 x1 y1).map (· ++ dataTx p buf) := by
  rw [flushTrace]
  cases setWindowTrace p x0 y0 x1 y1 <;> rfl

theorem perform_setWindow (s : State) (x0 y0 x1 y1 : Nat) :
    perform (.setWindow x0 y0 x1 y1) s = s.emitsWindow (setWindowTrace s.params x0 y0 x1 y1) := rfl

theorem perform_flushBitBuffer (s : State) (x0 y0 x1 y1 : Nat) (buf : List Byte) :
    perform (.flushBitBuffer x0 y0 x1 y1 buf) s = s.emitsWindow (flushTrace s.params x0 y0 x1 y1 buf) := rfl

/-- Settles O50: both operations follow the trace of the window, which is there exactly if the addresses fit 16 bits. -/
theorem windowOperationsEmit : Obligations.WindowOperationsEmit := by
  intro s x0 y0 x1 y1 buf
  rw [perform_setWindow, perform_flushBitBuffer, flushTrace_eq_map]
  refine ⟨fun hfits => ?fits, fun hover => ?overflows⟩
  case fits => rw [setWindowTrace_some hfits]; exact ⟨rfl, rfl⟩
  case overflows => rw [setWindowTrace_none hover]; exact ⟨rfl, rfl⟩

/-! ## Orientation (44_host_driver.md R193, R194) -/

theorem rotByte_of_mod_zero (p : Params) {sel : Nat} (h : sel % 4 = 0) : rotByte p sel = p.rot0 := by simp [rotByte, h]

theorem rotByte_of_mod_one (p : Params) {sel : Nat} (h : sel % 4 = 1) : rotByte p sel = p.rot1 := by simp [rotByte, h]

theorem rotByte_of_two_le_mod (p : Params) {sel : Nat} (h : 2 ≤ sel % 4) : rotByte p sel = p.rot23 := by
  obtain h | h : sel % 4 = 2 ∨ sel % 4 = 3 := by omega
  all_goals simp [rotByte, h]

theorem rotSize_of_mod_zero {sel : Nat} (h : sel % 4 = 0) : rotSize sel = (320, 480) := if_pos h

theorem rotSize_of_mod_ne_zero {sel : Nat} (h : sel % 4 ≠ 0) : rotSize sel = (480, 320) := if_neg h

/-- A turn to the byte and the size of the selector: one access-control command is emitted, and the size is written
(44_host_driver.md R194). -/
theorem perform_lcdDirection {s : State} {sel w h : Nat} {m : Byte} (hbyte : rotByte s.params sel = m)
    (hsize : rotSize sel = (w, h)) : perform (.lcdDirection sel) s = .next { s with
      host := { w := some w, h := some h }, bus := instrEvents s.params (.madctl m), reply := .nothing } := by
  rw [perform, State.turns, hsize, lcdDirectionTrace, hbyte]
  rfl

/-- Settles O51: by the residue of the selector. -/
theorem lcdDirectionEmits : Obligations.LcdDirectionEmits := by
  intro s sel
  refine ⟨fun h => ?zero, fun h => ?one, fun h => ?two, fun h => ?three⟩
  case zero => exact perform_lcdDirection (rotByte_of_mod_zero _ h) (rotSize_of_mod_zero h)
  case one => exact perform_lcdDirection (rotByte_of_mod_one _ h) (rotSize_of_mod_ne_zero (by omega))
  case two => exact perform_lcdDirection (rotByte_of_two_le_mod _ (by omega)) (rotSize_of_mod_ne_zero (by omega))
  case three => exact perform_lcdDirection (rotByte_of_two_le_mod _ (by omega)) (rotSize_of_mod_ne_zero (by omega))

/-! ## Full-screen operations (44_host_driver.md R195 to R197) -/

theorem State.fullSize_eq_some {s : State} {w h : Nat} (hw : s.host.w = some w) (hh : s.host.h = some h) (hw0 : 0 < w)
    (hh0 : 0 < h) : s.fullSize = some (w, h) := by
  simp [State.fullSize, hw, hh, hw0, hh0]

theorem perform_clear_of_fullSize {s : State} {w h : Nat} (hs : s.fullSize = some (w, h)) (r g b : Byte) :
    perform (.clear r g b) s =
      perform (.flushBitBuffer 0 0 (w - 1) (h - 1) (solid (w * h) { r := r, g := g, b := b })) s := by
  simp only [perform, State.clears, hs]

theorem perform_getFullScreenCanvas_of_fullSize {s : State} {w h : Nat} (hs : s.fullSize = some (w, h)) :
    perform .getFullScreenCanvas s = perform (.getCanvas 0 0 (w - 1) (h - 1)) s := by
  simp only [perform, State.makesFullScreen, hs]

/-- Settles O52: the buffer `Clear` flushes is the solid one. -/
theorem screenOperations : Obligations.ScreenOperations := by
  intro s w h r g b
  refine ⟨rfl, fun hw hh hw0 hh0 => ?_⟩
  have hs : s.fullSize = some (w, h) := State.fullSize_eq_some hw hh hw0 hh0
  exact ⟨⟨_, perform_clear_of_fullSize hs r g b, solid_length _ _, fun _ => solid_get _⟩,
    perform_getFullScreenCanvas_of_fullSize hs⟩

end Sys2Proof.Machine
end

section
/-!
PROOFS. The canvas (45_host_canvas.md): what its operations write of its buffer, what they return, what they emit.
-/

namespace Sys2Proof.Machine

/-! ## Operations on a canvas that was made (45_host_canvas.md R210) -/

theorem State.changesCanvas_of_canvas {s : State} {k : Nat} {c c' : Canvas} {f : Canvas → Option Canvas}
    (hk : s.canvases[k]? = some c) (hf : f c = some c') :
    s.changesCanvas k f = .next { s with canvases := s.canvases.set k c', reply := .nothing } := by
  simp only [State.changesCanvas, hk, hf]

theorem State.changesCanvas_congr {s : State} {k : Nat} {c : Canvas} {f g : Canvas → Option Canvas}
    (hk : s.canvases[k]? = some c) (hfg : f c = g c) : s.changesCanvas k f = s.changesCanvas k g := by
  simp only [State.changesCanvas, hk, hfg]

theorem State.readsCanvas_of_canvas {s : State} {k : Nat} {c : Canvas} {f : Canvas → Option HostReply} {r : HostReply}
    (hk : s.canvases[k]? = some c) (hf : f c = some r) : s.readsCanvas k f = .next { s with reply := r } := by
  simp only [State.readsCanvas, hk, hf, State.returns]

theorem State.flushesCanvas_of_canvas {s : State} {k : Nat} {c : Canvas} (payload : Canvas → List Byte)
    (hk : s.canvases[k]? = some c) :
    s.flushesCanvas k payload = perform (.flushBitBuffer c.x0 c.y0 c.x1 c.y1 (payload c)) s := by
  simp only [State.flushesCanvas, hk, perform_flushBitBuffer]

/-- The canvas an operation has put in its place is the one the next operation finds there. -/
theorem State.canvases_set_self {s : State} {k : Nat} {c : Canvas} (c' : Canvas) (hk : s.canvases[k]? = some c) :
    (s.canvases.set k c')[k]? = some c' := List.getElem?_set_self (List.getElem?_eq_some_iff.mp hk).1

/-! ## Writing and reading a pixel (45_host_canvas.md R211 to R213) -/

theorem Canvas.getRGB_eq_some {c : Canvas} {x y : Nat} {px : Pixel} :
    c.getRGB x y = some px ↔ c.inside x y = true ∧ c.buf[c.idx x y]? = some px.r ∧
      c.buf[c.idx x y + 1]? = some px.g ∧ c.buf[c.idx x y + 2]? = some px.b := by
  unfold Canvas.getRGB
  constructor
  · intro h
    split at h
    case isFalse => cases h
    case isTrue hin =>
      split at h
      · cases h; exact ⟨hin, ‹_›, ‹_›, ‹_›⟩
      · cases h
  · rintro ⟨hin, hr, hg, hb⟩
    rw [if_pos hin, hr, hg, hb]

/-- What a write leaves alone: the rectangle, the length of the buffer, every byte but the pixel's three. -/
theorem Canvas.setRGB_frame {c c' : Canvas} {x y : Nat} {px : Pixel} (h : c.setRGB x y px = some c') :
    c' = { c with buf := c'.buf } ∧ c'.buf.length = c.buf.length ∧
      ∀ j, j < c.idx x y ∨ c.idx x y + 2 < j → c'.buf[j]? = c.buf[j]? := by
  obtain ⟨-, h⟩ := Option.ite_none_right_eq_some.mp h
  cases h
  refine ⟨rfl, by simp only [List.length_set], fun j hj => ?_⟩
  rw [List.getElem?_set_ne (by omega), List.getElem?_set_ne (by omega), List.getElem?_set_ne (by omega)]

theorem perform_getRGB_of_canvas {s : State} {k x y : Nat} {c : Canvas} {px : Pixel} (hk : s.canvases[k]? = some c)
    (hpx : c.getRGB x y = some px) : perform (.getRGB k x y) s = .next { s with reply := .rgb px } :=
  State.readsCanvas_of_canvas hk (congrArg (Option.map HostReply.rgb) hpx)

theorem perform_setRGB_of_canvas {s : State} {k x y : Nat} {c c' : Canvas} {r g b : Byte}
    (hk : s.canvases[k]? = some c) (hset : c.setRGB x y { r := r, g := g, b := b } = some c') :
    perform (.setRGB k x y r g b) s = .next { s with canvases := s.canvases.set k c', reply := .nothing } :=
  State.changesCanvas_of_canvas hk hset

/-- Settles O55: the bytes a read finds are those of the pixel it returns, before the write and after it; the rest is the
frame of the write. -/
theorem setThenGetPixel : Obligations.SetThenGetPixel := by
  intro s k c x y r g b hk hc hx hy
  have hin : c.inside x y = true := Canvas.inside_iff.mpr ⟨hx, hy⟩
  obtain ⟨old, hold⟩ := Canvas.getRGB_inside hc hin
  obtain ⟨-, hr0, hg0, hb0⟩ := Canvas.getRGB_eq_some.mp hold
  obtain ⟨c', hset, hnew, -, hcw, -, hothers⟩ := Canvas.setRGB_inside hc hin { r := r, g := g, b := b }
  obtain ⟨hrect, hlen, hbytes⟩ := Canvas.setRGB_frame hset
  have hidx : c'.idx x y = c.idx x y := by rw [Canvas.idx, hcw, Canvas.idx]
  obtain ⟨-, hr, hg, hb⟩ := Canvas.getRGB_eq_some.mp hnew
  rw [hidx] at hr hg hb
  exact ⟨⟨old.r, old.g, old.b, hr0, hg0, hb0, perform_getRGB_of_canvas hk hold⟩,
    c', hrect, hlen, hr, hg, hb, hbytes, perform_setRGB_of_canvas hk hset,
    perform_getRGB_of_canvas (State.canvases_set_self c' hk) hnew, hothers⟩

/-! ## Writing a colour (45_host_canvas.md R214) -/

theorem Canvas.setColor_of_getRGB {c : Canvas} {x y : Nat} {bg : Pixel} (h : c.getRGB x y = some bg) (col : Color) :
    c.setColor x y col = c.setRGB x y (col.over bg) := by
  simp only [Canvas.setColor, h]

/-- Settles O56: on the canvas that holds the background both calls write the same canvas. -/
theorem setColorComposes : Obligations.SetColorComposes := fun _ _ _ _ _ col _ hk hbg =>
  State.changesCanvas_congr hk (Canvas.setColor_of_getRGB hbg col)

/-! ## Clearing and flushing (45_host_canvas.md R218 to R220) -/

theorem Canvas.clear_eq (c : Canvas) : c.clear = { c with buf := List.replicate c.buf.length 0 } := by
  rw [Canvas.clear, List.map_const']

theorem Canvas.getRGB_clear {c : Canvas} {x y : Nat} (hc : c.wf = true) (h : c.inside x y = true) :
    c.clear.getRGB x y = some { r := 0, g := 0, b := 0 } := by
  have hl : c.idx x y + 2 < c.buf.length := Canvas.idx_lt hc h
  have hzero : ∀ j, j < c.buf.length → c.clear.buf[j]? = some 0 := fun j hj => by
    rw [Canvas.clear_eq, List.getElem?_replicate_of_lt hj]
  exact Canvas.getRGB_eq_some.mpr ⟨h, hzero (c.idx x y) (by omega), hzero (c.idx x y + 1) (by omega), hzero _ hl⟩

/-- Settles O60: the cleared buffer is zeros of the old length; both flushes are the driver's over the rectangle. -/
theorem canvasClearAndFlush : Obligations.CanvasClearAndFlush := by
  intro s k c buf hk hc
  refine ⟨?clear, fun x y hx hy => ?black, ?flush, ?flushDirectly⟩
  case clear =>
    exact State.changesCanvas_of_canvas (f := fun c => some c.clear) hk (congrArg some (Canvas.clear_eq c))
  case black => exact Canvas.getRGB_clear hc (Canvas.inside_iff.mpr ⟨hx, hy⟩)
  case flush => exact State.flushesCanvas_of_canvas Canvas.buf hk
  case flushDirectly => exact State.flushesCanvas_of_canvas (fun _ => buf) hk

end Sys2Proof.Machine
end

section
/-!
PROOFS. The encoding (30_encoding.md R97 to R106): the nineteen codes, the operand fields, and that decoder and encoder
are inverse to each other.
-/

namespace Sys2Proof

/-! ## Codes and operands -/

/-- A list says which code names which command if it has no wrong pair and none is missing. -/
theorem nineteenCodes_iff {listed : List (Byte × Opcode)} (hsound : ∀ q ∈ listed, q.2.code = q.1)
    (hcomplete : ∀ op : Opcode, (op.code, op) ∈ listed) (b : Byte) (op : Opcode) :
    Opcode.ofByte b = some op ↔ (b, op) ∈ listed := by
  rw [Opcode.ofByte_eq_some]
  exact ⟨fun h => h ▸ hcomplete op, fun h => hsound (b, op) h⟩

/-- Settles O7: every listed pair is a command with its code, and the code of every command is listed. -/
theorem nineteenCodes : Obligations.NineteenCodes := by
  refine nineteenCodes_iff (by decide) (fun op => ?_)
  cases op with
  | cfg k => cases k <;> decide
  | _ => decide

theorem decode_caset (d1 d2 d3 d4 : Byte) :
    decode (Opcode.caset.code :: [d1, d2, d3, d4]) = .ok (.caset (be16 d1 d2) (be16 d3 d4)) := decode_code _ _

theorem decode_paset (d1 d2 d3 d4 : Byte) :
    decode (Opcode.paset.code :: [d1, d2, d3, d4]) = .ok (.paset (be16 d1 d2) (be16 d3 d4)) := decode_code _ _

theorem decode_madctl (m : Byte) : decode (Opcode.madctl.code :: [m]) = .ok (.madctl m) := decode_code _ _

/-- Settles O4: the fields are `be16` of neighbouring bytes. -/
theorem operandFields : Obligations.OperandFields := fun d1 d2 d3 d4 m =>
  ⟨⟨be16 d1 d2, be16 d3 d4, toNat_be16 d1 d2, toNat_be16 d3 d4, decode_caset d1 d2 d3 d4, decode_paset d1 d2 d3 d4⟩,
    decode_madctl m⟩

/-! ## Decoder and encoder -/

/-- Reading the data bytes of a well-formed instruction gives it back, format by format. -/
theorem decodeOperands_data {i : Instr} (h : i.wellFormed = true) : decodeOperands i.opcode i.data = .ok i := by
  cases i with
  | caset s e => simp [decodeOperands, Instr.opcode]
  | paset s e => simp [decodeOperands, Instr.opcode]
  | ramwr stream => exact if_pos h
  | _ => rfl

/-- Settles O5: the code selects the operand decoder, which reads the data bytes back. -/
theorem decodeOfEncode : Obligations.DecodeOfEncode := fun i h =>
  (decode_code i.opcode i.data).trans (decodeOperands_data h)

/-- What decodes begins with the code of a command, whose operand decoder read the rest. -/
theorem decode_ok {bytes : List Byte} {i : Instr} (h : decode bytes = .ok i) :
    ∃ op data, bytes = op.code :: data ∧ decodeOperands op data = .ok i := by
  unfold decode at h
  split at h
  · cases h
  · rename_i b data
    split at h
    · cases h
    · rename_i op hop
      exact ⟨op, data, by rw [Opcode.code_of_ofByte hop], h⟩

/-- Settles O6: the operand decoder answers an instruction of its opcode with its data bytes. -/
theorem encodeOfDecode : Obligations.EncodeOfDecode := by
  intro bytes i h
  obtain ⟨op, data, rfl, hop⟩ := decode_ok h
  obtain ⟨rfl, rfl, hwf⟩ := decodeOperands_ok hop
  exact ⟨rfl, hwf⟩

/-- A word of one command decodes as its well-formed instruction. -/
theorem decode_of_encode_eq {bytes : List Byte} {i : Instr} (hwf : i.wellFormed = true) (h : encode i = bytes) :
    decode bytes = .ok i := h ▸ decodeOfEncode i hwf

/-- Settles O3: each listed word is the encoding of its instruction. -/
theorem wordsDecodeAsListed : Obligations.WordsDecodeAsListed := by
  unfold Obligations.WordsDecodeAsListed
  and_intros <;>
    exact decode_of_encode_eq (by decide) (by decide)

end Sys2Proof
end

section
/-!
PROOFS. A byte on the lines (30_encoding.md R95, R105, R107): how the device takes it, what accepting it as a command
and routing it as data answer, and what the device keeps through it and through the other events.
-/

namespace Sys2Proof.Machine

/-! ## Taking a byte (30_encoding.md R95) -/

theorem taking_held {p : Params} {d : DevState} {t : Nat} (h : d.phase = .resetHeld t) : d.taking p = .ignored := by
  simp only [DevState.taking, h]

/-- Past steps 1 and 2 the lines decide, chip-select first. -/
theorem taking_csx_none {p : Params} {d : DevState} (hp : ¬∃ t, d.phase = .resetHeld t) (hf : d.fault = none)
    (hc : d.csx = none) : d.taking p = .faults (.lineUndriven .csx) := by
  unfold DevState.taking
  split
  · exact absurd ⟨_, ‹_›⟩ hp
  · simp [hf, hc]

theorem taking_unselected {p : Params} {d : DevState} (hc : d.csx = some p.csActive.not) : d.taking p = .ignored := by
  unfold DevState.taking
  split
  · rfl
  · simp [hc]

theorem taking_dcx_none {p : Params} {d : DevState} (hp : ¬∃ t, d.phase = .resetHeld t) (hf : d.fault = none)
    (hc : d.csx = some p.csActive) (hd : d.dcx = none) : d.taking p = .faults (.lineUndriven .dcx) := by
  unfold DevState.taking
  split
  · exact absurd ⟨_, ‹_›⟩ hp
  · simp [hf, hc, hd]

/-- A device whose lines are driven takes a byte as one with these lines set does. -/
theorem taking_of_lines {p : Params} {d : DevState} {l : Level} (hc : d.csx = some p.csActive) (hd : d.dcx = some l) :
    d.taking p = (d.withLines (some p.csActive) (some l)).taking p := by
  rw [← hc, ← hd, withLines_self]

theorem takeByte_of_ignored {p : Params} {d : DevState} (h : d.taking p = .ignored) (b : Byte) :
    devStep p d (.byte b) = d := by simp only [devStep, DevState.takeByte, h]

theorem takeByte_of_faults {p : Params} {d : DevState} {f : DeviceFault} (h : d.taking p = .faults f) (b : Byte) :
    devStep p d (.byte b) = { d with fault := some f } := by
  simp only [devStep, DevState.takeByte, h, DevState.raise_of_none (fault_none_of_taking h)]

theorem takeByte_of_command {p : Params} {d : DevState} (h : d.taking p = .command) (b : Byte) :
    devStep p d (.byte b) = d.settle (acceptCommand p b d) := by simp only [devStep, DevState.takeByte, h]

theorem takeByte_of_data {p : Params} {d : DevState} (h : d.taking p = .data) (b : Byte) :
    devStep p d (.byte b) = d.settle (routeData b d) := by simp only [devStep, DevState.takeByte, h]

/-- Settles O9: the nine steps, each by the lemma that says how the byte is taken there. -/
theorem byteTaking : Obligations.ByteTaking := by
  intro p d b
  refine ⟨fun ⟨t, ht⟩ => takeByte_of_ignored (taking_held ht) b, fun hp =>
    ⟨fun hf => takeByte_of_ignored (taking_faulted hf) b, fun hf =>
      ⟨fun hc => takeByte_of_faults (taking_csx_none hp hf hc) b,
        fun hc => takeByte_of_ignored (taking_unselected hc) b, fun hc =>
          ⟨fun hd => takeByte_of_faults (taking_dcx_none hp hf hc hd) b, fun l hd => ⟨fun hph => ?powerOn, fun hph =>
            ⟨fun hq => ?early, fun hq => ⟨fun hl => ?command, fun hl => ?data⟩⟩⟩⟩⟩⟩⟩
  case powerOn => exact takeByte_of_faults (by rw [taking_of_lines hc hd, taking_driven]; simp [hph, hf]) b
  case early => exact takeByte_of_faults (by rw [taking_of_lines hc hd, taking_driven]; simp [hph, hf, hq]) b
  case command => exact takeByte_of_command (by rw [taking_receptive ⟨hph, hf, hq⟩ hc hd, if_pos hl]) b
  case data => exact takeByte_of_data (by rw [taking_receptive ⟨hph, hf, hq⟩ hc hd, if_neg hl]) b

/-! ## Accepting a command byte (30_encoding.md R105) -/

/-- The command before is complete: its parameters are there, and no pixel is pending. -/
theorem unfinished_eq_none {d : DevState} (hwin : d.cmd = some .caset ∨ d.cmd = some .paset → 4 ≤ d.pidx)
    (hacc : d.cmd = some .madctl → 1 ≤ d.pidx) (hpix : d.cmd = some .ramwr → d.pix = []) : unfinished d = none := by
  unfold unfinished
  split
  case h_4 h => exact if_neg (Nat.not_lt.mpr (hwin (.inl h)))
  case h_5 h => exact if_neg (Nat.not_lt.mpr (hwin (.inr h)))
  case h_6 h => exact if_neg (Nat.not_lt.mpr (hacc h))
  case h_7 h => exact if_pos (hpix h)
  all_goals rfl

theorem unfinished_window {d : DevState} {op : Opcode} (hcmd : d.cmd = some op) (hop : op = .caset ∨ op = .paset)
    (h : d.pidx < 4) : unfinished d = some (.incompleteParams op d.pidx) := by
  rcases hop with rfl | rfl <;> simp [unfinished, hcmd, h]

theorem unfinished_madctl {d : DevState} (hcmd : d.cmd = some .madctl) (h : d.pidx < 1) :
    unfinished d = some (.incompleteParams .madctl d.pidx) := by simp [unfinished, hcmd, h]

theorem unfinished_pixel {d : DevState} (hcmd : d.cmd = some .ramwr) (h : d.pix ≠ []) :
    unfinished d = some (.partialPixel d.pix.length) := by simp [unfinished, hcmd, h]

theorem acceptCommand_unknown {p : Params} {d : DevState} {b : Byte} (hu : unfinished d = none)
    (h : ∀ op : Opcode, op.code ≠ b) : acceptCommand p b d = .error (.unknownCommand b) := by
  have hb : Opcode.ofByte b = none := Option.eq_none_iff_forall_ne_some.mpr fun op hop =>
    h op (Opcode.code_of_ofByte hop)
  simp only [acceptCommand, hu, hb]

/-- Memory write out of order (42_address_window.md R155). -/
theorem acceptOpcode_ramwr_outOfOrder {p : Params} {d : DevState} (h : d.wseq ≠ .rowSet) :
    acceptOpcode p .ramwr d = .error (.windowSequence d.wseq) := by simp [acceptOpcode, outOfOrder, h]

/-- Memory write in order, as the window check answers (42_address_window.md R152, R156). -/
theorem acceptOpcode_ramwr_start {p : Params} {d : DevState} {start : Word16 × Word16} (hw : d.wseq = .rowSet)
    (hc : checkWindow p d = .ok start) : acceptOpcode p .ramwr d =
      .ok (DevState.latch { d with wp := some start, pix := [], wdone := false } .ramwr .idle) := by
  obtain ⟨sc, ec, sp, ep, m, hv, rfl⟩ := checkWindow_ok hc
  exact acceptOpcode_ramwr hw hv

theorem atCommand_paset (w : WSeq) : w.atCommand .paset = if w = .colSet then .colSet else .idle := by
  cases w <;> rfl

/-- The row command keeps the tracker right after complete columns (42_address_window.md R155). -/
theorem acceptOpcode_paset (p : Params) (d : DevState) : acceptOpcode p .paset d =
    .ok (d.latch .paset (if d.wseq = .colSet then .colSet else .idle)) := by
  rw [← atCommand_paset]; rfl

/-- Settles O10: an unfinished command first, then the code; a known one by its own acceptance. -/
theorem commandAcceptance : Obligations.CommandAcceptance := by
  intro p d b
  refine ⟨fun hcmd h => acceptCommand_unfinished (unfinished_window hcmd (.inl rfl) h) b,
    fun hcmd h => acceptCommand_unfinished (unfinished_window hcmd (.inr rfl) h) b,
    fun hcmd h => acceptCommand_unfinished (unfinished_madctl hcmd h) b,
    fun hcmd h => acceptCommand_unfinished (unfinished_pixel hcmd h) b, fun hwin hacc hpix => ?_⟩
  have hu : unfinished d = none := unfinished_eq_none hwin hacc hpix
  have known : ∀ op : Opcode, b = op.code → acceptCommand p b d = acceptOpcode p op d :=
    fun op hb => hb ▸ acceptCommand_code hu op
  refine ⟨acceptCommand_unknown hu, fun hb hw => (known .ramwr hb).trans (acceptOpcode_ramwr_outOfOrder hw),
    fun hb hw => ⟨fun f hf => (known .ramwr hb).trans (acceptOpcode_ramwr_error hw hf),
      fun start hs => (known .ramwr hb).trans (acceptOpcode_ramwr_start hw hs)⟩,
    known .slpout, known .dispon, known .caset, fun hb => (known .paset hb).trans (acceptOpcode_paset p d),
    known .madctl, fun k => known (.cfg k)⟩

/-! ## Routing a data byte (30_encoding.md R107) -/

section Routing

variable {d : DevState} {b : Byte}

theorem routeData_none (h : d.cmd = none) : routeData b d = .error (.unexpectedData none) := by
  simp only [routeData, h]

theorem routeData_dataless (h : d.cmd = some .slpout ∨ d.cmd = some .dispon) :
    routeData b d = .error (.unexpectedData d.cmd) := by
  rcases h with h | h <;> simp only [routeData, h]

theorem routeData_caset (h : d.cmd = some .caset) : routeData b d = windowAtData .caset loadColumns b d := by
  simp only [routeData, h, casetAtData]

theorem routeData_paset (h : d.cmd = some .paset) : routeData b d = windowAtData .paset loadRows b d := by
  simp only [routeData, h, pasetAtData]

section Window

variable {op : Opcode} {load : DevState → DevState}

theorem windowAtData_param (hi : d.pidx < 3) : windowAtData op load b d = .ok (d.pushParam b) := by
  rw [windowAtData, if_pos (by omega), if_neg (by omega)]

theorem windowAtData_fourth (hi : d.pidx = 3) : windowAtData op load b d = .ok (load (d.pushParam b)) := by
  rw [windowAtData, if_pos (by omega), if_pos (by omega)]

theorem windowAtData_excess (hi : 4 ≤ d.pidx) : windowAtData op load b d = .error (.excessParams op) :=
  if_neg (Nat.not_lt.mpr hi)

end Window

/-- A parameter before the fourth is latched. -/
theorem routeData_param {op : Opcode} (h : d.cmd = some op) (hop : op = .caset ∨ op = .paset) (hi : d.pidx < 3) :
    routeData b d = .ok { d with pbuf := d.pbuf ++ [b], pidx := d.pidx + 1 } := by
  rcases hop with rfl | rfl
  · exact (routeData_caset h).trans (windowAtData_param hi)
  · exact (routeData_paset h).trans (windowAtData_param hi)

/-- A parameter after the fourth is one too many. -/
theorem routeData_excess {op : Opcode} (h : d.cmd = some op) (hop : op = .caset ∨ op = .paset) (hi : 4 ≤ d.pidx) :
    routeData b d = .error (.excessParams op) := by
  rcases hop with rfl | rfl
  · exact (routeData_caset h).trans (windowAtData_excess hi)
  · exact (routeData_paset h).trans (windowAtData_excess hi)

theorem pushParam_fourth {d1 d2 d3 : Byte} (hi : d.pidx = 3) (hb : d.pbuf = [d1, d2, d3]) :
    d.pushParam b = { d with pbuf := [d1, d2, d3, b], pidx := 4 } := by
  rw [DevState.pushParam, hi, hb]; rfl

/-- The fourth parameter loads the column registers (42_address_window.md R150). -/
theorem routeData_columns {d1 d2 d3 : Byte} (hi : d.pidx = 3) (hb : d.pbuf = [d1, d2, d3]) (h : d.cmd = some .caset) :
    routeData b d = .ok { d with
      pbuf := [d1, d2, d3, b], pidx := 4, sc := some (be16 d1 d2), ec := some (be16 d3 b), wseq := .colSet } := by
  rw [routeData_caset h, windowAtData_fourth hi, pushParam_fourth hi hb, loadColumns_four rfl]

theorem atRows_eq (w : WSeq) : w.atRows = if w = .colSet then .rowSet else .idle := by cases w <;> rfl

/-- The fourth parameter loads the row registers (42_address_window.md R151). -/
theorem routeData_rows {d1 d2 d3 : Byte} (hi : d.pidx = 3) (hb : d.pbuf = [d1, d2, d3]) (h : d.cmd = some .paset) :
    routeData b d = .ok { d with
      pbuf := [d1, d2, d3, b], pidx := 4, sp := some (be16 d1 d2), ep := some (be16 d3 b),
      wseq := if d.wseq = .colSet then .rowSet else .idle } := by
  rw [routeData_paset h, windowAtData_fourth hi, pushParam_fourth hi hb, loadRows_four rfl, atRows_eq]

theorem routeData_madctl (h : d.cmd = some .madctl) (hi : d.pidx = 0) :
    routeData b d = .ok { d with fm := fmAfterMadctl b d, madctl := some b, pidx := 1 } := by
  simp only [routeData, h, madctlAtData, if_pos hi]

theorem routeData_madctl_excess (h : d.cmd = some .madctl) (hi : d.pidx ≠ 0) :
    routeData b d = .error (.excessParams .madctl) := by
  simp only [routeData, h, madctlAtData, if_neg hi]

theorem routeData_overrun (h : d.cmd = some .ramwr) (hw : d.wdone = true) : routeData b d = .error .writeOverrun := by
  simp only [routeData, h, ramwrAtData, if_pos hw]

/-- The first and the second byte of a pixel are pending (42_address_window.md R153). -/
theorem routeData_pending (h : d.cmd = some .ramwr) (hw : d.wdone = false) (hp : d.pix.length < 2) :
    routeData b d = .ok { d with pix := d.pix ++ [b], pidx := d.pidx + 1 } := by
  have hpx : pixelOf (d.pix ++ [b]) = none := pixelOf_eq_none.mpr (by simp; omega)
  simp [routeData, h, ramwrAtData, hw, hpx]

/-- The third byte stores the pixel (42_address_window.md R153, R154). -/
theorem routeData_store {r g : Byte} {c w sc ec ep : Word16} (h : d.cmd = some .ramwr) (hw : d.wdone = false)
    (hp : d.pix = [r, g]) (hwp : d.wp = some (c, w)) (hsc : d.sc = some sc) (hec : d.ec = some ec)
    (hep : d.ep = some ep) : routeData b d = .ok { d with
      fm := d.fm.write c w { r := r, g := g, b := b }, pix := [], wp := some (advance sc ec ep c w).1,
      wdone := (advance sc ec ep c w).2, pidx := d.pidx + 1 } := by
  simp [routeData, h, ramwrAtData, hw, hp, pixelOf, storePixel, hwp, hsc, hec, hep]

theorem routeData_cfg {k : CfgCode} {old : List Byte} (h : d.cmd = some (.cfg k)) (ho : d.cfg.get k = some old) :
    routeData b d = .ok { d with cfg := d.cfg.set k (some (old ++ [b])), pidx := d.pidx + 1 } := by
  simp only [routeData, h, cfgAtData, ho]

end Routing

/-- Settles O11: each clause is what routing answers there; the register of a configuration command holds bytes by the
invariant of the latches. -/
theorem dataRouting : Obligations.DataRouting := by
  rintro d b ⟨-, -, -, -, hcfg⟩
  refine ⟨routeData_none, routeData_dataless, fun op h hop => ⟨routeData_param h hop, routeData_excess h hop⟩,
    fun d1 d2 d3 hi hb => ⟨routeData_columns hi hb, routeData_rows hi hb⟩,
    fun h => ⟨routeData_madctl h, routeData_madctl_excess h⟩,
    fun h => ⟨routeData_overrun h, routeData_pending h, fun r g c w sc ec ep => routeData_store h⟩, fun k h => ?_⟩
  obtain ⟨old, ho, -⟩ := hcfg k h
  exact ⟨old, ho, routeData_cfg h ho⟩

end Sys2Proof.Machine
end

section
/-!
PROOFS. What a command byte and its data bytes leave alone (10_state.md R40), and from it: a fault changes nothing else
(60_exceptions.md R233), and what changes frame memory (30_encoding.md R107).
-/

namespace Sys2Proof.Machine

/-! ## The frame of a command -/

/-- What the bytes of a command leave alone: each field is changed only under the commands 10_state.md R40 names. -/
structure DevState.FrameOf (op : Opcode) (d d' : DevState) : Prop where
  columns : op ≠ .caset → d'.sc = d.sc ∧ d'.ec = d.ec
  rows : op ≠ .paset → d'.sp = d.sp ∧ d'.ep = d.ep
  access : op ≠ .madctl → d'.madctl = d.madctl
  config : ∀ k, op ≠ .cfg k → d'.cfg.get k = d.cfg.get k
  power : op ≠ .slpout → d'.sleep = d.sleep ∧ d'.quiet = d.quiet
  display : op ≠ .dispon → d'.displayOn = d.displayOn
  stream : op ≠ .ramwr → d'.wp = d.wp ∧ d'.pix = d.pix ∧ d'.wdone = d.wdone
  memory : op ≠ .ramwr → op ≠ .madctl → d'.fm = d.fm
  phase : d'.phase = d.phase
  resx : d'.resx = d.resx
  bl : d'.bl = d.bl

theorem DevState.FrameOf.refl (op : Opcode) (d : DevState) : DevState.FrameOf op d d := by
  constructor <;> intros <;> simp only [and_self]

theorem DevState.FrameOf.trans {op : Opcode} {d d' d'' : DevState} (h : DevState.FrameOf op d d')
    (h' : DevState.FrameOf op d' d'') : DevState.FrameOf op d d'' where
  columns := fun ho => by simp only [h'.columns ho, h.columns ho, and_self]
  rows := fun ho => by simp only [h'.rows ho, h.rows ho, and_self]
  access := fun ho => (h'.access ho).trans (h.access ho)
  config := fun k ho => (h'.config k ho).trans (h.config k ho)
  power := fun ho => by simp only [h'.power ho, h.power ho, and_self]
  display := fun ho => (h'.display ho).trans (h.display ho)
  stream := fun ho => by simp only [h'.stream ho, h.stream ho, and_self]
  memory := fun ho ho' => (h'.memory ho ho').trans (h.memory ho ho')
  phase := h'.phase.trans h.phase
  resx := h'.resx.trans h.resx
  bl := h'.bl.trans h.bl

/-- The lines, the latches, the tracker and the fault register are no part of the frame. -/
theorem DevState.FrameOf.of_same {op : Opcode} {d d' : DevState} (h : DevState.FrameOf op d d') {c e : Option Level}
    {f : Option DeviceFault} {o : Option Opcode} {n : Nat} {l : List Byte} {w : WSeq} :
    DevState.FrameOf op d { d' with csx := c, dcx := e, fault := f, cmd := o, pidx := n, pbuf := l, wseq := w } :=
  ⟨h.columns, h.rows, h.access, h.config, h.power, h.display, h.stream, h.memory, h.phase, h.resx, h.bl⟩

/-- A configuration register is written under its own code. -/
theorem DevState.FrameOf.of_cfg (k : CfgCode) (d : DevState) (v : Option (List Byte)) :
    DevState.FrameOf (.cfg k) d { d with cfg := d.cfg.set k v } :=
  { DevState.FrameOf.refl (.cfg k) d with
    config := fun _ hj => CfgMap.get_set_other _ _ fun e => hj (e ▸ rfl) }

/-- The effect at a command byte is within the frame of the command. -/
theorem acceptOpcode_frameOf {p : Params} {op : Opcode} {d d' : DevState} (h : acceptOpcode p op d = .ok d') :
    DevState.FrameOf op d d' := by
  have same : ∀ op, DevState.FrameOf op d d := fun op => .refl op d
  rcases acceptOpcode_ok h with ⟨rfl, rfl⟩ | ⟨rfl, rfl⟩ | ⟨rfl, rfl⟩ | ⟨rfl, rfl⟩ |
    ⟨rfl, -, sc, ec, sp, ep, m, -, rfl⟩ | ⟨rfl, rfl⟩ | ⟨k, rfl, rfl⟩
  · exact { same .slpout with power := fun ho => absurd rfl ho }
  · exact { same .dispon with display := fun ho => absurd rfl ho }
  · exact (same .caset).of_same
  · exact (same .paset).of_same
  · exact { same .ramwr with stream := fun ho => absurd rfl ho }
  · exact (same .madctl).of_same
  · exact (DevState.FrameOf.of_cfg k d (some [])).of_same

/-- A routed data byte is within the frame of the command it belongs to. -/
theorem routeData_frameOf {op : Opcode} {b : Byte} {d d' : DevState} (hcmd : d.cmd = some op)
    (h : routeData b d = .ok d') : DevState.FrameOf op d d' := by
  have same : DevState.FrameOf op d d := .refl op d
  rcases routeData_ok h with ⟨hc, h⟩ | ⟨hc, h⟩ | ⟨hc, h⟩ | ⟨hc, h⟩ | ⟨k, hc, h⟩ <;>
    obtain rfl := Option.some.inj (hcmd.symm.trans hc)
  · obtain ⟨-, ⟨-, rfl⟩ | ⟨-, rfl⟩⟩ := casetAtData_ok h
    · exact same.of_same
    · rcases loadColumns_cases (d.pushParam b) with h' | ⟨s, e, h'⟩ <;> rw [h']
      · exact same.of_same
      · exact { same with columns := fun ho => absurd rfl ho }
  · obtain ⟨-, ⟨-, rfl⟩ | ⟨-, rfl⟩⟩ := pasetAtData_ok h
    · exact same.of_same
    · rcases loadRows_cases (d.pushParam b) with h' | ⟨s, e, h'⟩ <;> rw [h']
      · exact same.of_same
      · exact { same with rows := fun ho => absurd rfl ho }
  · obtain ⟨-, ⟨-, rfl⟩ | ⟨px, c, r, sc, ec, ep, -, -, -, -, -, rfl⟩⟩ := ramwrAtData_ok h
    · exact { same with stream := fun ho => absurd rfl ho }
    · exact { same with stream := fun ho => absurd rfl ho, memory := fun ho => absurd rfl ho }
  · obtain ⟨-, rfl⟩ := madctlAtData_ok h
    exact { same with access := fun ho => absurd rfl ho, memory := fun _ ho => absurd rfl ho }
  · obtain ⟨old, -, rfl⟩ := cfgAtData_ok h
    exact (DevState.FrameOf.of_cfg k d _).of_same

/-! ## What a byte changes -/

/-- Settles O12: a byte that is accepted or routed leaves the fault register alone. -/
theorem faultingByteChangesNothingElse : Obligations.FaultingByteChangesNothingElse := by
  intro p d b hne
  rcases takeByte_cases p d b with h | ⟨hf, f, h⟩ | ⟨-, -, h⟩ | ⟨-, -, h⟩
  · exact absurd (congrArg DevState.fault h) hne
  · exact ⟨hf, f, h⟩
  · exact absurd (acceptCommand_frame h).2.1 hne
  · exact absurd (routeData_frame h).2.2.1 hne

/-- No command byte changes frame memory. -/
theorem acceptCommand_fm {p : Params} {b : Byte} {d d' : DevState} (h : acceptCommand p b d = .ok d') :
    d'.fm = d.fm := by
  obtain ⟨-, op, -, h⟩ := acceptCommand_ok h
  rcases acceptOpcode_ok h with ⟨-, rfl⟩ | ⟨-, rfl⟩ | ⟨-, rfl⟩ | ⟨-, rfl⟩ |
    ⟨-, -, sc, ec, sp, ep, m, -, rfl⟩ | ⟨-, rfl⟩ | ⟨k, -, rfl⟩
  all_goals rfl

/-- A data byte that changes frame memory is one of memory write, or a new value of access control
(30_encoding.md R107; 43_access_control.md R172). -/
theorem routeData_fm {b : Byte} {d d' : DevState} (h : routeData b d = .ok d') (hne : d'.fm ≠ d.fm) :
    d.cmd = some .ramwr ∨ d.cmd = some .madctl ∧ d'.fm = [] ∧ d.madctl ≠ some b := by
  have frame : ∀ op, d.cmd = some op → op = .ramwr ∨ op = .madctl := fun op hc => by
    by_contra ho
    rw [not_or] at ho
    exact hne ((routeData_frameOf hc h).memory ho.1 ho.2)
  rcases routeData_ok h with ⟨hc, -⟩ | ⟨hc, -⟩ | ⟨hc, -⟩ | ⟨hc, h⟩ | ⟨k, hc, -⟩
  · simpa using frame _ hc
  · simpa using frame _ hc
  · exact .inl hc
  · obtain ⟨-, rfl⟩ := madctlAtData_ok h
    have hm : d.madctl ≠ some b := fun hm => hne (if_pos hm)
    exact .inr ⟨hc, if_neg hm, hm⟩
  · simpa using frame _ hc

/-- Settles O14: a byte that changes frame memory is neither ignored nor a command byte, so it is routed. -/
theorem frameMemoryGate : Obligations.FrameMemoryGate := by
  intro p d b hne
  rcases takeByte_cases p d b with h | ⟨-, f, h⟩ | ⟨-, -, h⟩ | ⟨-, ht, h⟩
  · exact absurd (congrArg DevState.fm h) hne
  · exact absurd (congrArg DevState.fm h) hne
  · exact absurd (acceptCommand_fm h) hne
  · exact ⟨dcx_of_taking_data ht, routeData_fm h hne⟩

end Sys2Proof.Machine
end

section
/-!
PROOFS. The other events (70_reset_and_hazards.md R260 to R262, R280; 60_exceptions.md R235, R241, R243): the lines, the
reset line and time, and what a device keeps through all of them.
-/

namespace Sys2Proof.Machine

/-! ## The power-on state (70_reset_and_hazards.md R260) -/

/-- Settles O1: each register by the record of the power-on state. -/
theorem resetIsPowerOnState : Obligations.ResetIsPowerOnState := by
  refine ⟨rfl, rfl, rfl, fun i => ?reg, rfl, CfgMap.get_const none, rfl, FrameMem.read_nil, rfl, rfl, rfl, rfl, rfl,
    rfl, rfl, rfl, rfl, rfl, rfl, rfl⟩
  case reg => cases i <;> rfl

/-! ## Lines and reset -/

/-- Settles O15: a line event is its own record update. -/
theorem lineEventsSetLevels : Obligations.LineEventsSetLevels := fun _ _ _ => ⟨rfl, rfl, rfl⟩

theorem resetLow_of_not_low {d : DevState} (h : d.resx ≠ some .low) : d.resetLow = d.resetValues := if_neg h

theorem resetLow_of_low {d : DevState} (h : d.resx = some .low) : d.resetLow = d := if_pos h

/-- Settles O16: by the level the line had. -/
theorem resetLineLow : Obligations.ResetLineLow := fun _ _ =>
  ⟨resetLow_of_not_low, resetLow_of_low, fun _ b h => takeByte_of_ignored (taking_held h) b⟩

theorem resetHigh_long {d : DevState} {t : Nat} (h : d.phase = .resetHeld t) (ht : tResetLow ≤ t) :
    d.resetHigh = { d with resx := some .high, phase := .ready, quiet := tResetRecover } := by
  simp only [DevState.resetHigh, h, if_pos ht]

/-- Raising keeps an earlier fault (60_exceptions.md R233). -/
theorem DevState.raise_eq (d : DevState) (f : DeviceFault) : d.raise f = { d with fault := some (d.fault.getD f) } := by
  cases hf : d.fault with
  | none => exact DevState.raise_of_none hf f
  | some g => rw [DevState.raise_of_some (by simp [hf]), Option.getD_some, ← hf]

theorem resetHigh_short {d : DevState} {t : Nat} (h : d.phase = .resetHeld t) (ht : t < tResetLow) :
    d.resetHigh =
      { d with resx := some .high, phase := .powerOn, fault := some (d.fault.getD (.resetPulseTooShort t)) } := by
  simp only [DevState.resetHigh, h, if_neg (Nat.not_le.mpr ht)]
  rw [DevState.raise_eq]

theorem resetHigh_unheld {d : DevState} (h : ¬∃ t, d.phase = .resetHeld t) :
    d.resetHigh = { d with resx := some .high } := by
  unfold DevState.resetHigh
  split
  · exact absurd ⟨_, ‹_›⟩ h
  · rfl
  · rfl

/-- Settles O17: by the phase and the time the line was low. -/
theorem resetLineHigh : Obligations.ResetLineHigh := fun _ _ =>
  ⟨fun _ => resetHigh_long, fun _ => resetHigh_short, resetHigh_unheld⟩

/-- Everything the reset line going high can do: end a pulse that was long enough, or too short, or none. -/
theorem resetHigh_cases (d : DevState) :
    (∃ t, d.phase = .resetHeld t ∧
      d.resetHigh = { d with resx := some .high, phase := .ready, quiet := tResetRecover }) ∨
    (∃ t, d.phase = .resetHeld t ∧ d.resetHigh =
      { d with resx := some .high, phase := .powerOn, fault := some (d.fault.getD (.resetPulseTooShort t)) }) ∨
    (¬∃ t, d.phase = .resetHeld t) ∧ d.resetHigh = { d with resx := some .high } := by
  by_cases h : ∃ t, d.phase = .resetHeld t
  · obtain ⟨t, h⟩ := h
    rcases Nat.lt_or_ge t tResetLow with ht | ht
    · exact .inr (.inl ⟨t, h, resetHigh_short h ht⟩)
    · exact .inl ⟨t, h, resetHigh_long h ht⟩
  · exact .inr (.inr ⟨h, resetHigh_unheld h⟩)

/-! ## Time (70_reset_and_hazards.md R280) -/

theorem elapse_of_unheld {ph : Phase} (h : ¬∃ u, ph = .resetHeld u) (t : Nat) : ph.elapse t = ph := by
  cases ph with
  | resetHeld u => exact absurd ⟨u, rfl⟩ h
  | powerOn => rfl
  | ready => rfl

/-- Settles O18: only the count of a held phase runs. -/
theorem waitRunsTimers : Obligations.WaitRunsTimers := by
  refine fun p d t => ⟨fun u h => ?held, fun h => ?unheld⟩
  case held => simp only [devStep, DevState.wait, h, Phase.elapse]
  case unheld => simp only [devStep, DevState.wait, elapse_of_unheld h]

/-! ## The panel (41_power_display.md R142; 10_state.md R25) -/

/-- Settles O20: the four conjuncts of the predicate. -/
theorem visibleMeaning : Obligations.VisibleMeaning := fun d => by
  simp only [DevState.visible, Bool.and_eq_true, decide_eq_true_eq, Option.isNone_iff_eq_none, Bool.not_eq_true',
    and_assoc]

/-- The panel does not go to sleep, and its display is not turned off. -/
def DevState.StaysOn (d d' : DevState) : Prop :=
  (d.sleep = false → d'.sleep = false) ∧ (d.displayOn = true → d'.displayOn = true)

theorem DevState.staysOn_of_eq {d d' : DevState} (hs : d'.sleep = d.sleep) (hd : d'.displayOn = d.displayOn) :
    d.StaysOn d' := ⟨fun h => hs.trans h, fun h => hd.trans h⟩

/-- A command byte may wake the panel and turn the display on (41_power_display.md R140, R141), no more. -/
theorem acceptCommand_staysOn {p : Params} {b : Byte} {d d' : DevState} (h : acceptCommand p b d = .ok d') :
    d.StaysOn d' := by
  obtain ⟨-, op, -, h⟩ := acceptCommand_ok h
  rcases acceptOpcode_ok h with ⟨-, rfl⟩ | ⟨-, rfl⟩ | ⟨-, rfl⟩ | ⟨-, rfl⟩ |
    ⟨-, -, sc, ec, sp, ep, m, -, rfl⟩ | ⟨-, rfl⟩ | ⟨k, -, rfl⟩
  case inl => exact ⟨fun _ => rfl, id⟩
  case inr.inl => exact ⟨id, fun _ => rfl⟩
  all_goals exact DevState.staysOn_of_eq rfl rfl

/-- Settles O19: only a command byte writes the two flags, and only that way. -/
theorem onlyResetSleepsOrBlanks : Obligations.OnlyResetSleepsOrBlanks := by
  intro p d e he
  show d.StaysOn (devStep p d e)
  cases e with
  | res l =>
    cases l with
    | low => exact absurd rfl he
    | high =>
      show d.StaysOn d.resetHigh
      rcases resetHigh_cases d with ⟨t, -, h⟩ | ⟨t, -, h⟩ | ⟨-, h⟩ <;> rw [h] <;> exact DevState.staysOn_of_eq rfl rfl
  | byte b =>
    show d.StaysOn (d.takeByte p b)
    rcases takeByte_cases p d b with h | ⟨-, f, h⟩ | ⟨-, -, h⟩ | ⟨-, -, h⟩
    · rw [h]; exact DevState.staysOn_of_eq rfl rfl
    · rw [h]; exact DevState.staysOn_of_eq rfl rfl
    · exact acceptCommand_staysOn h
    · obtain ⟨-, -, -, -, -, -, -, hs, hd, -⟩ := routeData_frame h
      exact DevState.staysOn_of_eq hs hd
  | _ => exact DevState.staysOn_of_eq rfl rfl

/-! ## A faulted device (60_exceptions.md R235) -/

/-- At most the lines, the phase and the quiet timer differ. -/
def DevState.SameButTiming (d d' : DevState) : Prop :=
  d' = { d with csx := d'.csx, dcx := d'.dcx, resx := d'.resx, bl := d'.bl, phase := d'.phase, quiet := d'.quiet }

theorem DevState.SameButTiming.trans {d d' d'' : DevState} (h : d.SameButTiming d') (h' : d'.SameButTiming d'') :
    d.SameButTiming d'' := by
  refine Eq.trans h' ?_
  rw [h]

theorem DevState.SameButTiming.fault {d d' : DevState} (h : d.SameButTiming d') : d'.fault = d.fault := by rw [h]

/-- On a faulted device only the reset line going low does more than drive a line or run a timer. -/
theorem devStep_faulted {p : Params} {d : DevState} {e : Event} (hf : d.fault ≠ none) (he : e ≠ .res .low) :
    d.SameButTiming (devStep p d e) := by
  cases e with
  | res l =>
    cases l with
    | low => exact absurd rfl he
    | high =>
      show d.SameButTiming d.resetHigh
      rcases resetHigh_cases d with ⟨t, -, h⟩ | ⟨t, -, h⟩ | ⟨-, h⟩
      · rw [h]; rfl
      · obtain ⟨f, hfault⟩ := Option.ne_none_iff_exists'.mp hf
        rw [h, hfault, Option.getD_some, ← hfault]; rfl
      · rw [h]; rfl
  | byte b => rw [takeByte_of_ignored (taking_faulted hf) b]; rfl
  | _ => rfl

/-- Settles O13: along the trace, the device after each event being faulted still. -/
theorem faultedDeviceFrozen : Obligations.FaultedDeviceFrozen := by
  intro p d trace hf hlow
  show d.SameButTiming (devRun p d trace)
  induction trace generalizing d with
  | nil => rfl
  | cons e es ih =>
    rw [List.mem_cons, not_or] at hlow
    have hstep : d.SameButTiming (devStep p d e) := devStep_faulted hf (Ne.symm hlow.1)
    have hfault : (devStep p d e).fault = d.fault := hstep.fault
    exact hstep.trans (ih (devStep p d e) (hfault ▸ hf) hlow.2)

end Sys2Proof.Machine
end

section
/-!
PROOFS. The invariant of the device through every event (10_state.md R27 to R33; 20_memory.md R61): the registers and
latches apart from the reset line and its timers.
-/

namespace Sys2Proof.Machine

/-! ## The two halves of the invariant -/

/-- The half that speaks of frame memory, the stream, the tracker and the latches. -/
def DevState.registersOk (p : Params) (d : DevState) : Prop :=
  Memory.wf d.fm = true ∧ d.fmInExtent p ∧ d.streamOk p ∧ d.seqOk ∧ d.latchOk ∧ d.countOk

theorem ok_iff {p : Params} {d : DevState} : d.ok p ↔ d.registersOk p ∧ d.resetOk := by
  simp only [DevState.ok, DevState.registersOk, and_assoc]

/-- Lines, phase, timers, flags and fault are no part of that half. -/
theorem registersOk_of_same {p : Params} {d : DevState} (h : d.registersOk p) {s o : Bool} {ph : Phase} {q : Nat}
    {f : Option DeviceFault} {c e r l : Option Level} :
    DevState.registersOk p { d with
      sleep := s, displayOn := o, phase := ph, quiet := q, fault := f, csx := c, dcx := e, resx := r, bl := l } := h

theorem fmInExtent_nil {p : Params} {d : DevState} (h : d.fm = []) : d.fmInExtent p := by
  intro c r hne
  rw [h] at hne
  exact absurd (FrameMem.read_nil c r) hne

theorem seqOk_idle {d : DevState} (h : d.wseq = .idle) : d.seqOk := by simp [DevState.seqOk, h]

/-- The tracker is idle outside the window commands. -/
theorem wseq_idle {d : DevState} (h : d.seqOk) (hc : d.cmd ≠ some .caset) (hr : d.cmd ≠ some .paset) :
    d.wseq = .idle := by
  obtain ⟨hcol, hrow⟩ := h
  cases hw : d.wseq with
  | idle => rfl
  | colSet => exact (hcol hw).1.elim (fun h => absurd h.1 hc) (fun h => absurd h.1 hr)
  | rowSet => exact absurd (hrow hw).1 hr

/-- A device that holds nothing has its registers in order. -/
theorem registersOk_blank {p : Params} {d : DevState} (hfm : d.fm = []) (hcmd : d.cmd = none) (hw : d.wseq = .idle)
    (hbuf : d.pbuf = []) (hpix : d.pix = []) (hidx : d.pidx = 0) : d.registersOk p := by
  refine ⟨by rw [hfm]; rfl, fmInExtent_nil hfm, ?stream, seqOk_idle hw, ?latch, ?count⟩
  case stream => intro h; rw [hcmd] at h; cases h
  case latch => simp [DevState.latchOk, hcmd, hbuf, hpix]
  case count => simp [DevState.countOk, hcmd, hidx]

/-! ## The reset line, the phase and the timers -/

/-- A device that was reset and is not held: nothing but the level of the line and the bound of the timer is claimed. -/
theorem resetOk_ready {d : DevState} (hph : d.phase = .ready) (hr : d.resx ≠ some .low) (hq : d.quiet ≤ tSleepOut) :
    d.resetOk := by
  simp [DevState.resetOk, hph, hr, hq]

theorem resetOk_powerOn {d : DevState} (hph : d.phase = .powerOn) (hr : d.resx ≠ some .low) (hq : d.quiet = 0)
    (hc : d.cmd = none) : d.resetOk := by
  simp [DevState.resetOk, hph, hr, hq, hc]

theorem resetOk_held {d : DevState} {t : Nat} (hd : d = { d.resetValues with phase := .resetHeld t }) : d.resetOk := by
  have hph : d.phase = .resetHeld t := congrArg DevState.phase hd
  have hr : d.resx = some .low := congrArg DevState.resx hd
  have hq : d.quiet = 0 := congrArg DevState.quiet hd
  have hc : d.cmd = none := congrArg DevState.cmd hd
  refine ⟨by simp [hph, hr], fun u hu => ?_, fun _ => ⟨hq, hc⟩, by rw [hq]; exact Nat.zero_le _⟩
  rw [← hu, hph]; exact hd

/-- The ways the reset line and the phase can stand. -/
theorem resetOk_cases {d : DevState} (h : d.resetOk) :
    (∃ t, d = { d.resetValues with phase := .resetHeld t }) ∨
    (d.phase = .powerOn ∧ d.resx ≠ some .low ∧ d.quiet = 0 ∧ d.cmd = none) ∨
    (d.phase = .ready ∧ d.resx ≠ some .low ∧ d.quiet ≤ tSleepOut) := by
  obtain ⟨hline, hheld, hunready, hq⟩ := h
  cases hph : d.phase with
  | resetHeld t => exact .inl ⟨t, hheld t hph⟩
  | powerOn =>
    obtain ⟨hq0, hc⟩ := hunready (by simp [hph])
    exact .inr (.inl ⟨rfl, fun hr => by simp [hph] at hline; exact hline hr, hq0, hc⟩)
  | ready => exact .inr (.inr ⟨rfl, fun hr => by simp [hph] at hline; exact hline hr, hq⟩)

/-! ## A command byte -/

/-- Latching a command keeps the registers in order, given what memory write and a configuration command set up. -/
theorem registersOk_latch {p : Params} {d : DevState} {op : Opcode} {w : WSeq} (hwf : Memory.wf d.fm = true)
    (hext : d.fmInExtent p) (hpix : d.pix.length ≤ 2)
    (hseq : w = .idle ∨ w = .colSet ∧ op = .paset ∧ d.sc ≠ none ∧ d.ec ≠ none)
    (hstream : op = .ramwr → d.pix = [] ∧ d.wdone = false ∧ ∃ sc ec sp ep m, d.validWindow p sc ec sp ep m ∧
      d.wp = some (sc, sp))
    (hcfg : ∀ k, op = .cfg k → d.cfg.get k = some []) : (d.latch op w).registersOk p := by
  refine ⟨hwf, hext, fun hop => ?stream, ?seq, ⟨?_, hpix, ?_, ?_, fun k hk => ?cfg⟩, ?_, ?_, fun hop => ?count⟩
  case stream =>
    obtain ⟨-, hw, sc, ec, sp, ep, m, ⟨-, h1, h2, h3, h4, h5, h6, h7, h8, h9⟩, hwp⟩ := hstream (Option.some.inj hop)
    exact ⟨sc, ec, sp, ep, m, sc, sp, h1, h2, h3, h4, h5, hwp, BitVec.le_refl _, h6, BitVec.le_refl _, h7, h8, h9,
      fun hd => by simp [hw] at hd⟩
  case seq =>
    rcases hseq with rfl | ⟨rfl, rfl, hsc, hec⟩
    · exact seqOk_idle rfl
    · exact ⟨fun _ => ⟨.inr ⟨rfl, Nat.zero_lt_succ 3⟩, hsc, hec⟩, fun h => by cases h⟩
  case cfg => exact ⟨[], hcfg k (Option.some.inj hk), rfl⟩
  case count => rw [DevState.latch_pix, (hstream (Option.some.inj hop)).1]; rfl
  all_goals simp

/-- An accepted command byte keeps the registers in order. -/
theorem acceptCommand_registersOk {p : Params} {b : Byte} {d d' : DevState} (hd : d.registersOk p)
    (h : acceptCommand p b d = .ok d') : d'.registersOk p := by
  obtain ⟨-, op, -, h⟩ := acceptCommand_ok h
  obtain ⟨hwf, hext, -, hseq, ⟨-, hpix, -⟩, -⟩ := hd
  have plain : ∀ (op : Opcode), op ≠ .ramwr → (∀ k, op ≠ .cfg k) → (d.latch op .idle).registersOk p :=
    fun op hr hk => registersOk_latch hwf hext hpix (.inl rfl) (fun h => absurd h hr) (fun k h => absurd h (hk k))
  rcases acceptOpcode_ok h with ⟨-, rfl⟩ | ⟨-, rfl⟩ | ⟨-, rfl⟩ | ⟨-, rfl⟩ | ⟨-, -, sc, ec, sp, ep, m, hv, rfl⟩ |
    ⟨-, rfl⟩ | ⟨k, -, rfl⟩
  · exact plain .slpout (by simp) (by simp)
  · exact plain .dispon (by simp) (by simp)
  · exact plain .caset (by simp) (by simp)
  · refine registersOk_latch hwf hext hpix ?_ (by simp) (by simp)
    rw [atCommand_paset]
    split
    · rename_i hw; exact .inr ⟨rfl, rfl, (hseq.1 hw).2⟩
    · exact .inl rfl
  · exact registersOk_latch hwf hext (Nat.zero_le _) (.inl rfl) (fun _ => ⟨rfl, rfl, sc, ec, sp, ep, m, hv, rfl⟩)
      (by simp)
  · exact plain .madctl (by simp) (by simp)
  · refine registersOk_latch hwf hext hpix (.inl rfl) (by simp) (fun j hj => ?_)
    cases hj
    exact CfgMap.get_set_same _ _ _

/-! ## A data byte -/

/-- A latched parameter, whatever it loads. -/
theorem registersOk_param {p : Params} {d : DevState} (hd : d.registersOk p)
    (hcmd : d.cmd = some .caset ∨ d.cmd = some .paset) (hi : d.pidx < 4) (b : Byte) {sc ec sp ep : Option Word16} {w : WSeq}
    (hseq : DevState.seqOk { d.pushParam b with sc := sc, ec := ec, sp := sp, ep := ep, wseq := w }) :
    DevState.registersOk p { d.pushParam b with sc := sc, ec := ec, sp := sp, ep := ep, wseq := w } := by
  obtain ⟨hwf, hext, -, -, ⟨-, hpix, hlen, -⟩, -⟩ := hd
  have hbuf : d.pbuf.length = d.pidx := hlen hcmd
  refine ⟨hwf, hext, ?stream, hseq, ⟨?_, hpix, ?_, ?_, ?_⟩, ?_, ?_, ?_⟩
  case stream => rcases hcmd with h | h <;> simp [DevState.streamOk, h]
  all_goals rcases hcmd with h | h <;> simp [h, hbuf]
  all_goals omega

/-- Four latched bytes, when the index says so. -/
theorem pbuf_of_length_four {l : List Byte} (h : l.length = 4) : ∃ d1 d2 d3 d4, l = [d1, d2, d3, d4] := by
  match l, h with
  | [d1, d2, d3, d4], _ => exact ⟨d1, d2, d3, d4, rfl⟩

theorem casetAtData_registersOk {p : Params} {b : Byte} {d d' : DevState} (hd : d.registersOk p)
    (hcmd : d.cmd = some .caset) (h : casetAtData b d = .ok d') : d'.registersOk p := by
  obtain ⟨-, -, -, ⟨hcol, hrow⟩, ⟨-, -, hlen, -⟩, -⟩ := id hd
  obtain ⟨hi, ⟨hne, rfl⟩ | ⟨h3, rfl⟩⟩ := casetAtData_ok h
  · refine registersOk_param hd (.inl hcmd) hi b (seqOk_idle ?_)
    show d.wseq = .idle
    cases hw : d.wseq with
    | idle => rfl
    | colSet =>
      rcases (hcol hw).1 with ⟨-, h4⟩ | ⟨hp, -⟩
      · omega
      · rw [hcmd] at hp; cases hp
    | rowSet =>
      have hp : d.cmd = some .paset := (hrow hw).1
      rw [hcmd] at hp; cases hp
  · obtain ⟨d1, d2, d3, d4, hbuf⟩ := pbuf_of_length_four (l := (d.pushParam b).pbuf) (by simp [hlen (.inl hcmd), h3])
    rw [loadColumns_four hbuf]
    exact registersOk_param hd (.inl hcmd) hi b
      ⟨fun _ => ⟨.inl ⟨hcmd, by simp [h3]⟩, by simp, by simp⟩, fun h => by cases h⟩

theorem pasetAtData_registersOk {p : Params} {b : Byte} {d d' : DevState} (hd : d.registersOk p)
    (hcmd : d.cmd = some .paset) (h : pasetAtData b d = .ok d') : d'.registersOk p := by
  obtain ⟨-, -, -, ⟨hcol, hrow⟩, ⟨-, -, hlen, -⟩, -⟩ := id hd
  obtain ⟨hi, ⟨hne, rfl⟩ | ⟨h3, rfl⟩⟩ := pasetAtData_ok h
  · refine registersOk_param hd (.inr hcmd) hi b ⟨fun hw => ⟨.inr ⟨hcmd, ?_⟩, (hcol hw).2⟩, fun hw => ?_⟩
    · simp; omega
    · obtain ⟨-, h4, -⟩ := hrow hw
      omega
  · obtain ⟨d1, d2, d3, d4, hbuf⟩ := pbuf_of_length_four (l := (d.pushParam b).pbuf) (by simp [hlen (.inr hcmd), h3])
    rw [loadRows_four hbuf, atRows_eq]
    refine registersOk_param hd (.inr hcmd) hi b ?_
    by_cases hw : d.wseq = .colSet
    · simp [DevState.seqOk, hw, hcmd, h3, hcol hw]
    · exact seqOk_idle (if_neg hw)

theorem ramwrAtData_registersOk {p : Params} {b : Byte} {d d' : DevState} (hd : d.registersOk p)
    (hcmd : d.cmd = some .ramwr) (h : ramwrAtData b d = .ok d') : d'.registersOk p := by
  obtain ⟨hwf, hext, hstream, hseq, ⟨hbuf, hpix, -⟩, -, -, hcount⟩ := hd
  have hidle : d.wseq = .idle := wseq_idle hseq (by simp [hcmd]) (by simp [hcmd])
  have hmod : d.pidx % 3 = d.pix.length := hcount hcmd
  obtain ⟨sc, ec, sp, ep, m, c, r, hsc, hec, hsp, hep, hm, hwp, h1, h2, h3, h4, hcols, hrows, -⟩ := hstream hcmd
  obtain ⟨hw, ⟨hnone, rfl⟩ | ⟨px, c', r', sc', ec', ep', hpx, hwp', hsc', hec', hep', rfl⟩⟩ := ramwrAtData_ok h
  · have hlen : (d.pix ++ [b]).length ≠ 3 := pixelOf_eq_none.mp hnone
    rw [List.length_append, List.length_singleton] at hlen
    refine ⟨hwf, hext, fun _ => ?stream, seqOk_idle hidle, ⟨hbuf, ?_, ?_, ?_, ?_⟩, ?_, ?_, fun _ => ?_⟩
    case stream =>
      exact ⟨sc, ec, sp, ep, m, c, r, hsc, hec, hsp, hep, hm, hwp, h1, h2, h3, h4, hcols, hrows,
        fun hd => by simp [hw] at hd⟩
    all_goals simp [hcmd]
    all_goals omega
  · rw [hwp] at hwp'; cases hwp'
    rw [hsc] at hsc'; cases hsc'
    rw [hec] at hec'; cases hec'
    rw [hep] at hep'; cases hep'
    have hlen : d.pix.length + 1 = 3 := by simpa using congrArg List.length (pixelOf_eq_some.mp hpx)
    refine ⟨Memory.wf_write c r px hwf, fun x y hxy => ?extent, fun _ => ?stream, seqOk_idle hidle,
      ⟨hbuf, Nat.zero_le _, ?_, ?_, ?_⟩, ?_, ?_, fun _ => ?_⟩
    case extent =>
      rw [FrameMem.read_write] at hxy
      split at hxy
      case isTrue heq =>
        obtain ⟨rfl, rfl⟩ := heq
        rw [BitVec.le_def] at h2 h4
        exact ⟨m, hm, by omega, by omega⟩
      case isFalse => exact hext x y hxy
    case stream =>
      obtain ⟨a1, a2, a3, a4, hdone⟩ := advance_inside h1 h2 h3 h4
      exact ⟨sc, ec, sp, ep, m, _, _, hsc, hec, hsp, hep, hm, rfl, a1, a2, a3, a4, hcols, hrows,
        fun hd => ⟨congrArg Prod.fst (hdone hd), congrArg Prod.snd (hdone hd), rfl⟩⟩
    all_goals simp [hcmd]
    all_goals omega

theorem madctlAtData_registersOk {p : Params} {b : Byte} {d d' : DevState} (hd : d.registersOk p)
    (hcmd : d.cmd = some .madctl) (h : madctlAtData b d = .ok d') : d'.registersOk p := by
  obtain ⟨hwf, hext, -, hseq, ⟨hbuf, hpix, -⟩, -⟩ := hd
  have hidle : d.wseq = .idle := wseq_idle hseq (by simp [hcmd]) (by simp [hcmd])
  obtain ⟨-, rfl⟩ := madctlAtData_ok h
  have hfm : Memory.wf (fmAfterMadctl b d) = true ∧
      DevState.fmInExtent p { d with fm := fmAfterMadctl b d, madctl := some b, pidx := 1 } := by
    by_cases hb : d.madctl = some b
    · rw [fmAfterMadctl, if_pos hb, ← hb]; exact ⟨hwf, hext⟩
    · rw [fmAfterMadctl, if_neg hb]; exact ⟨rfl, fmInExtent_nil rfl⟩
  refine ⟨hfm.1, hfm.2, ?_, seqOk_idle hidle, ⟨hbuf, hpix, ?_, ?_, ?_⟩, ?_, ?_, ?_⟩
  all_goals simp [DevState.streamOk, hcmd]

theorem cfgAtData_registersOk {p : Params} {k : CfgCode} {b : Byte} {d d' : DevState} (hd : d.registersOk p)
    (hcmd : d.cmd = some (.cfg k)) (h : cfgAtData k b d = .ok d') : d'.registersOk p := by
  obtain ⟨hwf, hext, -, hseq, ⟨hbuf, hpix, -, -, hcfg⟩, -⟩ := hd
  have hidle : d.wseq = .idle := wseq_idle hseq (by simp [hcmd]) (by simp [hcmd])
  obtain ⟨old, hold, rfl⟩ := cfgAtData_ok h
  obtain ⟨bytes, hbytes, hlen⟩ := hcfg k hcmd
  obtain rfl : old = bytes := Option.some.inj (hold.symm.trans hbytes)
  refine ⟨hwf, hext, ?_, seqOk_idle hidle, ⟨hbuf, hpix, ?_, ?_, ?cfg⟩, ?_, ?_, ?_⟩
  case cfg =>
    intro j hj
    obtain rfl : k = j := Opcode.cfg.inj (Option.some.inj (hcmd.symm.trans hj))
    exact ⟨old ++ [b], CfgMap.get_set_same _ _ _, by simp [hlen]⟩
  all_goals simp [DevState.streamOk, hcmd]

/-- A routed data byte keeps the registers in order. -/
theorem routeData_registersOk {p : Params} {b : Byte} {d d' : DevState} (hd : d.registersOk p)
    (h : routeData b d = .ok d') : d'.registersOk p := by
  rcases routeData_ok h with ⟨hc, h⟩ | ⟨hc, h⟩ | ⟨hc, h⟩ | ⟨hc, h⟩ | ⟨k, hc, h⟩
  · exact casetAtData_registersOk hd hc h
  · exact pasetAtData_registersOk hd hc h
  · exact ramwrAtData_registersOk hd hc h
  · exact madctlAtData_registersOk hd hc h
  · exact cfgAtData_registersOk hd hc h

/-! ## Every event -/

/-- A command byte leaves a bounded quiet time (41_power_display.md R140). -/
theorem acceptCommand_quiet {p : Params} {b : Byte} {d d' : DevState} (hq : d.quiet = 0)
    (h : acceptCommand p b d = .ok d') : d'.quiet ≤ tSleepOut := by
  obtain ⟨-, op, -, h⟩ := acceptCommand_ok h
  by_cases ho : op = .slpout
  · subst ho
    rcases acceptOpcode_ok h with ⟨-, rfl⟩ | h
    · simp [slpoutAtCommand, hq]
    · simp at h
  · rw [((acceptOpcode_frameOf h).power ho).2, hq]; exact Nat.zero_le _

/-- A byte keeps the invariant: a held device ignores it, and what accepts or routes one is ready. -/
theorem takeByte_ok {p : Params} {d : DevState} (h : d.ok p) (b : Byte) : (d.takeByte p b).ok p := by
  obtain ⟨hregs, hreset⟩ := ok_iff.mp h
  rcases resetOk_cases hreset with ⟨t, ht⟩ | hph
  · have hsame : d.takeByte p b = d := takeByte_of_ignored (taking_held (congrArg DevState.phase ht)) b
    rw [hsame]; exact h
  · have hr : d.resx ≠ some .low := hph.elim (fun ⟨_, hr, _⟩ => hr) (fun ⟨_, hr, _⟩ => hr)
    rcases takeByte_cases p d b with heq | ⟨-, f, heq⟩ | ⟨⟨hready, -, hq⟩, -, hok⟩ | ⟨⟨hready, -, hq⟩, -, hok⟩
    · rw [heq]; exact h
    · rw [heq]
      refine ok_iff.mpr ⟨registersOk_of_same hregs, ?_⟩
      rcases hph with ⟨hpow, -, hq, hc⟩ | ⟨hready, -, hq⟩
      · exact resetOk_powerOn hpow hr hq hc
      · exact resetOk_ready hready hr hq
    · obtain ⟨hp', -, -, -, hr', -⟩ := acceptCommand_frame hok
      exact ok_iff.mpr ⟨acceptCommand_registersOk hregs hok,
        resetOk_ready (hp'.trans hready) (hr' ▸ hr) (acceptCommand_quiet hq hok)⟩
    · obtain ⟨hp', hq', -, -, -, hr', -⟩ := routeData_frame hok
      exact ok_iff.mpr ⟨routeData_registersOk hregs hok,
        resetOk_ready (hp'.trans hready) (hr' ▸ hr) (by rw [hq', hq]; exact Nat.zero_le _)⟩

/-- What stands while the reset line, the phase and the timer stay does not speak of the other lines. -/
theorem resetOk_driven {d : DevState} (h : d.resetOk) (c e l : Option Level) :
    DevState.resetOk { d with csx := c, dcx := e, bl := l } := by
  obtain ⟨hline, hheld, hrest⟩ := h
  refine ⟨hline, fun t ht => ?_, hrest⟩
  rw [hheld t ht]; rfl

theorem resetLow_ok {p : Params} {d : DevState} (h : d.ok p) : d.resetLow.ok p := by
  by_cases hr : d.resx = some .low
  · rw [resetLow_of_low hr]; exact h
  · rw [resetLow_of_not_low hr]
    exact ok_iff.mpr ⟨registersOk_blank rfl rfl rfl rfl rfl rfl, resetOk_held (t := 0) rfl⟩

theorem resetHigh_ok {p : Params} {d : DevState} (h : d.ok p) : d.resetHigh.ok p := by
  obtain ⟨hregs, hreset⟩ := ok_iff.mp h
  rcases resetHigh_cases d with ⟨t, -, heq⟩ | ⟨t, ht, heq⟩ | ⟨hun, heq⟩ <;> rw [heq] <;>
    refine ok_iff.mpr ⟨registersOk_of_same hregs, ?_⟩
  · exact resetOk_ready rfl (by simp) (show tResetRecover ≤ tSleepOut by decide)
  · have hblank := hreset.2.1 t ht
    exact resetOk_powerOn rfl (by simp) (congrArg DevState.quiet hblank) (congrArg DevState.cmd hblank)
  · rcases resetOk_cases hreset with ⟨t, ht⟩ | ⟨hpow, -, hq, hc⟩ | ⟨hready, -, hq⟩
    · exact absurd ⟨t, congrArg DevState.phase ht⟩ hun
    · exact resetOk_powerOn hpow (by simp) hq hc
    · exact resetOk_ready hready (by simp) hq

theorem wait_ok {p : Params} {d : DevState} (h : d.ok p) (t : Nat) : (d.wait t).ok p := by
  obtain ⟨hregs, hreset⟩ := ok_iff.mp h
  refine ok_iff.mpr ⟨registersOk_of_same hregs, ?_⟩
  rcases resetOk_cases hreset with ⟨u, hu⟩ | ⟨hpow, hr, hq, hc⟩ | ⟨hready, hr, hq⟩
  · refine resetOk_held (t := u + t) ?_
    rw [hu]; simp [DevState.wait, DevState.resetValues, DevState.powerOn, Phase.elapse]
  · exact resetOk_powerOn (congrArg (Phase.elapse t) hpow) hr (by simp [DevState.wait, hq]) hc
  · exact resetOk_ready (congrArg (Phase.elapse t) hready) hr ((Nat.sub_le _ _).trans hq)

/-- Every event keeps the invariant of the device. -/
theorem devStep_ok {p : Params} {d : DevState} (h : d.ok p) (e : Event) : (devStep p d e).ok p := by
  have driven : ∀ c e l, DevState.ok p { d with csx := c, dcx := e, bl := l } := fun c e l =>
    ok_iff.mpr ⟨registersOk_of_same (ok_iff.mp h).1, resetOk_driven (ok_iff.mp h).2 c e l⟩
  cases e with
  | cs l => exact driven (some l) d.dcx d.bl
  | dc l => exact driven d.csx (some l) d.bl
  | bl l => exact driven d.csx d.dcx (some l)
  | res l =>
    cases l with
    | low => exact resetLow_ok h
    | high => exact resetHigh_ok h
  | byte b => exact takeByte_ok h b
  | wait t => exact wait_ok h t

/-! ## Every step of the machine -/

/-- What every event keeps on the device, a step of the machine keeps: it gives the device events, or nothing. -/
theorem step_keeps_dev {P : Params → DevState → Prop} (hs : ∀ p d e, P p d → P p (devStep p d e)) {s t : State}
    (h : P s.params s.dev) (hst : step s = .next t) : P t.params t.dev := by
  rcases step_cases hst with ⟨given, rest, -, -, rfl⟩ | ⟨-, op, ops, -, hp⟩ | ⟨-, -, rfl⟩
  · exact devRun_keeps (hs s.params) h given
  · obtain ⟨hdev, hparams, -⟩ := perform_frame hp
    rw [hdev, hparams]; exact h
  · exact h

/-- Settles O44: every event keeps the invariant. -/
theorem stepKeepsDeviceInvariant : Obligations.StepKeepsDeviceInvariant := fun _ _ h hst =>
  step_keeps_dev (P := fun p d => d.ok p) (fun _ _ e h => devStep_ok h e) h hst

/-- Settles O43: every event keeps the form. -/
theorem stepKeepsMemoryForm : Obligations.StepKeepsMemoryForm := fun _ _ h hst =>
  step_keeps_dev (P := fun _ d => Memory.wf d.fm = true) (fun _ _ e h => devStep_wf h e) h hst

/-- Settles O2: the device holds nothing and is not held in reset, the host has no size, there is no canvas; the
parameters are given. -/
theorem resetMeetsInvariants : Obligations.ResetMeetsInvariants :=
  ⟨ok_iff.mpr ⟨registersOk_blank rfl rfl rfl rfl rfl rfl, resetOk_powerOn rfl (by decide) rfl rfl⟩, .inl ⟨rfl, rfl⟩,
    fun _ hc => absurd hc List.not_mem_nil, by decide⟩

end Sys2Proof.Machine
end

section
/-!
PROOFS. The instructions on the device (40_panel_config.md R120; 41_power_display.md R140, R141; 42_address_window.md
R150 to R154; 43_access_control.md R170): the whole state each leaves, or the fault it records.
-/

namespace Sys2Proof.Machine

/-! ## An instruction is its events on the device -/

theorem exec_eq_devRun (i : Instr) (s : State) :
    exec i s = .next { s with dev := devRun s.params s.dev (instrEvents s.params i) } := exec_eq i s

section Accepting

variable {p : Params} {d : DevState} (h : d.accepting)
include h

/-- An accepted instruction that leaves no quiet time is its effect at the command byte, its data routed, the lines. -/
theorem devRun_instr_ok {i : Instr} {d' : DevState} (ha : acceptOpcode p i.opcode d = .ok d') (hq : d'.quiet = 0) :
    devRun p d (instrEvents p i) = (d'.feed i.data).afterFrame p i.data :=
  devRun_writeReg_ok h.1 ((acceptCommand_code h.2 _).trans ha) hq _

/-- An instruction that is not accepted records its fault; its data are ignored. -/
theorem devRun_instr_error {i : Instr} {f : DeviceFault} (ha : acceptOpcode p i.opcode d = .error f) :
    devRun p d (instrEvents p i) = DevState.afterFrame { d with fault := some f } p i.data :=
  devRun_writeReg_error h.1 ((acceptCommand_code h.2 _).trans ha) _

/-! ## Power, display, access control and configuration -/

theorem devRun_slpout : devRun p d (instrEvents p .slpout) =
    { d.afterFrame p [] with
      sleep := false, quiet := 120, cmd := some .slpout, pidx := 0, pbuf := [], wseq := .idle } := by
  have ha : acceptCommand p Opcode.slpout.code d = .ok ((slpoutAtCommand d).latch .slpout .idle) :=
    acceptCommand_code h.2 .slpout
  have hq : max d.quiet tSleepOut = 120 := by rw [h.1.2.2]; rfl
  rw [instrEvents, writeReg, Instr.opcode, Instr.data, dataTx, List.append_nil, devRun_commandTx h.1, ha,
    slpoutAtCommand, hq]
  rfl

theorem devRun_dispon : devRun p d (instrEvents p .dispon) =
    { d.afterFrame p [] with displayOn := true, cmd := some .dispon, pidx := 0, pbuf := [], wseq := .idle } :=
  devRun_instr_ok h (i := .dispon) (d' := (disponAtCommand d).latch .dispon .idle) rfl h.1.2.2

theorem devRun_madctl (m : Byte) : devRun p d (instrEvents p (.madctl m)) =
    { d.afterFrame p [m] with
      madctl := some m, fm := if d.madctl = some m then d.fm else [], cmd := some .madctl, pidx := 1, pbuf := [],
      wseq := .idle } := by
  rw [devRun_instr_ok h (i := .madctl m) (d' := d.latch .madctl .idle) rfl h.1.2.2, Instr.data,
    feed_cons_ok (routeData_madctl rfl rfl)]
  rfl

theorem devRun_cfg (k : CfgCode) (bytes : List Byte) : devRun p d (instrEvents p (Instr.ofCfg k bytes)) =
    { d.afterFrame p bytes with
      cfg := d.cfg.set k (some bytes), cmd := some (.cfg k), pidx := bytes.length, pbuf := [], wseq := .idle } := by
  have ha : acceptOpcode p (Instr.ofCfg k bytes).opcode d = .ok ((cfgAtCommand k d).latch (.cfg k) .idle) := by
    rw [Instr.opcode_ofCfg]; rfl
  rw [devRun_instr_ok h ha h.1.2.2, Instr.data_ofCfg, feed_cfg k bytes _ [] rfl (CfgMap.get_set_same _ _ _)]
  simp [cfgAtCommand, DevState.latch, DevState.afterFrame]

end Accepting

/-! ## The address window -/

/-- The first three parameters are latched. -/
theorem feed_three_params {d : DevState} {op : Opcode} (hcmd : d.cmd = some op) (hop : op = .caset ∨ op = .paset)
    (hi : d.pidx = 0) (hb : d.pbuf = []) (d1 d2 d3 : Byte) (rest : List Byte) :
    d.feed (d1 :: d2 :: d3 :: rest) = DevState.feed { d with pbuf := [d1, d2, d3], pidx := 3 } rest := by
  have latched : ∀ (x : DevState) (b : Byte) (bs : List Byte), x.cmd = some op → x.pidx < 3 →
      x.feed (b :: bs) = DevState.feed { x with pbuf := x.pbuf ++ [b], pidx := x.pidx + 1 } bs :=
    fun x b bs hx hlt => feed_cons_ok (routeData_param hx hop hlt) bs
  rw [latched d d1 _ hcmd (by omega), latched _ d2 _ ?cmd2 ?idx2, latched _ d3 _ ?cmd3 ?idx3, hi, hb]
  case cmd2 => exact hcmd
  case cmd3 => exact hcmd
  case idx2 => simp [hi]
  case idx3 => simp [hi]
  rfl

theorem devRun_caset {p : Params} {d : DevState} (h : d.accepting) (a b : Word16) :
    devRun p d (instrEvents p (.caset a b)) = { d.afterFrame p (encPair a b) with
      sc := some a, ec := some b, cmd := some .caset, pidx := 4, pbuf := encPair a b, wseq := .colSet } := by
  rw [devRun_instr_ok h (i := .caset a b) (d' := d.latch .caset .idle) rfl h.1.2.2, Instr.data_caset, encPair_eq,
    feed_three_params rfl (.inl rfl) rfl rfl, feed_cons_ok (routeData_columns rfl rfl rfl), feed_nil, be16_hi8_lo8,
    be16_hi8_lo8]
  rfl

theorem devRun_paset {p : Params} {d : DevState} (h : d.accepting) (a b : Word16) :
    devRun p d (instrEvents p (.paset a b)) = { d.afterFrame p (encPair a b) with
      sp := some a, ep := some b, cmd := some .paset, pidx := 4, pbuf := encPair a b,
      wseq := if d.wseq = .colSet then .rowSet else .idle } := by
  rw [devRun_instr_ok h (i := .paset a b) (acceptOpcode_paset p d) h.1.2.2, Instr.data_paset, encPair_eq,
    feed_three_params rfl (.inr rfl) rfl rfl, feed_cons_ok (routeData_rows rfl rfl rfl), feed_nil, be16_hi8_lo8,
    be16_hi8_lo8]
  by_cases hw : d.wseq = .colSet <;> simp [hw] <;> rfl

/-! ## Memory write -/

/-- The device after the command byte of memory write, the stream open at the top-left corner. -/
def DevState.opened (d : DevState) (sc sp : Word16) : DevState :=
  DevState.latch { d with wp := some (sc, sp), pix := [], wdone := false } .ramwr .idle

/-- A stream that fits the window, from its command byte on (20_memory.md R80; 42_address_window.md R152 to R154). -/
theorem devRun_ramwr {p : Params} {d : DevState} {sc ec sp ep : Word16} {m : Byte} (h : d.accepting)
    (hw : d.wseq = .rowSet) (hv : d.validWindow p sc ec sp ep m) {stream : List Byte}
    (hl : stream.length ≤ windowPixels sc ec sp ep * 3) :
    devRun p d (instrEvents p (.ramwr stream)) = { d.afterFrame p stream with
      cmd := some .ramwr, pidx := stream.length, pbuf := [], wseq := .idle,
      fm := FrameMem.storeAt (windowAddr sc ec sp) d.fm 0 stream, pix := stream.drop (stream.length / 3 * 3),
      wp := some (if stream.length = windowPixels sc ec sp ep * 3 then (ec, ep)
        else windowAddr sc ec sp (stream.length / 3)),
      wdone := decide (stream.length = windowPixels sc ec sp ep * 3) } := by
  rw [devRun_instr_ok h (i := .ramwr stream) (acceptOpcode_ramwr hw hv) h.1.2.2]
  exact congrArg (fun x => DevState.afterFrame x p stream) (feed_opened hv hl)

/-- The command byte alone opens the stream at the top-left corner: the empty stream does not fill a window
(42_address_window.md R152). -/
theorem devRun_ramwr_nil {p : Params} {d : DevState} {sc ec sp ep : Word16} {m : Byte} (h : d.accepting)
    (hw : d.wseq = .rowSet) (hv : d.validWindow p sc ec sp ep m) :
    devRun p d (instrEvents p (.ramwr [])) = { d.afterFrame p [] with
      wp := some (sc, sp), pix := [], wdone := false, cmd := some .ramwr, pidx := 0, pbuf := [], wseq := .idle } := by
  have hpos := windowPixels_pos sc ec sp ep
  have hne : ¬([] : List Byte).length = windowPixels sc ec sp ep * 3 := by rw [List.length_nil]; omega
  rw [devRun_ramwr h hw hv (Nat.zero_le _), if_neg hne, decide_eq_false hne, List.length_nil, Nat.zero_div,
    windowAddr_zero]
  rfl

/-- Each whole pixel of a stream that fits the window is read back at its address (20_memory.md R80). -/
theorem read_stream_stored {sc ec sp ep : Word16} {stream : List Byte} {k : Nat} {r g b : Byte} (mem : FrameMem)
    (h1 : sc ≤ ec) (h2 : sp ≤ ep) (hl : stream.length ≤ windowPixels sc ec sp ep * 3) (hk : k < stream.length / 3)
    (hr : stream[3 * k]? = some r) (hg : stream[3 * k + 1]? = some g) (hb : stream[3 * k + 2]? = some b) :
    (FrameMem.storeAt (windowAddr sc ec sp) mem 0 stream).read (windowAddr sc ec sp k).1 (windowAddr sc ec sp k).2 =
      some { r := r, g := g, b := b } := by
  have hinj : ∀ i j, i < stream.length / 3 → j < stream.length / 3 →
      windowAddr sc ec sp (0 + i) = windowAddr sc ec sp (0 + j) → i = j := fun i j hi hj he => by
    rw [Nat.zero_add, Nat.zero_add] at he
    exact windowAddr_inj h1 h2 (by omega) (by omega) he
  simpa using FrameMem.read_storeAt mem 0 stream hinj k hk hr hg hb

/-- Addresses that no pixel of the stream takes read as before. -/
theorem read_stream_other {sc ec sp c w : Word16} {stream : List Byte} (mem : FrameMem)
    (h : ∀ k, k < stream.length / 3 → windowAddr sc ec sp k ≠ (c, w)) :
    (FrameMem.storeAt (windowAddr sc ec sp) mem 0 stream).read c w = mem.read c w :=
  FrameMem.read_storeAt_other mem 0 stream (by simpa using h)

/-- A window that is full refuses every further byte (42_address_window.md R153, R159). -/
theorem devRun_ramwr_overrun {p : Params} {d : DevState} {sc ec sp ep : Word16} {m : Byte} (h : d.accepting)
    (hw : d.wseq = .rowSet) (hv : d.validWindow p sc ec sp ep m) {fits surplus : List Byte}
    (hl : fits.length = windowPixels sc ec sp ep * 3) (hs : surplus ≠ []) :
    devRun p d (instrEvents p (.ramwr (fits ++ surplus))) =
      { devRun p d (instrEvents p (.ramwr fits)) with fault := some .writeOverrun } := by
  have hopen : acceptOpcode p .ramwr d = .ok (d.opened sc sp) := acceptOpcode_ramwr hw hv
  have hfed : (d.opened sc sp).feed fits = _ := feed_opened hv hl.le
  have hall : (d.opened sc sp).feed (fits ++ surplus) =
      { (d.opened sc sp).feed fits with fault := some .writeOverrun } := by
    have hunfaulted : (d.opened sc sp).fault = none := h.1.2.1
    have hfault : ((d.opened sc sp).feed fits).fault = none := by rw [hfed]; exact h.1.2.1
    have hdone : ((d.opened sc sp).feed fits).wdone = true := by rw [hfed]; exact decide_eq_true hl
    rw [feed_append hunfaulted, if_pos hfault, feed_done (by rw [hfed]) hdone hs]
  have hpos := windowPixels_pos sc ec sp ep
  have hfits : fits ≠ [] := List.ne_nil_of_length_pos (by omega)
  rw [devRun_instr_ok h (i := .ramwr (fits ++ surplus)) hopen h.1.2.2,
    devRun_instr_ok h (i := .ramwr fits) hopen h.1.2.2, Instr.data, Instr.data, hall, DevState.afterFrame,
    DevState.afterFrame, if_neg hfits, if_neg (List.append_ne_nil_of_left_ne_nil hfits surplus)]

/-! ## Results of the instructions -/

/-- Settles O21: the run of its one byte. -/
theorem slpoutResult : Obligations.SlpoutResult := fun s h => by rw [exec_eq_devRun, devRun_slpout h]

/-- Settles O22: the run of its one byte. -/
theorem disponResult : Obligations.DisponResult := fun s h => by rw [exec_eq_devRun, devRun_dispon h]

/-- Settles O23: four parameters, the last of which loads the registers. -/
theorem casetResult : Obligations.CasetResult := fun s a b h => by rw [exec_eq_devRun, devRun_caset h]

/-- Settles O24: as O23, with the tracker moved twice. -/
theorem pasetResult : Obligations.PasetResult := fun s a b h => by rw [exec_eq_devRun, devRun_paset h]

/-- Settles O25: the one data byte writes the register. -/
theorem madctlResult : Obligations.MadctlResult := fun s m h => by rw [exec_eq_devRun, devRun_madctl h]

/-- Settles O26: each listed instruction is the configuration instruction of its code. -/
theorem configResult : Obligations.ConfigResult := by
  intro s bytes h ik hik
  have hform : ik.1 = Instr.ofCfg ik.2 bytes := by
    revert ik
    simp only [List.forall_mem_cons, List.not_mem_nil, false_imp_iff, implies_true, and_true]
    exact ⟨rfl, rfl, rfl, rfl, rfl, rfl, rfl, rfl, rfl, rfl, rfl, rfl, rfl⟩
  rw [hform, exec_eq_devRun, devRun_cfg h]

/-- Settles O27: the run of the command byte alone. -/
theorem ramwrOpensStream : Obligations.RamwrOpensStream := fun s sc ec sp ep m h hw hv => by
  rw [exec_eq_devRun, devRun_ramwr_nil h hw hv]

/-- Settles O28: frame memory by the laws of a run of stores at addresses no two of which are equal. -/
theorem ramwrStoresStream : Obligations.RamwrStoresStream := by
  intro s stream sc ec sp ep m h hw hv hl
  obtain ⟨-, -, -, -, -, -, h1, h2, -⟩ := id hv
  refine ⟨_, exec_eq_devRun _ s, ?_⟩
  rw [devRun_ramwr h hw hv hl]
  exact ⟨rfl, rfl, fun k r g b => read_stream_stored s.dev.fm h1 h2 hl, fun c w => read_stream_other s.dev.fm⟩

/-- Settles O29: the first surplus byte meets a done stream. -/
theorem ramwrOverrun : Obligations.RamwrOverrun := by
  intro s fits surplus sc ec sp ep m t h hw hv hl hs ht
  rw [exec_eq_devRun, Host.Outcome.next.injEq, State.mk.injEq] at ht
  obtain ⟨-, rfl, -⟩ := ht
  rw [exec_eq_devRun, devRun_ramwr_overrun h hw hv hl hs]

/-! ## The write pointer (42_address_window.md R154) -/

/-- No overflow below another word. -/
theorem toNat_succ_of_lt {c e : Word16} (h : c < e) : (c + 1).toNat = c.toNat + 1 := by
  have he := e.isLt
  rw [BitVec.lt_def] at h
  rw [BitVec.toNat_add, show (1 : Word16).toNat = 1 from rfl]
  omega

/-- Settles O35: by the bounds the pointer is at. -/
theorem writePointerAdvance : Obligations.WritePointerAdvance := by
  intro sc ec sp ep c r _ _ _ _
  refine ⟨fun hc => ⟨if_pos hc, toNat_succ_of_lt hc⟩, fun hc hr => ⟨?row, toNat_succ_of_lt hr⟩, fun hc hr => ?last⟩
  case row => rw [hc, advance, if_neg (BitVec.lt_irrefl ec), if_pos hr]
  case last => rw [hc, hr, advance, if_neg (BitVec.lt_irrefl ec), if_neg (BitVec.lt_irrefl ep)]

end Sys2Proof.Machine
end

section
/-!
PROOFS. Instructions that are not carried out (30_encoding.md R95, R105; 42_address_window.md R156; 60_exceptions.md
R233), and the frame of every instruction (10_state.md R40).
-/

namespace Sys2Proof.Machine

/-! ## The window check, in its order (42_address_window.md R156) -/

section Check

variable {p : Params} {d : DevState}

theorem checkWindow_format (h : d.cfg.x3A ≠ some p.pixfmt24) : checkWindow p d = .error .pixelFormatUnset := if_pos h

theorem checkWindow_unset (hx : d.cfg.x3A = some p.pixfmt24)
    (h : d.sc = none ∨ d.ec = none ∨ d.sp = none ∨ d.ep = none) : checkWindow p d = .error (.windowInvalid .unset) := by
  rw [checkWindow, if_neg (not_not_intro hx)]
  split
  · simp_all
  · rfl

variable {sc ec sp ep : Word16} (hx : d.cfg.x3A = some p.pixfmt24) (hsc : d.sc = some sc) (hec : d.ec = some ec)
  (hsp : d.sp = some sp) (hep : d.ep = some ep)
include hx hsc hec hsp hep

theorem checkWindow_noMadctl (hm : d.madctl = none) : checkWindow p d = .error (.windowInvalid .noMadctl) := by
  rw [checkWindow, if_neg (not_not_intro hx)]
  simp only [hsc, hec, hsp, hep, hm]

theorem checkWindow_bad {m : Byte} (hm : d.madctl = some m)
    (hbad : ec < sc ∨ ep < sp ∨ cols p m ≤ ec.toNat ∨ rows p m ≤ ep.toNat) :
    checkWindow p d = .error (.windowInvalid (.regs sc ec sp ep)) := by
  rw [checkWindow, if_neg (not_not_intro hx)]
  simp only [hsc, hec, hsp, hep, hm, if_pos hbad]

end Check

/-- Settles O30: the order check, then the window check, in their order. -/
theorem ramwrRefusesBadWindow : Obligations.RamwrRefusesBadWindow := by
  intro s stream h faults
  have refused : ∀ f, acceptOpcode s.params .ramwr s.dev = .error f → faults f := fun f hf => by
    show exec (.ramwr stream) s = _
    rw [exec_eq_devRun, devRun_instr_error h (i := .ramwr stream) hf]
    rfl
  refine ⟨fun hw => refused _ (acceptOpcode_ramwr_outOfOrder hw), fun hw => ?_⟩
  have checked : ∀ f, checkWindow s.params s.dev = .error f → faults f :=
    fun f hf => refused f (acceptOpcode_ramwr_error hw hf)
  exact ⟨fun hx => checked _ (checkWindow_format hx), fun hx => ⟨fun hn => checked _ (checkWindow_unset hx hn),
    fun sc ec sp ep h1 h2 h3 h4 => ⟨fun hm => checked _ (checkWindow_noMadctl hx h1 h2 h3 h4 hm),
      fun m hm hbad => checked _ (checkWindow_bad hx h1 h2 h3 h4 hm hbad)⟩⟩⟩

/-! ## A device that takes no command -/

/-- Settles O31: by how the device stands to the first byte. -/
theorem untakenInstruction : Obligations.UntakenInstruction := by
  intro i s
  rw [exec_eq_devRun]
  refine ⟨fun h => ?held, fun hf hp => ?powerOn, fun hf hp hq => ?early⟩
  case held => rw [instrEvents, devRun_writeReg_held h]
  case powerOn => rw [instrEvents, devRun_writeReg_powerOn hp hf]; rfl
  case early => rw [instrEvents, devRun_writeReg_early hp hf hq]; rfl

/-- Settles O32: the unfinished command is the first fault. -/
theorem interruptedCommand : Obligations.InterruptedCommand := by
  intro i s h faults
  have interrupted : ∀ f, unfinished s.dev = some f → faults f := fun f hf => by
    show exec i s = _
    rw [exec_eq_devRun, instrEvents, devRun_writeReg_error h (acceptCommand_unfinished hf _)]
    rfl
  refine ⟨fun op hcmd hop hi => interrupted _ (unfinished_window hcmd hop hi), fun hcmd hi => ?access,
    fun hcmd hp => interrupted _ (unfinished_pixel hcmd hp)⟩
  case access => exact interrupted _ (hi ▸ unfinished_madctl hcmd (by omega))

/-! ## The frame of every instruction -/

theorem acceptOpcode_cmd {p : Params} {op : Opcode} {d d' : DevState} (h : acceptOpcode p op d = .ok d') :
    d'.cmd = some op := by
  rcases acceptOpcode_ok h with ⟨rfl, rfl⟩ | ⟨rfl, rfl⟩ | ⟨rfl, rfl⟩ | ⟨rfl, rfl⟩ |
    ⟨rfl, -, sc, ec, sp, ep, m, -, rfl⟩ | ⟨rfl, rfl⟩ | ⟨k, rfl, rfl⟩
  all_goals rfl

/-- A run of data bytes is within the frame of the command it belongs to. -/
theorem feed_frameOf {op : Opcode} {d : DevState} (hcmd : d.cmd = some op) (bs : List Byte) :
    DevState.FrameOf op d (d.feed bs) := by
  have hkeeps : (d.feed bs).cmd = some op ∧ DevState.FrameOf op d (d.feed bs) := by
    refine feed_keeps (P := fun x => x.cmd = some op ∧ DevState.FrameOf op d x) ?fault ?routed ⟨hcmd, .refl op d⟩ bs
    case fault => exact fun x f ⟨hc, hx⟩ => ⟨hc, hx.of_same⟩
    case routed =>
      intro x x' b hr ⟨hc, hx⟩
      obtain ⟨-, -, -, -, -, -, -, -, -, hcmd'⟩ := routeData_frame hr
      exact ⟨hcmd'.trans hc, hx.trans (routeData_frameOf hc hr)⟩
  exact hkeeps.2

/-- Every instruction is within its frame, from every state of the device. -/
theorem devRun_instr_frameOf (p : Params) (i : Instr) (d : DevState) :
    DevState.FrameOf i.opcode d (devRun p d (instrEvents p i)) := by
  have same : DevState.FrameOf i.opcode d d := .refl _ d
  rcases instr_cases p i d with h | ⟨-, f, h⟩ | ⟨-, d', ha, h⟩ <;> rw [h]
  · exact same.of_same
  · exact same.of_same
  · exact ((acceptOpcode_frameOf ha).trans (feed_frameOf (acceptOpcode_cmd ha) i.data)).of_same

/-- Settles O33: the frame of the instruction on the device, field by field. -/
theorem instructionFrame : Obligations.InstructionFrame := by
  intro i s t ht
  rw [exec_eq_devRun, Host.Outcome.next.injEq] at ht
  subst ht
  have h := devRun_instr_frameOf s.params i s.dev
  exact ⟨h.columns, h.rows, h.access, h.config, h.power, h.display, h.stream,
    fun hr hm c r => congrArg (fun m => FrameMem.read m c r) (h.memory hr hm), h.phase, h.resx, h.bl, rfl⟩

end Sys2Proof.Machine
end

section
/-!
PROOFS. Sequences of transmissions (30_encoding.md R96; 42_address_window.md R155, R158; 70_reset_and_hazards.md R272,
R273): a data transmission in parts, the order columns, rows, write, and the quiet time after sleep out.
-/

namespace Sys2Proof.Machine

/-! ## Data in parts (42_address_window.md R158) -/

/-- No byte changes the level of a line. -/
theorem takeByte_lines (p : Params) (d : DevState) (b : Byte) :
    (d.takeByte p b).csx = d.csx ∧ (d.takeByte p b).dcx = d.dcx := by
  rcases takeByte_cases p d b with h | ⟨-, f, h⟩ | ⟨-, -, h⟩ | ⟨-, -, h⟩
  · rw [h]; exact ⟨rfl, rfl⟩
  · rw [h]; exact ⟨rfl, rfl⟩
  · obtain ⟨-, -, hc, hd, -⟩ := acceptCommand_frame h
    exact ⟨hc, hd⟩
  · obtain ⟨-, -, -, hc, hd, -⟩ := routeData_frame h
    exact ⟨hc, hd⟩

theorem takeBytes_lines (p : Params) (d : DevState) (bs : List Byte) :
    (d.takeBytes p bs).csx = d.csx ∧ (d.takeBytes p bs).dcx = d.dcx := by
  induction bs generalizing d with
  | nil => exact ⟨rfl, rfl⟩
  | cons b bs ih =>
    obtain ⟨hc, hd⟩ := takeByte_lines p d b
    exact ⟨(ih _).1.trans hc, (ih _).2.trans hd⟩

theorem DevState.takeBytes_append (p : Params) (d : DevState) (xs ys : List Byte) :
    d.takeBytes p (xs ++ ys) = (d.takeBytes p xs).takeBytes p ys := List.foldl_append

/-- Between two transmissions of one kind the lines return to what they were for the first. -/
theorem devRun_exchange_append (p : Params) (kind : Kind) (d : DevState) (xs ys : List Byte) :
    devRun p d (exchange p kind xs ++ exchange p kind ys) = devRun p d (exchange p kind (xs ++ ys)) := by
  rw [devRun_append, devRun_exchange, devRun_exchange, devRun_exchange, DevState.takeBytes_append]
  generalize hx : (d.withLines (some p.csActive) (some (kindLevel p kind))).takeBytes p xs = x
  obtain ⟨hc, hd⟩ : x.csx = some p.csActive ∧ x.dcx = some (kindLevel p kind) := hx ▸ takeBytes_lines p _ xs
  have hback : (x.driveCs p.csActive.not).withLines (some p.csActive) (some (kindLevel p kind)) = x := by
    rw [← hc, ← hd]; rfl
  rw [hback]

theorem dataTx_of_ne_nil (p : Params) {bs : List Byte} (h : bs ≠ []) : dataTx p bs = exchange p .data bs := by
  cases bs with
  | nil => exact absurd rfl h
  | cons b bs => rfl

/-- Settles O34: chip-select released and asserted again leaves the device as it was. -/
theorem dataMayBeSplit : Obligations.DataMayBeSplit := by
  intro p d xs ys hx hy
  rw [dataTx_of_ne_nil p hx, dataTx_of_ne_nil p hy, dataTx_of_ne_nil p (List.append_ne_nil_of_left_ne_nil hx ys),
    devRun_exchange_append]

/-! ## Columns, rows, write (42_address_window.md R155) -/

theorem instr_eq_ofCfg {i : Instr} {k : CfgCode} (h : i.opcode = .cfg k) : i = Instr.ofCfg k i.data := by
  cases i <;> cases h <;> rfl

/-- The seven kinds of instruction, the configuration instructions as one. -/
theorem instr_kinds (i : Instr) : i = .slpout ∨ i = .dispon ∨ (∃ a b, i = .caset a b) ∨ (∃ a b, i = .paset a b) ∨
    (∃ l, i = .ramwr l) ∨ (∃ m, i = .madctl m) ∨ ∃ k l, i = Instr.ofCfg k l := by
  cases i with
  | slpout => exact .inl rfl
  | dispon => exact .inr (.inl rfl)
  | caset a b => exact .inr (.inr (.inl ⟨a, b, rfl⟩))
  | paset a b => exact .inr (.inr (.inr (.inl ⟨a, b, rfl⟩)))
  | ramwr l => exact .inr (.inr (.inr (.inr (.inl ⟨l, rfl⟩))))
  | madctl m => exact .inr (.inr (.inr (.inr (.inr (.inl ⟨m, rfl⟩)))))
  | _ l => exact .inr (.inr (.inr (.inr (.inr (.inr ⟨_, l, instr_eq_ofCfg rfl⟩)))))

section Sequence

variable {p : Params} {d : DevState} (h : d.accepting)
include h

theorem accepting_caset (a b : Word16) : (devRun p d (instrEvents p (.caset a b))).accepting := by
  rw [devRun_caset h]; exact ⟨h.1, rfl⟩

theorem accepting_paset (a b : Word16) : (devRun p d (instrEvents p (.paset a b))).accepting := by
  rw [devRun_paset h]; exact ⟨h.1, rfl⟩

/-- Columns, then rows: both pairs of registers, and the tracker at `RowSet` (42_address_window.md R150, R151). -/
theorem devRun_window (sc ec sp ep : Word16) :
    devRun p d (instrEvents p (.caset sc ec) ++ instrEvents p (.paset sp ep)) = { d.afterFrame p (encPair sp ep) with
      sc := some sc, ec := some ec, sp := some sp, ep := some ep, cmd := some .paset, pidx := 4, pbuf := encPair sp ep,
      wseq := .rowSet } := by
  rw [devRun_append, devRun_paset (accepting_caset h sc ec), devRun_caset h]
  rfl

theorem accepting_window (sc ec sp ep : Word16) :
    (devRun p d (instrEvents p (.caset sc ec) ++ instrEvents p (.paset sp ep))).accepting := by
  rw [devRun_window h]; exact ⟨h.1, rfl⟩

theorem wseq_window (sc ec sp ep : Word16) :
    (devRun p d (instrEvents p (.caset sc ec) ++ instrEvents p (.paset sp ep))).wseq = .rowSet := by
  rw [devRun_window h]

/-- The window just set is valid if it lies inside the extent and the rest is set up. -/
theorem validWindow_window {sc ec sp ep : Word16} {m : Byte} (hm : d.madctl = some m) (hx : d.cfg.x3A = some p.pixfmt24)
    (h1 : sc ≤ ec) (h2 : sp ≤ ep) (hc : ec.toNat < cols p m) (hr : ep.toNat < rows p m) :
    (devRun p d (instrEvents p (.caset sc ec) ++ instrEvents p (.paset sp ep))).validWindow p sc ec sp ep m := by
  rw [devRun_window h]; exact ⟨hx, rfl, rfl, rfl, rfl, hm, h1, h2, hc, hr⟩

/-- Memory write out of order records the tracker, whatever the stream. -/
theorem fault_ramwr_outOfOrder {w : WSeq} (hw : d.wseq = w) (hne : w ≠ .rowSet) (stream : List Byte) :
    (devRun p d (instrEvents p (.ramwr stream))).fault = some (.windowSequence w) := by
  subst hw
  rw [devRun_instr_error h (i := .ramwr stream) (acceptOpcode_ramwr_outOfOrder hne)]
  rfl

/-- Any other instruction after complete rows leaves the device accepting and the tracker idle. -/
theorem between_idle {i : Instr} (hw : d.wseq = .rowSet) (hs : i.opcode ≠ .slpout) (hc : i.opcode ≠ .caset)
    (hr : i.opcode ≠ .ramwr) :
    (devRun p d (instrEvents p i)).accepting ∧ (devRun p d (instrEvents p i)).wseq = .idle := by
  rcases instr_kinds i with rfl | rfl | ⟨a, b, rfl⟩ | ⟨a, b, rfl⟩ | ⟨l, rfl⟩ | ⟨m, rfl⟩ | ⟨k, l, rfl⟩
  · exact absurd rfl hs
  · rw [devRun_dispon h]; exact ⟨⟨h.1, rfl⟩, rfl⟩
  · exact absurd rfl hc
  · refine ⟨accepting_paset h a b, ?_⟩
    rw [devRun_paset h, hw]; rfl
  · exact absurd rfl hr
  · rw [devRun_madctl h]; exact ⟨⟨h.1, rfl⟩, rfl⟩
  · rw [devRun_cfg h]; exact ⟨⟨h.1, rfl⟩, rfl⟩

/-- The write in order, with a valid window, records nothing and starts the stream at the corner. -/
theorem opened_in_order {sc ec sp ep : Word16} {m : Byte} (hw : d.wseq = .rowSet) (hv : d.validWindow p sc ec sp ep m)
    {x : DevState} (hx : x = devRun p d (instrEvents p (.ramwr []))) :
    x.fault = none ∧ x.cmd = some .ramwr ∧ x.wp = some (sc, sp) ∧ x.wseq = .idle := by
  rw [hx, devRun_ramwr_nil h hw hv]
  exact ⟨h.1.2.1, rfl, rfl, rfl⟩

/-- Whole pixels leave a stream that the next command may end, the tracker idle. -/
theorem between_stream {sc ec sp ep : Word16} {m : Byte} (hw : d.wseq = .rowSet) (hv : d.validWindow p sc ec sp ep m)
    {stream : List Byte} (hl : stream.length ≤ windowPixels sc ec sp ep * 3) (h3 : stream.length % 3 = 0) :
    (devRun p d (instrEvents p (.ramwr stream))).accepting ∧
      (devRun p d (instrEvents p (.ramwr stream))).wseq = .idle := by
  have hpix : stream.drop (stream.length / 3 * 3) = [] := List.drop_eq_nil_of_le (by omega)
  rw [devRun_ramwr h hw hv hl, hpix]
  exact ⟨⟨h.1, rfl⟩, rfl⟩

/-- Sleep out leaves the device awake, owing 120 ms. -/
theorem owing_after_slpout {x : DevState} (hx : x = devRun p d (instrEvents p .slpout)) :
    x.phase = .ready ∧ x.fault = none ∧ x.quiet = 120 ∧ x.sleep = false ∧ unfinished x = none := by
  rw [hx, devRun_slpout h]
  exact ⟨h.1.1, h.1.2.1, rfl, rfl, rfl⟩

end Sequence

/-- An instruction inside a quiet time records what is still owed. -/
theorem fault_early {p : Params} {x : DevState} {q : Nat} (hp : x.phase = .ready) (hf : x.fault = none)
    (hq : x.quiet = q) (hpos : 0 < q) (i : Instr) : (devRun p x (instrEvents p i)).fault = some (.earlyAccess q) := by
  subst hq
  rw [instrEvents, devRun_writeReg_early hp hf hpos]
  rfl

/-- Settles O36: columns and rows leave the tracker at `RowSet`; what comes between them and the write decides what the
write finds. -/
theorem windowOrderEnforced : Obligations.WindowOrderEnforced := by
  intro p d sc ec sp ep h between
  have hacc := accepting_window (p := p) h sc ec sp ep
  have hset := wseq_window (p := p) h sc ec sp ep
  have split : ∀ i, between i = (devRun p (devRun p (devRun p d (instrEvents p (.caset sc ec) ++
      instrEvents p (.paset sp ep))) (instrEvents p i)) (instrEvents p (.ramwr []))).fault :=
    fun i => by simp only [between, devRun_append]
  refine ⟨?rowsFirst, fun i hs hc hr => ?idle, fun a b => ?columns, ?sleepOut, fun m hm hx h1 h2 hc hr => ?valid⟩
  case rowsFirst =>
    rw [devRun_append, devRun_append]
    refine fault_ramwr_outOfOrder (accepting_caset (accepting_paset h sp ep) sc ec) ?_ (by decide) []
    rw [devRun_caset (accepting_paset h sp ep)]
  case idle =>
    obtain ⟨hacc', hidle⟩ := between_idle hacc hset hs hc hr
    exact (split i).trans (fault_ramwr_outOfOrder hacc' hidle (by decide) [])
  case columns =>
    refine (split (.caset a b)).trans (fault_ramwr_outOfOrder (accepting_caset hacc a b) ?_ (by decide) [])
    rw [devRun_caset hacc]
  case sleepOut =>
    obtain ⟨hp, hf, hq, -⟩ := owing_after_slpout hacc rfl
    exact (split .slpout).trans (fault_early hp hf hq (by decide) (.ramwr []))
  case valid =>
    have hv := validWindow_window h hm hx h1 h2 hc hr
    obtain ⟨hf, hcmd, hwp, hidle⟩ := opened_in_order hacc hset hv (devRun_append _ _ _ _)
    refine ⟨hf, hcmd, hwp, hidle, fun stream hl h3 => ?_⟩
    obtain ⟨hacc', hidle'⟩ := between_stream hacc hset hv hl h3
    exact (split (.ramwr stream)).trans (fault_ramwr_outOfOrder hacc' hidle' (by decide) [])

/-- Settles O37: what the wait leaves of the 120 ms is what the first byte meets. -/
theorem sleepOutQuietTime : Obligations.SleepOutQuietTime := by
  intro p d h
  obtain ⟨hp, hf, hq, hs, hu⟩ := owing_after_slpout (p := p) h rfl
  have waited : ∀ t i, devRun p d (instrEvents p .slpout ++ [.wait t] ++ instrEvents p i) =
      devRun p ((devRun p d (instrEvents p .slpout)).wait t) (instrEvents p i) := fun t i => by
    rw [devRun_append, devRun_append]; rfl
  generalize devRun p d (instrEvents p .slpout) = x at *
  have hready : ∀ t, (x.wait t).phase = .ready := fun t => congrArg (Phase.elapse t) hp
  have howed : ∀ t, (x.wait t).quiet = 120 - t := fun t => by rw [DevState.wait_quiet, hq]; omega
  refine ⟨fun t i ht => ?early, fun t ht => ?visible⟩
  case early =>
    rw [waited]
    exact fault_early (hready t) hf (howed t) (Nat.sub_pos_of_lt ht) i
  case visible =>
    rw [waited, devRun_dispon ⟨⟨hready t, hf, (howed t).trans (Nat.sub_eq_zero_of_le ht)⟩, hu⟩]
    exact (visibleMeaning _).mpr ⟨hready t, hf, hs, rfl⟩

end Sys2Proof.Machine
end

section
/-!
PROOFS. Two traces of the host on the device: `begin` (70_reset_and_hazards.md R265) and `FlushBitBuffer` (20_memory.md
R81).
-/

namespace Sys2Proof.Machine

/-! ## The boot trace (44_host_driver.md R185 to R187) -/

/-- A command of the table is a configuration instruction. -/
theorem writeReg_cfg (p : Params) (k : CfgCode) (bytes : List Byte) :
    writeReg p k.code bytes = instrEvents p (Instr.ofCfg k bytes) := by
  rw [instrEvents, Instr.opcode_ofCfg, Instr.data_ofCfg]; rfl

theorem commandTx_slpout (p : Params) : commandTx p Opcode.slpout.code = instrEvents p .slpout :=
  (List.append_nil _).symm

theorem commandTx_dispon (p : Params) : commandTx p Opcode.dispon.code = instrEvents p .dispon :=
  (List.append_nil _).symm

/-- The device after a hardware reset: blank registers, ready, nothing owed. -/
def DevState.afterReset (d : DevState) : DevState := { d.resetValues with phase := .ready, resx := some .high }

/-- Whether the line was low already or not, the count of the pulse is what the device has been held. -/
theorem resetLow_held {d : DevState} (h : d.resetOk) :
    ∃ t, d.resetLow = { d.resetValues with phase := .resetHeld t } := by
  by_cases hr : d.resx = some .low
  · obtain ⟨t, ht⟩ := h.1.mp hr
    exact ⟨t, (resetLow_of_low hr).trans (h.2.1 t ht)⟩
  · exact ⟨0, resetLow_of_not_low hr⟩

theorem devRun_hardReset {p : Params} {d : DevState} (h : d.resetOk) (o1 o2 : Nat) :
    devRun p d (hardResetTrace o1 o2) = d.afterReset := by
  obtain ⟨t, ht⟩ := resetLow_held h
  have hlow : ({ d.resetValues with phase := .resetHeld t } : DevState).wait (tResetLow + o1) =
      { d.resetValues with phase := .resetHeld (t + (tResetLow + o1)) } := by
    simp [DevState.wait, Phase.elapse, DevState.resetValues, DevState.powerOn]
  have hhigh := resetHigh_long (d := { d.resetValues with phase := .resetHeld (t + (tResetLow + o1)) }) rfl
    (t := t + (tResetLow + o1)) (by omega)
  simp only [hardResetTrace, devRun_cons, devRun_nil, devStep, ht, hlow, hhigh]
  simp [DevState.wait, Phase.elapse, DevState.afterReset, DevState.resetValues, DevState.powerOn]

/-- The configuration registers after the commands of a list of codes. -/
def configured (p : Params) (m : CfgMap (Option (List Byte))) (ks : List CfgCode) : CfgMap (Option (List Byte)) :=
  ks.foldl (fun m k => m.set k (some (p.initData.get k))) m

/-- The commands of a list of codes, one after the other: beside the registers only lines and latches change. -/
theorem devRun_configs (p : Params) (ks : List CfgCode) {d : DevState} (h : d.accepting) (hb : d.pbuf = [])
    (hw : d.wseq = .idle) : ∃ c n x y,
      devRun p d (ks.flatMap fun k => writeReg p k.code (p.initData.get k)) =
        { d with cfg := configured p d.cfg ks, cmd := c, pidx := n, csx := x, dcx := y } ∧
      DevState.accepting { d with cfg := configured p d.cfg ks, cmd := c, pidx := n, csx := x, dcx := y } := by
  induction ks generalizing d with
  | nil => exact ⟨d.cmd, d.pidx, d.csx, d.dcx, rfl, h⟩
  | cons k ks ih =>
    obtain ⟨c, n, x, y, hrun, hacc⟩ := ih (d := { d.afterFrame p (p.initData.get k) with
      cfg := d.cfg.set k (some (p.initData.get k)), cmd := some (.cfg k), pidx := (p.initData.get k).length,
      pbuf := [], wseq := .idle }) ⟨h.1, rfl⟩ rfl rfl
    have hstate : ({ d.afterFrame p (p.initData.get k) with
        cfg := configured p (d.cfg.set k (some (p.initData.get k))) ks, cmd := c, pidx := n, pbuf := [], wseq := .idle,
        csx := x, dcx := y } : DevState) =
        { d with cfg := configured p d.cfg (k :: ks), cmd := c, pidx := n, csx := x, dcx := y } := by
      rw [← hb, ← hw]; rfl
    refine ⟨c, n, x, y, ?_, hstate ▸ hacc⟩
    rw [List.flatMap_cons, devRun_append, writeReg_cfg, devRun_cfg h, hrun]
    exact hstate

/-- Sleep out, then a wait that covers its quiet time (44_host_driver.md R187). -/
theorem devRun_slpout_wait {p : Params} {d : DevState} (h : d.accepting) (o : Nat) :
    devRun p d (instrEvents p .slpout ++ [.wait (tSleepOut + o)]) = { d.afterFrame p [] with
      sleep := false, quiet := 0, cmd := some .slpout, pidx := 0, pbuf := [], wseq := .idle } := by
  have hphase : d.phase.elapse (tSleepOut + o) = d.phase := elapse_of_unheld (by simp [h.1.1]) _
  have hquiet : 120 - min 120 (tSleepOut + o) = 0 := by rw [tSleepOut]; omega
  rw [devRun_append, devRun_slpout h]
  simp [devStep, DevState.wait, DevState.afterFrame, hphase, hquiet]

/-- Settles O38: the reset, the table, sleep out with its wait, display on and orientation 0, each by its own law. -/
theorem beginLeavesReadyPanel : Obligations.BeginLeavesReadyPanel := by
  intro p d o1 o2 o3 h
  obtain ⟨c, n, x, y, hconf, hacc⟩ := devRun_configs p CfgCode.all (d := d.afterReset) ⟨⟨rfl, rfl, rfl⟩, rfl⟩ rfl rfl
  have htrace : beginTrace p o1 o2 o3 = hardResetTrace o1 o2 ++ (initTrace p ++ (instrEvents p .slpout ++
      [.wait (tSleepOut + o3)] ++ (instrEvents p .dispon ++ instrEvents p (.madctl p.rot0)))) := by
    simp only [beginTrace, commandTx_slpout, commandTx_dispon, List.append_assoc]
    rfl
  rw [htrace, devRun_append, devRun_hardReset h, devRun_append, initTrace, hconf, devRun_append,
    devRun_slpout_wait hacc, devRun_append, devRun_dispon ?on, devRun_madctl ?turned]
  case on => exact ⟨⟨rfl, rfl, rfl⟩, rfl⟩
  case turned => exact ⟨⟨rfl, rfl, rfl⟩, rfl⟩
  rfl

/-! ## The flush (20_memory.md R81) -/

/-- The trace of a flush whose addresses fit 16 bits: columns, rows, and memory write with the buffer as its stream. -/
theorem flushTrace_some {p : Params} {x0 y0 x1 y1 : Nat} (buf : List Byte)
    (h : x0 + p.offsetX ≤ 0xFFFF ∧ x1 + p.offsetX ≤ 0xFFFF ∧ y0 + p.offsetY ≤ 0xFFFF ∧ y1 + p.offsetY ≤ 0xFFFF) :
    flushTrace p x0 y0 x1 y1 buf = some
      (instrEvents p (.caset (BitVec.ofNat 16 (x0 + p.offsetX)) (BitVec.ofNat 16 (x1 + p.offsetX))) ++
       instrEvents p (.paset (BitVec.ofNat 16 (y0 + p.offsetY)) (BitVec.ofNat 16 (y1 + p.offsetY))) ++
       instrEvents p (.ramwr buf)) := by
  rw [flushTrace_eq_map, setWindowTrace_some h, Option.map_some]
  simp [instrEvents, writeReg, Instr.opcode, Instr.data, dataTx]

theorem toNat_ofNat_of_le {n : Nat} (h : n ≤ 0xFFFF) : (BitVec.ofNat 16 n).toNat = n := by
  rw [BitVec.toNat_ofNat]; exact Nat.mod_eq_of_lt (by omega)

/-- The window of a rectangle has its pixels, and the pixel at `(i, j)` its translated address. -/
theorem windowPixels_rect {x0 y0 x1 y1 ox oy : Nat} (hx0 : x0 ≤ x1) (hy0 : y0 ≤ y1) (hx : x1 + ox ≤ 0xFFFF)
    (hy : y1 + oy ≤ 0xFFFF) :
    windowPixels (BitVec.ofNat 16 (x0 + ox)) (BitVec.ofNat 16 (x1 + ox)) (BitVec.ofNat 16 (y0 + oy))
      (BitVec.ofNat 16 (y1 + oy)) = (x1 - x0 + 1) * (y1 - y0 + 1) := by
  rw [windowPixels, toNat_ofNat_of_le hx, toNat_ofNat_of_le hy, toNat_ofNat_of_le (by omega : x0 + ox ≤ 0xFFFF),
    toNat_ofNat_of_le (by omega : y0 + oy ≤ 0xFFFF), Nat.add_sub_add_right, Nat.add_sub_add_right]

theorem windowAddr_rect {x0 x1 ox y0 oy i j : Nat} (hx0 : x0 ≤ x1) (hx : x1 + ox ≤ 0xFFFF) (hi : i < x1 - x0 + 1) :
    windowAddr (BitVec.ofNat 16 (x0 + ox)) (BitVec.ofNat 16 (x1 + ox)) (BitVec.ofNat 16 (y0 + oy))
      (j * (x1 - x0 + 1) + i) = (BitVec.ofNat 16 (x0 + ox + i), BitVec.ofNat 16 (y0 + oy + j)) := by
  rw [windowAddr, toNat_ofNat_of_le hx, toNat_ofNat_of_le (by omega : x0 + ox ≤ 0xFFFF), Nat.add_sub_add_right,
    Nat.mul_comm j, Nat.mul_add_mod, Nat.mod_eq_of_lt hi, Nat.mul_add_div (Nat.succ_pos _), Nat.div_eq_of_lt hi,
    Nat.add_zero, ← BitVec.ofNat_add, ← BitVec.ofNat_add]

/-- Settles O39: the trace is columns, rows and a stream that fills the window; its addresses are the translated ones. -/
theorem flushStoresBuffer : Obligations.FlushStoresBuffer := by
  intro p d x0 y0 x1 y1 buf m h hm hfmt hx0 hy0 hx hy hcols hrows hlen
  have hx0' : x0 + p.offsetX ≤ 0xFFFF := by omega
  have hy0' : y0 + p.offsetY ≤ 0xFFFF := by omega
  have hpixels := windowPixels_rect hx0 hy0 hx hy
  have haddr : ∀ i j, i < x1 - x0 + 1 → _ := fun i j => windowAddr_rect (y0 := y0) (oy := p.offsetY) (j := j) hx0 hx
  have e1 := toNat_ofNat_of_le hx0'
  have e2 := toNat_ofNat_of_le hx
  have e3 := toNat_ofNat_of_le hy0'
  have e4 := toNat_ofNat_of_le hy
  refine ⟨_, flushTrace_some buf ⟨hx0', hx, hy0', hy⟩, ?_⟩
  generalize BitVec.ofNat 16 (x0 + p.offsetX) = sc at *
  generalize BitVec.ofNat 16 (x1 + p.offsetX) = ec at *
  generalize BitVec.ofNat 16 (y0 + p.offsetY) = sp at *
  generalize BitVec.ofNat 16 (y1 + p.offsetY) = ep at *
  have h1 : sc ≤ ec := by rw [BitVec.le_def]; omega
  have h2 : sp ≤ ep := by rw [BitVec.le_def]; omega
  have hv := validWindow_window h hm hfmt h1 h2 (e2 ▸ hcols) (e4 ▸ hrows)
  have hfull : buf.length = windowPixels sc ec sp ep * 3 := by rw [hpixels, hlen]
  have hpix : buf.drop (buf.length / 3 * 3) = [] := List.drop_eq_nil_of_le (by omega)
  rw [devRun_append, devRun_ramwr (accepting_window h sc ec sp ep) (wseq_window h sc ec sp ep) hv hfull.le, hpix,
    decide_eq_true hfull, devRun_window h]
  refine ⟨h.1.2.1, rfl, rfl, rfl, hm, fun i j r g b hi hj hr hg hb => ?stored, fun c r hout => ?others⟩
  case stored =>
    have hk : j * (x1 - x0 + 1) + i < buf.length / 3 := by
      have hrow : (x1 - x0 + 1) * (j + 1) ≤ (x1 - x0 + 1) * (y1 - y0 + 1) := Nat.mul_le_mul_left _ hj
      rw [Nat.mul_succ, Nat.mul_comm _ j] at hrow
      omega
    rw [Nat.mul_comm _ 3] at hr hg hb
    have hread := read_stream_stored d.fm h1 h2 hfull.le hk hr hg hb
    rwa [haddr i j hi] at hread
  case others =>
    refine read_stream_other d.fm fun k hk he => ?_
    obtain ⟨i1, i2, i3, i4⟩ := windowAddr_inside (k := k) h1 h2 (by omega)
    simp only [he, BitVec.le_def] at i1 i2 i3 i4
    omega

end Sys2Proof.Machine
end

section
/-!
PROOFS. The machine (00_scope.md R3, R17; log entry 5): which step a pending command is, the steps as the fold of the
device step, and what every step keeps of the host.
-/

namespace Sys2Proof.Machine

/-! ## One step -/

/-- The next instruction is run with its events taken. -/
theorem step_of_fetch {s : State} {i : Instr} {rest : List Event} (h : fetch s.params s.bus = some (i, rest)) :
    i.wellFormed = true ∧ step s = exec i { s with bus := rest } := by
  have hne : s.bus ≠ [] := fun hnil => by rw [hnil] at h; cases h
  obtain ⟨e, es, hbus⟩ := List.exists_cons_of_ne_nil hne
  refine ⟨(fetch_some h).2, ?_⟩
  rw [hbus] at h
  simp only [step, hbus, h]

/-- Any other pending event is given to the device. -/
theorem step_of_event {s : State} {e : Event} {rest : List Event} (hbus : s.bus = e :: rest)
    (h : fetch s.params s.bus = none) :
    step s = .next { s with bus := rest, dev := devStep s.params s.dev e } := by
  rw [hbus] at h
  simp only [step, hbus, h]

theorem takeTx_dataTx (p : Params) {d : Byte} {ds : List Byte} (rest : List Event) :
    takeTx p .data (dataTx p (d :: ds) ++ rest) = some (d, ds, rest) := takeTx_exchange p .data d ds rest

/-- A command byte with data that decode with it. -/
theorem fetchWith_data {p : Params} {b : Byte} {data : List Byte} {i : Instr} (rest : List Event) (hne : data ≠ [])
    (h : decode (b :: data) = .ok i) : fetchWith p b (dataTx p data ++ rest) = some (i, rest) := by
  obtain ⟨d, ds, rfl⟩ := List.exists_cons_of_ne_nil hne
  simp only [fetchWith, takeTx_dataTx, h]

/-- A command byte with no data transaction after it. -/
theorem fetchWith_alone {p : Params} {b : Byte} {i : Instr} {rest : List Event} (ht : takeTx p .data rest = none)
    (h : decode [b] = .ok i) : fetchWith p b rest = some (i, rest) := by
  simp only [fetchWith, ht, h]

/-- A command byte with data that do not decode with it. -/
theorem fetchWith_undecoded {p : Params} {b : Byte} {data : List Byte} {i : Instr} (rest : List Event) (hne : data ≠ [])
    (hno : ∀ j, decode (b :: data) ≠ .ok j) (h : decode [b] = .ok i) :
    fetchWith p b (dataTx p data ++ rest) = some (i, dataTx p data ++ rest) := by
  obtain ⟨d, ds, rfl⟩ := List.exists_cons_of_ne_nil hne
  cases hd : decode (b :: d :: ds) with
  | ok j => exact absurd hd (hno j)
  | error f => simp only [fetchWith, takeTx_dataTx, hd, h]

/-- Settles O40: by what follows the command transaction. -/
theorem stepRunsDecodedInstruction : Obligations.StepRunsDecodedInstruction := by
  intro s b i rest
  refine ⟨fun data hne hbus hd => ?data, fun hbus ht hd => ?alone, fun data hne hbus hno hd => ?undecoded,
    fun e hbus hf => step_of_event hbus hf⟩
  all_goals apply step_of_fetch
  case data => rw [hbus, List.append_assoc, fetch_commandTx, fetchWith_data rest hne hd]
  case alone => rw [hbus, fetch_commandTx, fetchWith_alone ht hd]
  case undecoded => rw [hbus, List.append_assoc, fetch_commandTx, fetchWith_undecoded rest hne hno hd]

/-- Settles O42: the step with nothing to take. -/
theorem idleMachineStays : Obligations.IdleMachineStays := fun s hbus hops => by simp only [step, hbus, hops]

/-! ## Steps as the fold of the device step -/

/-- With events pending a step always answers a next state. -/
theorem step_next_of_pending {s : State} (h : s.bus ≠ []) : ∃ t, step s = .next t := by
  obtain ⟨e, es, hbus⟩ := List.exists_cons_of_ne_nil h
  cases hf : fetch s.params s.bus with
  | none => exact ⟨_, step_of_event hbus hf⟩
  | some q => exact ⟨_, (step_of_fetch (i := q.1) (rest := q.2) hf).2.trans (exec_eq _ _)⟩

/-- A step with events pending takes some of them, and the device runs over those. -/
theorem step_takes_pending {s : State} (h : s.bus ≠ []) : ∃ given rest, given ≠ [] ∧ s.bus = given ++ rest ∧
    step s = .next { s with bus := rest, dev := devRun s.params s.dev given } := by
  obtain ⟨t, ht⟩ := step_next_of_pending h
  rcases step_cases ht with ⟨given, rest, hne, hbus, rfl⟩ | ⟨hnil, -⟩ | ⟨hnil, -⟩
  · exact ⟨given, rest, hne, hbus, ht⟩
  · exact absurd hnil h
  · exact absurd hnil h

theorem run_succ_of_next {s t : State} (h : step s = .next t) (n : Nat) : core.run (n + 1) s = core.run n t := by
  have hcore : core.step s = .next t := h
  simp only [Host.Core.run, hcore]

/-- Settles O41: by the number of pending events, of which each step takes at least one. -/
theorem stepsFoldDevStep : Obligations.StepsFoldDevStep := by
  intro s
  induction hlen : s.bus.length using Nat.strong_induction_on generalizing s with
  | _ len ih =>
    by_cases hbus : s.bus = []
    · refine ⟨0, Nat.zero_le _, ?_⟩
      rw [hbus, devRun_nil, ← hbus]
      rfl
    · obtain ⟨given, rest, hne, hsplit, hstep⟩ := step_takes_pending hbus
      have hpos : 0 < given.length := List.length_pos_of_ne_nil hne
      have hsum : len = given.length + rest.length := by rw [← hlen, hsplit, List.length_append]
      obtain ⟨n, hn, hrun⟩ := ih rest.length (by omega)
        { s with bus := rest, dev := devRun s.params s.dev given } rfl
      refine ⟨n + 1, by omega, ?_⟩
      rw [run_succ_of_next hstep, hrun, hsplit, devRun_append]

/-! ## What every step keeps of the host -/

/-- A write of a pixel keeps the size of the buffer. -/
theorem setRGB_wf {c c' : Canvas} {x y : Nat} {px : Pixel} (hc : c.wf = true) (h : c.setRGB x y px = some c') :
    c'.wf = true := by
  obtain ⟨hrect, hlen, -⟩ := Canvas.setRGB_frame h
  rw [Canvas.wf_iff] at hc ⊢
  rw [hrect]
  exact ⟨hc.1, hc.2.1, hlen.trans hc.2.2⟩

theorem setColor_wf {c c' : Canvas} {x y : Nat} {col : Color} (hc : c.wf = true) (h : c.setColor x y col = some c') :
    c'.wf = true := by
  unfold Canvas.setColor at h
  split at h
  · cases h
  · exact setRGB_wf hc h

theorem drawPoint_wf {c : Canvas} (hc : c.wf = true) (x y : Int) (col : Color) : (c.drawPoint x y col).wf = true := by
  unfold Canvas.drawPoint
  split
  · cases h : c.setColor x.toNat y.toNat col with
    | none => exact hc
    | some c' => exact setColor_wf hc h
  · exact hc

theorem drawRow_wf {c : Canvas} (hc : c.wf = true) (x y : Int) (row : List Color) : (c.drawRow x y row).wf = true := by
  induction row generalizing c x with
  | nil => exact hc
  | cons col cols ih => exact ih (drawPoint_wf hc x y col) (x + 1)

theorem drawRows_wf {c : Canvas} (hc : c.wf = true) (x y : Int) (rows : List (List Color)) :
    (c.drawRows x y rows).wf = true := by
  induction rows generalizing c y with
  | nil => exact hc
  | cons row rows ih => exact ih (drawRow_wf hc x y row) (y + 1)

theorem clear_wf {c : Canvas} (hc : c.wf = true) : c.clear.wf = true := by
  rw [Canvas.wf_iff] at hc ⊢
  exact ⟨hc.1, hc.2.1, (List.length_map _).trans hc.2.2⟩

theorem new_wf {x0 y0 x1 y1 : Nat} (hx : x0 ≤ x1) (hy : y0 ≤ y1) : (Canvas.new x0 y0 x1 y1).wf = true :=
  Canvas.wf_iff.mpr ⟨hx, hy, List.length_replicate⟩

/-- The host and its canvases are in order. -/
def State.hostSide (s : State) : Prop := s.host.ok ∧ s.canvasesOk

theorem changesCanvas_hostSide {s t : State} {k : Nat} {f : Canvas → Option Canvas} (hs : s.hostSide)
    (hf : ∀ c c', c.wf = true → f c = some c' → c'.wf = true) (h : s.changesCanvas k f = .next t) : t.hostSide := by
  unfold State.changesCanvas at h
  split at h
  · cases h
  · rename_i c hk
    split at h
    · cases h
    · rename_i c' hc'
      cases h
      refine ⟨hs.1, fun x hx => ?_⟩
      rcases List.mem_or_eq_of_mem_set hx with hx | rfl
      · exact hs.2 x hx
      · exact hf c x (hs.2 c (List.mem_of_getElem? hk)) hc'

theorem makesCanvas_hostSide {s t : State} {x0 y0 x1 y1 : Nat} (hs : s.hostSide)
    (h : s.makesCanvas x0 y0 x1 y1 = .next t) : t.hostSide := by
  unfold State.makesCanvas at h
  split at h
  · rename_i hrect
    cases h
    refine ⟨hs.1, fun x hx => ?_⟩
    rcases List.mem_append.mp hx with hx | hx
    · exact hs.2 x hx
    · rw [List.mem_singleton.mp hx]; exact new_wf hrect.1 hrect.2
  · cases h

/-- The trace an operation emits is no part of that. -/
theorem emits_hostSide {s t : State} {trace : List Event} (hs : s.hostSide) (h : s.emits trace = .next t) :
    t.hostSide := by
  rw [State.emits_eq_next.mp h]; exact hs

theorem withHost_hostSide {s : State} {w : HostState} (hw : w.ok) (hs : s.hostSide) :
    State.hostSide { s with host := w } := ⟨hw, hs.2⟩

theorem emitsWindow_hostSide {s t : State} {trace : Option (List Event)} (hs : s.hostSide)
    (h : s.emitsWindow trace = .next t) : t.hostSide := by
  cases trace with
  | none => cases h
  | some trace => exact emits_hostSide hs h

theorem returns_hostSide {s t : State} {r : HostReply} (hs : s.hostSide) (h : s.returns r = .next t) : t.hostSide := by
  cases h; exact hs

theorem readsCanvas_hostSide {s t : State} {k : Nat} {f : Canvas → Option HostReply} (hs : s.hostSide)
    (h : s.readsCanvas k f = .next t) : t.hostSide := by
  unfold State.readsCanvas at h
  split at h
  · cases h
  · split at h
    · cases h
    · exact returns_hostSide hs h

theorem flushesCanvas_hostSide {s t : State} {k : Nat} {payload : Canvas → List Byte} (hs : s.hostSide)
    (h : s.flushesCanvas k payload = .next t) : t.hostSide := by
  unfold State.flushesCanvas at h
  split at h
  · cases h
  · exact emitsWindow_hostSide hs h

/-- An operation on the full screen does what it does for some size, or is refused. -/
theorem clears_hostSide {s t : State} {px : Pixel} (hs : s.hostSide) (h : s.clears px = .next t) : t.hostSide := by
  unfold State.clears at h
  split at h
  · cases h
  · exact emitsWindow_hostSide hs h

theorem makesFullScreen_hostSide {s t : State} (hs : s.hostSide) (h : s.makesFullScreen = .next t) : t.hostSide := by
  unfold State.makesFullScreen at h
  split at h
  · cases h
  · exact makesCanvas_hostSide hs h

/-- The sizes an orientation sets (44_host_driver.md R194). -/
theorem rotSize_ok (sel : Nat) : HostState.ok { w := some (rotSize sel).1, h := some (rotSize sel).2 } := by
  by_cases h : sel % 4 = 0
  · rw [rotSize_of_mod_zero h]; exact .inr (.inl ⟨rfl, rfl⟩)
  · rw [rotSize_of_mod_ne_zero h]; exact .inr (.inr ⟨rfl, rfl⟩)

/-- Every operation keeps the host and its canvases in order. -/
theorem perform_hostSide {op : HostOp} {s t : State} (hs : s.hostSide) (h : perform op s = .next t) : t.hostSide := by
  cases op with
  | emit | exchangeData | command | sendData | writeReg | hardReset => exact emits_hostSide hs h
  | construct | begin => exact emits_hostSide (withHost_hostSide (.inr (.inl ⟨rfl, rfl⟩)) hs) h
  | lcdDirection sel => exact emits_hostSide (withHost_hostSide (rotSize_ok sel) hs) h
  | setWindow | flushBitBuffer => exact emitsWindow_hostSide hs h
  | clear => exact clears_hostSide hs h
  | size => exact returns_hostSide hs h
  | getFullScreenCanvas => exact makesFullScreen_hostSide hs h
  | getCanvas => exact makesCanvas_hostSide hs h
  | setRGB => exact changesCanvas_hostSide hs (fun _ _ => setRGB_wf) h
  | setColor => exact changesCanvas_hostSide hs (fun _ _ => setColor_wf) h
  | drawImage k img =>
    exact changesCanvas_hostSide hs (fun _ _ hc h => Option.some.inj h ▸ drawRows_wf hc _ _ _) h
  | canvasClear => exact changesCanvas_hostSide hs (fun _ _ hc h => Option.some.inj h ▸ clear_wf hc) h
  | getRGB | getColor => exact readsCanvas_hostSide hs h
  | flush | flushDirectly => exact flushesCanvas_hostSide hs h

/-- Settles O45: events are no part of the host; an operation keeps it in order. -/
theorem stepKeepsHostInvariant : Obligations.StepKeepsHostInvariant := by
  intro s t hhost hcanvases hst
  rcases step_cases hst with ⟨given, rest, -, -, rfl⟩ | ⟨-, op, ops, -, hp⟩ | ⟨-, -, rfl⟩
  · exact ⟨hhost, hcanvases, rfl⟩
  · obtain ⟨hh, hc⟩ := perform_hostSide (s := { s with ops := ops }) ⟨hhost, hcanvases⟩ hp
    obtain ⟨-, hparams, -⟩ := perform_frame hp
    exact ⟨hh, hc, hparams⟩
  · exact ⟨hhost, hcanvases, rfl⟩

end Sys2Proof.Machine
end

section
/-!
PROOFS. What remains of the host driver (44_host_driver.md R183, R187, R198) and of the canvas (45_host_canvas.md R215,
R217, R221).
-/

namespace Sys2Proof.Machine

/-! ## Calls (44_host_driver.md R183, R187) -/

/-- Settles O47: by whether there are bytes. -/
theorem sendDataFraming : Obligations.SendDataFraming := by
  intro s payload
  cases payload with
  | nil => exact (if_pos rfl).symm
  | cons b bs => exact (if_neg (List.cons_ne_nil b bs)).symm

/-- Settles O49: the boot trace, its commands read as instructions. -/
theorem bootSequence : Obligations.BootSequence := by
  intro s o1 o2 o3
  refine ⟨?_, rfl⟩
  refine State.emits_eq_next.mpr ?_
  simp only [beginTrace, initTrace, CfgCode.all, List.flatMap_cons, List.flatMap_nil, writeReg_cfg, commandTx_slpout,
    commandTx_dispon, List.append_assoc, List.append_nil]
  rfl

/-! ## Canvases (44_host_driver.md R198; log entries 10, 13) -/

/-- Settles O53: by the order of the corners. -/
theorem canvasCreation : Obligations.CanvasCreation := fun _ _ _ _ _ =>
  ⟨fun hx hy => if_pos ⟨hx, hy⟩, fun h => if_neg (by omega)⟩

theorem fullSize_eq_none {s : State} (h : s.host.w = none ∨ s.host.h = none) : s.fullSize = none := by
  rcases h with h | h <;> simp [State.fullSize, h]

section NoCanvas

variable {s : State} {k : Nat} (h : s.canvases[k]? = none)
include h

theorem changesCanvas_none (f : Canvas → Option Canvas) : s.changesCanvas k f = .refused .noSuchCanvas := by
  simp only [State.changesCanvas, h]

theorem readsCanvas_none (f : Canvas → Option HostReply) : s.readsCanvas k f = .refused .noSuchCanvas := by
  simp only [State.readsCanvas, h]

theorem flushesCanvas_none (payload : Canvas → List Byte) : s.flushesCanvas k payload = .refused .noSuchCanvas := by
  simp only [State.flushesCanvas, h]

end NoCanvas

/-- Settles O54: no size, no full screen; beyond the list, no canvas. -/
theorem missingCanvasOrSizeRefused : Obligations.MissingCanvasOrSizeRefused := by
  intro s k x y r g b col img buf
  refine ⟨fun hsize => ?size, fun hk => ?canvas⟩
  case size =>
    have hnone := fullSize_eq_none hsize
    exact ⟨by simp only [perform, State.clears, hnone], by simp only [perform, State.makesFullScreen, hnone]⟩
  case canvas =>
    have hnone : s.canvases[k]? = none := List.getElem?_eq_none hk
    simp only [List.forall_mem_cons, List.not_mem_nil, false_imp_iff, implies_true, and_true]
    exact ⟨changesCanvas_none hnone _, readsCanvas_none hnone _, changesCanvas_none hnone _, readsCanvas_none hnone _,
      changesCanvas_none hnone fun c => some (c.drawImage img), changesCanvas_none hnone fun c => some c.clear,
      flushesCanvas_none hnone _, flushesCanvas_none hnone _⟩

/-! ## Coordinates outside a canvas (45_host_canvas.md R221, R216) -/

theorem changesCanvas_refused {s : State} {k : Nat} {c : Canvas} {f : Canvas → Option Canvas}
    (hk : s.canvases[k]? = some c) (hf : f c = none) : s.changesCanvas k f = .refused .canvasOutOfRange := by
  simp only [State.changesCanvas, hk, hf]

theorem readsCanvas_refused {s : State} {k : Nat} {c : Canvas} {f : Canvas → Option HostReply}
    (hk : s.canvases[k]? = some c) (hf : f c = none) : s.readsCanvas k f = .refused .canvasOutOfRange := by
  simp only [State.readsCanvas, hk, hf]

theorem setColor_of_no_pixel {c : Canvas} {x y : Nat} (h : c.getRGB x y = none) (col : Color) :
    c.setColor x y col = none := by
  simp only [Canvas.setColor, h]

theorem getColor_eq_map (c : Canvas) (x y : Nat) :
    c.getColor x y = (c.getRGB x y).map fun px => { r := px.r, g := px.g, b := px.b, a := 255 } := by
  unfold Canvas.getColor
  cases c.getRGB x y <;> rfl

/-- Settles O57: outside, the read and the write of a pixel are refused, and the colour accessors go through them. -/
theorem outsideCanvasRefused : Obligations.OutsideCanvasRefused := by
  intro s k x y c r g b col hk hc
  refine ⟨fun hout => ?outside, fun hx hy => ?inside⟩
  case outside =>
    have hin : ¬c.inside x y = true := by rw [Canvas.inside_iff]; omega
    have hget := Canvas.getRGB_outside hin
    exact ⟨changesCanvas_refused hk (Canvas.setRGB_outside hin _), readsCanvas_refused hk (by rw [hget]; rfl),
      changesCanvas_refused hk (setColor_of_no_pixel hget col),
      readsCanvas_refused hk (by rw [getColor_eq_map, hget]; rfl)⟩
  case inside =>
    obtain ⟨px, hpx⟩ := Canvas.getRGB_inside hc (Canvas.inside_iff.mpr ⟨hx, hy⟩)
    exact ⟨px, perform_getRGB_of_canvas hk hpx, State.readsCanvas_of_canvas hk (by rw [getColor_eq_map, hpx]; rfl)⟩

/-! ## The blend (45_host_canvas.md R215) -/

/-- A weighted sum with weights that add up to 255 lies between its two values times 255. -/
theorem weighted_between {f b a : Nat} (ha : a ≤ 255) :
    min f b * 255 ≤ f * a + b * (255 - a) ∧ f * a + b * (255 - a) ≤ max f b * 255 := by
  have hsum : ∀ m : Nat, m * 255 = m * a + m * (255 - a) := fun m => by rw [← Nat.mul_add, Nat.add_sub_cancel' ha]
  rw [hsum (min f b), hsum (max f b)]
  exact ⟨Nat.add_le_add (Nat.mul_le_mul_right _ (Nat.min_le_left f b)) (Nat.mul_le_mul_right _ (Nat.min_le_right f b)),
    Nat.add_le_add (Nat.mul_le_mul_right _ (Nat.le_max_left f b)) (Nat.mul_le_mul_right _ (Nat.le_max_right f b))⟩

/-- The quotient lies between the two channels, so it fits a byte: nothing is lost. -/
theorem blend_between (f b a : Byte) :
    (blend f b a).toNat = (f.toNat * a.toNat + b.toNat * (255 - a.toNat)) / 255 ∧
      min f.toNat b.toNat ≤ (blend f b a).toNat ∧ (blend f b a).toNat ≤ max f.toNat b.toNat := by
  have hf := f.isLt
  have hb := b.isLt
  have ha := a.isLt
  obtain ⟨hlow, hhigh⟩ := weighted_between (f := f.toNat) (b := b.toNat) (a := a.toNat) (by omega)
  have hmin := (Nat.le_div_iff_mul_le (by decide)).mpr hlow
  have hmax := Nat.div_le_of_le_mul (hhigh.trans_eq (Nat.mul_comm _ _))
  have hexact : (blend f b a).toNat = (f.toNat * a.toNat + b.toNat * (255 - a.toNat)) / 255 := by
    rw [blend, BitVec.toNat_ofNat, Nat.mod_eq_of_lt (by omega)]
  rw [hexact]
  exact ⟨rfl, hmin, hmax⟩

/-- Settles O58: the ends by the formula, equal channels by the bounds. -/
theorem blendFormula : Obligations.BlendFormula := by
  intro f b a
  obtain ⟨hexact, hmin, hmax⟩ := blend_between f b a
  refine ⟨hexact, BitVec.eq_of_toNat_eq ?full, BitVec.eq_of_toNat_eq ?none, BitVec.eq_of_toNat_eq ?same, hmin, hmax⟩
  case full =>
    rw [(blend_between f b 255).1, show (255 : Byte).toNat = 255 from rfl, Nat.sub_self, Nat.mul_zero, Nat.add_zero]
    exact Nat.mul_div_cancel _ (by decide)
  case none =>
    rw [(blend_between f b 0).1, show (0 : Byte).toNat = 0 from rfl, Nat.mul_zero, Nat.zero_add]
    exact Nat.mul_div_cancel _ (by decide)
  case same =>
    obtain ⟨-, hlow, hhigh⟩ := blend_between f f a
    rw [Nat.min_self] at hlow
    rw [Nat.max_self] at hhigh
    exact Nat.le_antisymm hhigh hlow

/-! ## Drawing a picture (45_host_canvas.md R217) -/

/-- Writing a colour inside a canvas composes its pixel and leaves every other alone. -/
theorem setColor_inside {c : Canvas} {x y : Nat} {bg : Pixel} (hc : c.wf = true) (h : c.getRGB x y = some bg)
    (col : Color) : ∃ c', c.setColor x y col = some c' ∧ c'.getRGB x y = some (col.over bg) ∧
      ∀ x' y', (x', y') ≠ (x, y) → c'.getRGB x' y' = c.getRGB x' y' := by
  obtain ⟨c', hset, hsame, -, -, -, hother⟩ := Canvas.setRGB_inside hc (Canvas.getRGB_eq_some.mp h).1 (col.over bg)
  exact ⟨c', (Canvas.setColor_of_getRGB h col).trans hset, hsame, hother⟩

theorem drawPoint_outside {c : Canvas} {x y : Int} (h : ¬(0 ≤ x ∧ x < c.cw ∧ 0 ≤ y ∧ y < c.ch)) (col : Color) :
    c.drawPoint x y col = c := if_neg h

/-- A drawn point inside the canvas is the colour composed there. -/
theorem drawPoint_inside {c c' : Canvas} {x y : Int} {col : Color} (h : 0 ≤ x ∧ x < c.cw ∧ 0 ≤ y ∧ y < c.ch)
    (hset : c.setColor x.toNat y.toNat col = some c') : c.drawPoint x y col = c' := by
  rw [Canvas.drawPoint, if_pos h, hset, Option.getD_some]

/-- The point drawn is composed over what the canvas held. -/
theorem getRGB_drawPoint_same {c : Canvas} {x y : Nat} {bg : Pixel} (hc : c.wf = true) (h : c.getRGB x y = some bg)
    (col : Color) : (c.drawPoint x y col).getRGB x y = some (col.over bg) := by
  obtain ⟨hx, hy⟩ := Canvas.inside_iff.mp (Canvas.getRGB_eq_some.mp h).1
  obtain ⟨c', hset, hsame, -⟩ := setColor_inside hc h col
  rw [drawPoint_inside (by omega) hset, hsame]

/-- Every other point reads as before. -/
theorem getRGB_drawPoint_other {c : Canvas} {x y : Nat} {X Y : Int} (hc : c.wf = true)
    (h : ¬((x : Int) = X ∧ (y : Int) = Y)) (col : Color) : (c.drawPoint X Y col).getRGB x y = c.getRGB x y := by
  by_cases hin : 0 ≤ X ∧ X < c.cw ∧ 0 ≤ Y ∧ Y < c.ch
  · obtain ⟨bg, hbg⟩ := Canvas.getRGB_inside (x := X.toNat) (y := Y.toNat) hc (Canvas.inside_iff.mpr (by omega))
    obtain ⟨c', hset, -, hother⟩ := setColor_inside hc hbg col
    rw [drawPoint_inside hin hset]
    refine hother x y fun he => h ?_
    obtain ⟨rfl, rfl⟩ := Prod.mk.inj he
    omega
  · rw [drawPoint_outside hin]

/-- A row leaves alone what it does not cover. -/
theorem getRGB_drawRow_other {c : Canvas} {x y : Nat} {X Y : Int} {row : List Color} (hc : c.wf = true)
    (h : ∀ i, i < row.length → ¬((x : Int) = X + i ∧ (y : Int) = Y)) :
    (c.drawRow X Y row).getRGB x y = c.getRGB x y := by
  induction row generalizing c X with
  | nil => rfl
  | cons col cols ih =>
    have hfirst : ¬((x : Int) = X ∧ (y : Int) = Y) := by simpa using h 0 (Nat.succ_pos _)
    have hrest : ∀ i, i < cols.length → ¬((x : Int) = X + 1 + i ∧ (y : Int) = Y) := fun i hi hxy =>
      h (i + 1) (Nat.succ_lt_succ hi) ⟨by push_cast; omega, hxy.2⟩
    rw [Canvas.drawRow, ih (drawPoint_wf hc X Y col) hrest, getRGB_drawPoint_other hc hfirst]

/-- A point a row covers is its colour there, composed over what the canvas held: no other point of the row is it. -/
theorem getRGB_drawRow_same {c : Canvas} {x y i : Nat} {X : Int} {row : List Color} {col : Color} {bg : Pixel}
    (hc : c.wf = true) (hcol : row[i]? = some col) (hx : (x : Int) = X + i) (hbg : c.getRGB x y = some bg) :
    (c.drawRow X y row).getRGB x y = some (col.over bg) := by
  induction row generalizing c X i with
  | nil => cases hcol
  | cons first cols ih =>
    rw [Canvas.drawRow]
    cases i with
    | zero =>
      obtain rfl : first = col := Option.some.inj hcol
      obtain rfl : (x : Int) = X := by simpa using hx
      rw [getRGB_drawRow_other (drawPoint_wf hc _ _ _) (fun i _ hxy => by omega), getRGB_drawPoint_same hc hbg]
    | succ i =>
      push_cast at hx
      have hkeep : (c.drawPoint X y first).getRGB x y = some bg := by
        rw [getRGB_drawPoint_other hc (fun hxy => by omega), hbg]
      exact ih (drawPoint_wf hc X y first) hcol (by omega) hkeep

/-- A picture leaves alone what it does not cover. -/
theorem getRGB_drawRows_other {c : Canvas} {x y : Nat} {X Y : Int} {rows : List (List Color)} (hc : c.wf = true)
    (h : ∀ (j i : Nat) (row : List Color), rows[j]? = some row → i < row.length →
      ¬((x : Int) = X + i ∧ (y : Int) = Y + j)) : (c.drawRows X Y rows).getRGB x y = c.getRGB x y := by
  induction rows generalizing c Y with
  | nil => rfl
  | cons row rows ih =>
    have hfirst : ∀ i, i < row.length → ¬((x : Int) = X + i ∧ (y : Int) = Y) := fun i hi => by
      simpa using h 0 i row rfl hi
    have hrest : ∀ (j i : Nat) (r : List Color), rows[j]? = some r → i < r.length →
        ¬((x : Int) = X + i ∧ (y : Int) = Y + 1 + j) := fun j i r hr hi hxy =>
      h (j + 1) i r hr hi ⟨hxy.1, by push_cast; omega⟩
    rw [Canvas.drawRows, ih (drawRow_wf hc X Y row) hrest, getRGB_drawRow_other hc hfirst]

/-- A point a picture covers is its colour there, composed over what the canvas held: no other row comes to it. -/
theorem getRGB_drawRows_same {c : Canvas} {x y i j : Nat} {X Y : Int} {rows : List (List Color)} {row : List Color}
    {col : Color} {bg : Pixel} (hc : c.wf = true) (hrow : rows[j]? = some row) (hcol : row[i]? = some col)
    (hx : (x : Int) = X + i) (hy : (y : Int) = Y + j) (hbg : c.getRGB x y = some bg) :
    (c.drawRows X Y rows).getRGB x y = some (col.over bg) := by
  induction rows generalizing c Y j with
  | nil => cases hrow
  | cons first rows ih =>
    rw [Canvas.drawRows]
    cases j with
    | zero =>
      obtain rfl : first = row := Option.some.inj hrow
      obtain rfl : (y : Int) = Y := by simpa using hy
      rw [getRGB_drawRows_other (drawRow_wf hc _ _ _) (fun j i r _ _ hxy => by omega),
        getRGB_drawRow_same hc hcol hx hbg]
    | succ j =>
      push_cast at hy
      have hkeep : (c.drawRow X Y first).getRGB x y = some bg := by
        rw [getRGB_drawRow_other hc (fun i _ hxy => by omega), hbg]
      exact ih (drawRow_wf hc X Y first) hrow (by omega) hkeep

/-- Settles O59: row by row, and in each row point by point. -/
theorem drawImageOverlap : Obligations.DrawImageOverlap := fun _ _ _ img _ _ hn hc _ _ =>
  ⟨State.changesCanvas_of_canvas (f := fun c => some (c.drawImage img)) hn rfl, drawRows_wf hc _ _ _,
    fun _ _ _ _ _ => getRGB_drawRows_same hc, getRGB_drawRows_other hc⟩

end Sys2Proof.Machine
end
